-- ==== Sys2Proof/Word.lean ====
section
/-! DEFINITION. The words of the two ports and of the lookup memory (spec/20_memory.md R30, R33;
spec/30_encoding.md R40, R42). Bit 0 is the least significant bit of every word (00_scope.md
section 6). -/

namespace Sys2Proof

/-- A word on the command port (R40). -/
abbrev CommandWord := BitVec 64

/-- A word on the response port: `status ## data1 ## data0` (R42). -/
abbrev ResponseWord := BitVec 72

/-- A word of the lookup memory, and a data word of a response (R30, R42). -/
abbrev Word := BitVec 32

/-- A status code of a response (R43). -/
abbrev Status := BitVec 8

end Sys2Proof
end

