-- ==== Sys2Proof/Config.lean ====
section
/-! DEFINITION. What is fixed for this hardware (spec/00_scope.md R2, R3, R5) and the free values: the
contents of a bank or slot that the spec calls unspecified (spec/93_implementation_defined.md U5, U6). -/

namespace Sys2Proof.Config

/-- `N_DEC`, the number of decoder banks (R2). -/
abbrev nDec : Nat := 2

/-- `N_LUT`, the number of lookup slots (R2). -/
abbrev nLut : Nat := 1

/-- `LUT_DEPTH`, the words in each lookup memory (R2). -/
def lutDepth : Nat := 2 ^ 24

/-- One least significant bit of 16-bit PCM in level units, and the coefficient 1.0: `2^F` with
`F = 16` (R2, R5). -/
abbrev scale : Int := 65536

/-- `ZT`, the threshold of the zero-crossing detector: 128 PCM units as a level (R3). -/
abbrev zeroThreshold : Int := 8388608

/-- `ST`, the threshold of liveness: 256 PCM units as a level (R3). -/
abbrev signalThreshold : Nat := 16777216

/-- `1 / ZERO_RC` per second (R3, R66). -/
abbrev zeroRate : Nat := 1000

/-- `1 / SIGNAL_RC` per second (R3, R66). -/
abbrev signalRate : Nat := 250

/-- `REF_PEAKS_AVG` (R3, R78). -/
abbrev refPeaksAvg : Int := 48

/-- `VALID_BITS` (R3, R80). -/
abbrev validBits : Nat := 24

/-- Whose unspecified contents a free value stands for. -/
inductive FreeSource where
  | bank (d : Nat)
  | slot (h : Nat)
  deriving DecidableEq, Repr

/-- FREE VALUE: the register `field` of width `w` of `src` at its `draw`-th loss of contents
(10_state.md R11, R12; log 9, log 10). Nothing constrains it. -/
opaque freeBits (w : Nat) (src : FreeSource) (draw field : Nat) : BitVec w

/-- FREE VALUE: as `freeBits`, for a one-bit flag. -/
opaque freeFlag (src : FreeSource) (draw field : Nat) : Bool

/-- FREE VALUE: the words a slot's memory holds at its `draw`-th loss of contents (10_state.md R11;
41_lookup.md R57, R58; log 10). Nothing constrains it. -/
opaque freeCells (src : FreeSource) (draw : Nat) : List (Nat × Word)

end Sys2Proof.Config
end

