-- ==== Sys2Proof/Syntax.lean ====
section
/-! DEFINITION. The twelve commands (spec/opcode_table.json; spec/30_encoding.md R40, R41, R44), with the
operands as the integers R41 assembles. -/

namespace Sys2Proof

/-- A command. `d` is a decoder index, `h` a slot index, both the unsigned 8-bit integers of R41. -/
inductive Instr where
  | buildLookup (h variant : Nat)
  | freeLookup (h : Nat)
  | init (d h : Nat)
  | clear (d : Nat)
  | rate (d rate : Nat)
  | sample (d : Nat) (left right : Int)
  | getPitch (d : Nat)
  | getPosition (d : Nat)
  | getAlive (d : Nat)
  | getSafe (d : Nat)
  | getResolution (d : Nat)
  | getStatus
  deriving DecidableEq, Repr

end Sys2Proof
end

