-- ==== Sys2Proof/WellFormed.lean ====
section
/-! DEFINITION. Which commands a 64-bit word can carry: every operand fits the field R41 assembles it from
(spec/30_encoding.md R40, R41). -/

namespace Sys2Proof

/-- An unsigned 8-bit `unit` or `aux` field. -/
def fitsUnit (n : Nat) : Bool := decide (n < 256)

/-- An unsigned 32-bit operand. -/
def fitsOperand (n : Nat) : Bool := decide (n < 4294967296)

/-- A signed 16-bit PCM value. -/
def fitsPcm (v : Int) : Bool := decide (-32768 ≤ v) && decide (v ≤ 32767)

/-- Every operand is in the range its field can carry. -/
def Instr.wellFormed : Instr → Bool
  | .buildLookup h variant => fitsUnit h && fitsOperand variant
  | .freeLookup h => fitsUnit h
  | .init d h => fitsUnit d && fitsUnit h
  | .clear d => fitsUnit d
  | .rate d r => fitsUnit d && fitsOperand r
  | .sample d left right => fitsUnit d && fitsPcm left && fitsPcm right
  | .getPitch d => fitsUnit d
  | .getPosition d => fitsUnit d
  | .getAlive d => fitsUnit d
  | .getSafe d => fitsUnit d
  | .getResolution d => fitsUnit d
  | .getStatus => true

end Sys2Proof
end

