-- ==== Sys2Proof/Decode.lean ====
section
/-! DEFINITION. Decoding, total on every 64-bit word and rejecting by name, and the encoder
(spec/30_encoding.md R40, R41, R44, R45, R46, R48). -/

namespace Sys2Proof

/-- The five fields of a command word (R40). -/
structure Fields where
  op : Nat
  unit : Nat
  aux : Nat
  rsv : Nat
  operand : Nat
  deriving DecidableEq, Repr

/-- The six formats of R40. -/
inductive Format where
  | z | d | dh | dOp | h | hOp
  deriving DecidableEq, Repr

/-- The twelve opcodes of R44. -/
inductive Opcode where
  | buildLookup | freeLookup | init | clear | rate | sample
  | getPitch | getPosition | getAlive | getSafe | getResolution | getStatus
  deriving DecidableEq, Repr

/-- Why a word is illegal (R45). -/
inductive Illegal where
  /-- `op` is `0x00` or in `0x0D .. 0xFF`. -/
  | badOpcode
  /-- `rsv` is not zero. -/
  | rsvNotZero
  /-- A field its format does not use is not zero. -/
  | unusedNotZero
  deriving DecidableEq, Repr

/-- A row of the opcode table (R44): `w` is the command when `w AND mask = match`. -/
structure TableRow where
  opcode : Opcode
  mnemonic : String
  pattern : CommandWord
  mask : CommandWord
  deriving DecidableEq, Repr

/-- The fields of a word (R40). -/
def fields (w : CommandWord) : Fields where
  op := (w.extractLsb' 56 8).toNat
  unit := (w.extractLsb' 48 8).toNat
  aux := (w.extractLsb' 40 8).toNat
  rsv := (w.extractLsb' 32 8).toNat
  operand := (w.extractLsb' 0 32).toNat

/-- `sext_16` (00_scope.md section 6). -/
def sext16 (n : Nat) : Int := if n < 32768 then n else (n : Int) - 65536

/-- The `op` column of R44. -/
def Opcode.number : Opcode → Nat
  | .buildLookup => 0x01
  | .freeLookup => 0x02
  | .init => 0x03
  | .clear => 0x04
  | .rate => 0x05
  | .sample => 0x06
  | .getPitch => 0x07
  | .getPosition => 0x08
  | .getAlive => 0x09
  | .getSafe => 0x0A
  | .getResolution => 0x0B
  | .getStatus => 0x0C

/-- The opcode a number selects; every other number is illegal (R44, R45). -/
def Opcode.ofNumber : Nat → Option Opcode
  | 0x01 => some .buildLookup
  | 0x02 => some .freeLookup
  | 0x03 => some .init
  | 0x04 => some .clear
  | 0x05 => some .rate
  | 0x06 => some .sample
  | 0x07 => some .getPitch
  | 0x08 => some .getPosition
  | 0x09 => some .getAlive
  | 0x0A => some .getSafe
  | 0x0B => some .getResolution
  | 0x0C => some .getStatus
  | _ => none

/-- The `format` column of R44. -/
def Opcode.format : Opcode → Format
  | .buildLookup => .hOp
  | .freeLookup => .h
  | .init => .dh
  | .clear => .d
  | .rate => .dOp
  | .sample => .dOp
  | .getPitch => .d
  | .getPosition => .d
  | .getAlive => .d
  | .getSafe => .d
  | .getResolution => .d
  | .getStatus => .z

/-- The fields the format does not use are zero (R40). -/
def Format.unusedZero (f : Fields) : Format → Bool
  | .z => f.unit == 0 && f.aux == 0 && f.operand == 0
  | .d => f.aux == 0 && f.operand == 0
  | .dh => f.operand == 0
  | .dOp => f.aux == 0
  | .h => f.aux == 0 && f.operand == 0
  | .hOp => f.aux == 0

/-- The command with the operands R41 assembles. -/
def Opcode.assemble (f : Fields) : Opcode → Instr
  | .buildLookup => .buildLookup f.unit f.operand
  | .freeLookup => .freeLookup f.unit
  | .init => .init f.unit f.aux
  | .clear => .clear f.unit
  | .rate => .rate f.unit f.operand
  | .sample => .sample f.unit (sext16 (f.operand % 65536)) (sext16 (f.operand / 65536))
  | .getPitch => .getPitch f.unit
  | .getPosition => .getPosition f.unit
  | .getAlive => .getAlive f.unit
  | .getSafe => .getSafe f.unit
  | .getResolution => .getResolution f.unit
  | .getStatus => .getStatus

/-- Decoding is total: a command, or why the word is illegal (R45, R48). -/
def decode (w : CommandWord) : Except Illegal Instr :=
  let f := fields w
  match Opcode.ofNumber f.op with
  | none => .error .badOpcode
  | some o =>
    if f.rsv = 0 then
      if o.format.unusedZero f then .ok (o.assemble f) else .error .unusedNotZero
    else .error .rsvNotZero

/-- The opcode table of R44. -/
def opcodeTable : List TableRow := [
  ⟨.buildLookup, "BUILD_LOOKUP", 0x0100000000000000, 0xFF00FFFF00000000⟩,
  ⟨.freeLookup, "FREE_LOOKUP", 0x0200000000000000, 0xFF00FFFFFFFFFFFF⟩,
  ⟨.init, "INIT", 0x0300000000000000, 0xFF0000FFFFFFFFFF⟩,
  ⟨.clear, "CLEAR", 0x0400000000000000, 0xFF00FFFFFFFFFFFF⟩,
  ⟨.rate, "RATE", 0x0500000000000000, 0xFF00FFFF00000000⟩,
  ⟨.sample, "SAMPLE", 0x0600000000000000, 0xFF00FFFF00000000⟩,
  ⟨.getPitch, "GET_PITCH", 0x0700000000000000, 0xFF00FFFFFFFFFFFF⟩,
  ⟨.getPosition, "GET_POSITION", 0x0800000000000000, 0xFF00FFFFFFFFFFFF⟩,
  ⟨.getAlive, "GET_ALIVE", 0x0900000000000000, 0xFF00FFFFFFFFFFFF⟩,
  ⟨.getSafe, "GET_SAFE", 0x0A00000000000000, 0xFF00FFFFFFFFFFFF⟩,
  ⟨.getResolution, "GET_RESOLUTION", 0x0B00000000000000, 0xFF00FFFFFFFFFFFF⟩,
  ⟨.getStatus, "GET_STATUS", 0x0C00000000000000, 0xFFFFFFFFFFFFFFFF⟩]

/-- The word is the row's command (R44). -/
def TableRow.selects (r : TableRow) (w : CommandWord) : Bool := w &&& r.mask == r.pattern

/-! ## The encoder -/

/-- The opcode of a command (R44). -/
def Instr.opcode : Instr → Opcode
  | .buildLookup _ _ => .buildLookup
  | .freeLookup _ => .freeLookup
  | .init _ _ => .init
  | .clear _ => .clear
  | .rate _ _ => .rate
  | .sample _ _ _ => .sample
  | .getPitch _ => .getPitch
  | .getPosition _ => .getPosition
  | .getAlive _ => .getAlive
  | .getSafe _ => .getSafe
  | .getResolution _ => .getResolution
  | .getStatus => .getStatus

/-- The `unit` field (R40). -/
def Instr.unitField : Instr → Nat
  | .buildLookup h _ => h
  | .freeLookup h => h
  | .init d _ => d
  | .clear d => d
  | .rate d _ => d
  | .sample d _ _ => d
  | .getPitch d => d
  | .getPosition d => d
  | .getAlive d => d
  | .getSafe d => d
  | .getResolution d => d
  | .getStatus => 0

/-- The `aux` field: the slot index of INIT, zero otherwise (R40). -/
def Instr.auxField : Instr → Nat
  | .init _ h => h
  | .buildLookup _ _ | .freeLookup _ | .clear _ | .rate _ _ | .sample _ _ _ | .getPitch _
  | .getPosition _ | .getAlive _ | .getSafe _ | .getResolution _ | .getStatus => 0

/-- The stereo frame of SAMPLE: `(right mod 2^16) << 16 OR (left mod 2^16)` (R46). -/
def frame (left right : Int) : Nat :=
  (right % 65536).toNat <<< 16 ||| (left % 65536).toNat

/-- The `operand` field (R40, R46). -/
def Instr.operandField : Instr → Nat
  | .buildLookup _ variant => variant
  | .rate _ r => r
  | .sample _ left right => frame left right
  | .freeLookup _ | .init _ _ | .clear _ | .getPitch _ | .getPosition _ | .getAlive _
  | .getSafe _ | .getResolution _ | .getStatus => 0

/-- `op << 56 OR unit << 48 OR aux << 40 OR operand` (R46). -/
def encode (i : Instr) : CommandWord :=
  BitVec.ofNat 64 (i.opcode.number <<< 56 ||| i.unitField <<< 48 ||| i.auxField <<< 40
    ||| i.operandField)

/-- The command the decoder reads from the low `nbits` bits of `w`, numbered as the opcode table
numbers them; none where it rejects them or where a 64-bit word cannot hold them. -/
def decodeTableWord (nbits w : Nat) : Option Instr :=
  if nbits ≤ 64 then (decode (BitVec.ofNat 64 (w % 2 ^ nbits))).toOption else none

end Sys2Proof
end

