-- ==== Sys2Proof/Machine/State.lean ====
section
/-! DEFINITION. The state of the block (spec/10_state.md R11 to R14, spec/20_memory.md R30, R33), its
value after hardware reset (spec/70_reset_and_hazards.md R120), and the reasons a step can stop.
Registers have the widths of R11 to R14; INVENTORY.md lists them with their reset values. -/

namespace Sys2Proof.Machine

/-- Why the machine stops. No run from reset reaches one of these: the host's commands always get a
response (60_exceptions.md R101, R105). -/
inductive Fault where
  /-- A live bank's `handle` names no slot. Raised by SAMPLE at a mono crossing, GET_POSITION, GET_SAFE
  and GET_RESOLUTION. Safe: "`handle` is legal only below `N_LUT`" (10_state.md R16), so the spec has no
  such bank (log 12). -/
  | noSuchSlot
  /-- A slot's `variant` names no registry row. Raised by SAMPLE at a mono crossing, GET_SAFE and
  GET_RESOLUTION. Safe: BUILD_LOOKUP writes only ids of the registry (41_lookup.md R57; log 13). -/
  | noSuchVariant
  deriving DecidableEq, Repr

/-- Why an instruction has no meaning here. -/
inductive Refusal where
  /-- Raised by `exec` for a command without a meaning. Safe. No command is left so. -/
  | notModelled (mnemonic : String)
  deriving DecidableEq, Repr

/-- The nine errors of 60_exceptions.md R100. -/
inductive ErrorCode where
  | illegal | unknownVariant | lfsrWrapped | outOfMemory | badUnit
  | notLive | noLookup | busy | noRate
  deriving DecidableEq, Repr

/-- A row of the registry, the document's `TimecodeDef` (10_state.md R10). `polarity` is `POS = 1`. -/
structure TimecodeDef where
  name : String
  bits : Nat
  resolution : Nat
  polarity : Bool
  seed : Nat
  taps : Nat
  length : Nat
  safe : Nat
  deriving DecidableEq, Repr

/-- A lookup memory: the words that differ from what an unlisted address reads as, at strictly rising
word addresses (20_memory.md R30; log 7, log 8). -/
abbrev Memory := List (Nat × Word)

/-- The value -1, "unknown" (R30), which is what an unlisted address reads as (log 7). -/
def Memory.sentinel : Word := 0xFFFFFFFF#32

/-- The canonical form: addresses strictly rising, and no listed word an unlisted address would read as. -/
abbrev Memory.wf (m : Memory) : Prop :=
  m.Pairwise (fun x y => x.1 < y.1) ∧ ∀ c ∈ m, c.2 ≠ Memory.sentinel

/-- A lookup slot (10_state.md R11). -/
structure Slot where
  valid : Bool
  variant : BitVec 3
  mem : Memory
  deriving DecidableEq, Repr

/-- A channel tracker's registers (10_state.md R13). `zero` is a signed level quantity. -/
structure ChannelState where
  zero : BitVec 33
  positive : Bool
  crossingTicker : BitVec 32
  deriving DecidableEq, Repr

/-- A decoder bank (10_state.md R12). `refLevel` is signed, -1 = uninitialised; `crossings` is signed;
`wavePeak`, `halfPeak`, `signalLevel` are unsigned level quantities. -/
structure Decoder where
  live : Bool
  handle : BitVec 8
  rateValid : Bool
  rate : BitVec 32
  zeroAlpha : BitVec 17
  signalAlpha : BitVec 17
  ch0 : ChannelState
  ch1 : ChannelState
  mono : ChannelState
  forwards : Bool
  wavePeak : BitVec 33
  halfPeak : BitVec 33
  refLevel : BitVec 35
  signalLevel : BitVec 33
  crossings : BitVec 32
  pitchTicker : BitVec 32
  crossTicker : BitVec 32
  bitstream : BitVec 23
  timecode : BitVec 23
  validCounter : BitVec 32
  timecodeTicker : BitVec 32
  deriving DecidableEq, Repr

/-- What the host can do to the block (00_scope.md R4): send a command word, or assert hardware reset. -/
inductive HostInput where
  | command (w : CommandWord)
  | reset
  deriving DecidableEq, Repr

/-- The whole state. `port` holds the host's inputs not yet taken, `responses` the words emitted so far,
newest first (log 2, log 4). `bankDraws` and `slotDraws` are the model's own: they number the free values
(log 11). -/
structure State where
  lut : Vector Slot Config.nLut
  dec : Vector Decoder Config.nDec
  errFlags : BitVec 9
  port : List HostInput
  responses : List ResponseWord
  bankDraws : Vector Nat Config.nDec
  slotDraws : Vector Nat Config.nLut
  deriving DecidableEq, Repr

/-- A channel tracker after hardware reset: unspecified in the spec, zero here (log 6). -/
def ChannelState.reset : ChannelState := { zero := 0, positive := false, crossingTicker := 0 }

/-- A bank after hardware reset: `live` and `rate_valid` are 0 (R120); the rest is unspecified in the
spec, zero here (log 6). -/
def Decoder.reset : Decoder where
  live := false
  handle := 0
  rateValid := false
  rate := 0
  zeroAlpha := 0
  signalAlpha := 0
  ch0 := ChannelState.reset
  ch1 := ChannelState.reset
  mono := ChannelState.reset
  forwards := false
  wavePeak := 0
  halfPeak := 0
  refLevel := 0
  signalLevel := 0
  crossings := 0
  pitchTicker := 0
  crossTicker := 0
  bitstream := 0
  timecode := 0
  validCounter := 0
  timecodeTicker := 0

/-- A slot after hardware reset: `valid` is 0 (R120); the rest is unspecified in the spec (log 6, log 7). -/
def Slot.reset : Slot := { valid := false, variant := 0, mem := [] }

/-- The block right after hardware reset (R120), with nothing on its ports. -/
def State.reset : State where
  lut := Vector.replicate Config.nLut Slot.reset
  dec := Vector.replicate Config.nDec Decoder.reset
  errFlags := 0
  port := []
  responses := []
  bankDraws := Vector.replicate Config.nDec 0
  slotDraws := Vector.replicate Config.nLut 0

/-- What a step or a meaning answers. -/
abbrev Result := Host.Outcome State Fault Refusal

end Sys2Proof.Machine
end

