-- ==== Sys2Proof/Machine/Registry.lean ====
section
/-! DEFINITION. The timecode-variant registry, a read-only table (spec/10_state.md R10). -/

namespace Sys2Proof.Machine

/-- `REG[0 .. 4]`; the variant id is the position (R10). -/
def registry : List TimecodeDef := [
  ⟨"serato_2a", 20, 1000, true, 0x59017, 0x361e4, 712000, 707000⟩,
  ⟨"serato_2b", 20, 1000, true, 0x8f3c6, 0x4f0d8, 922000, 917000⟩,
  ⟨"serato_cd", 20, 1000, true, 0x84c0c, 0x34d54, 940000, 930000⟩,
  ⟨"traktor_a", 23, 2000, true, 0x134503, 0x041040, 1500000, 1480000⟩,
  ⟨"traktor_b", 23, 2000, true, 0x32066c, 0x041040, 2110000, 2090000⟩]

/-- The registry lookup of BUILD_LOOKUP; none is "unknown variant" (41_lookup.md R57). -/
def variantRow (rows : List TimecodeDef) (variant : Nat) : Option TimecodeDef := rows[variant]?

end Sys2Proof.Machine
end

