-- ==== Sys2Proof/Machine/Flags.lean ====
section
/-! DEFINITION. Every flag computation of the block: the sticky error bits and their status codes
(spec/60_exceptions.md R100), the `positive` flags (spec/42_tracker_and_rate.md R64), the half-cycle test,
the emitted bit and the direction flag (spec/43_sample.md R73, R74, R77). -/

namespace Sys2Proof.Machine

/-- The `err_flags` bit of an error (R100). -/
def ErrorCode.bit : ErrorCode → Nat
  | .illegal => 0
  | .unknownVariant => 1
  | .lfsrWrapped => 2
  | .outOfMemory => 3
  | .badUnit => 4
  | .notLive => 5
  | .noLookup => 6
  | .busy => 7
  | .noRate => 8

/-- The status code of an error (R100): `0x10` plus its bit. -/
def ErrorCode.status : ErrorCode → Status
  | .illegal => 0x10
  | .unknownVariant => 0x11
  | .lfsrWrapped => 0x12
  | .outOfMemory => 0x13
  | .badUnit => 0x14
  | .notLive => 0x15
  | .noLookup => 0x16
  | .busy => 0x17
  | .noRate => 0x18

/-- `err_flags[E − 0x10] <- 1` (R101). -/
def setErrorFlag (flags : BitVec 9) (e : ErrorCode) : BitVec 9 := flags ||| (1#9 <<< e.bit)

/-- The upward crossing of R64 step 2: `vq >= zero + ZT and positive == 0`. -/
def crossesUp (zero vq : Int) (positive : Bool) : Bool :=
  decide (vq ≥ zero + Config.zeroThreshold) && !positive

/-- The downward crossing of R64 step 2: `vq < zero - ZT and positive == 1`. -/
def crossesDown (zero vq : Int) (positive : Bool) : Bool :=
  decide (vq < zero - Config.zeroThreshold) && positive

/-- `IsHalfCycle` (R73): `mono.positive == (polarity XOR forwards)`. -/
def isHalfCycle (monoPositive polarity forwards : Bool) : Bool :=
  monoPositive == (polarity ^^ forwards)

/-- `BitDecision` (R74); `refLevel` is read signed. -/
def bitDecision (wavePeak halfPeak : BitVec 33) (refLevel : BitVec 35) : Bool :=
  if refLevel.toInt = -1 then false
  else decide ((wavePeak.toNat : Int) + halfPeak.toNat > refLevel.toInt)

/-- The direction flag (R77): strictly greater is forwards. -/
def directionForwards (left right : BitVec 32) : Bool := decide (left.toNat > right.toNat)

end Sys2Proof.Machine
end

