-- ==== Sys2Proof/Machine/Ops.lean ====
section
/-! DEFINITION. The shared operations: the lookup memory (spec/20_memory.md R30 to R32), banks and slots, the
response port (spec/30_encoding.md R42, R43), `raise` (spec/60_exceptions.md R101), the loss of
unspecified contents, and hardware reset (spec/70_reset_and_hazards.md R120). There is no return from
`raise`: an error response is complete in itself (60_exceptions.md R108). -/

namespace Sys2Proof.Machine

/-! ## The lookup memory -/

/-- `LutRead`: the word at an address (R31). -/
def Memory.read : Memory → Nat → Word
  | [], _ => Memory.sentinel
  | (b, v) :: m, a => if b = a then v else Memory.read m a

/-- The listing of one word: an unlisted word for the sentinel. -/
def Memory.cell (a : Nat) (v : Word) : Memory := if v = Memory.sentinel then [] else [(a, v)]

/-- `LutWrite`: the memory with the word at `a` set to `v` (R32), in canonical form. -/
def Memory.write : Memory → Nat → Word → Memory
  | [], a, v => Memory.cell a v
  | (b, x) :: m, a, v =>
    if a < b then Memory.cell a v ++ (b, x) :: m
    else if a = b then Memory.cell a v ++ m
    else (b, x) :: Memory.write m a v

/-- `for a = 0 .. n - 1: LutWrite(h, a, -1)`, the first loop of `BuildTable` (41_lookup.md R56; log 17).
The words from `n` on stay as they were (log 20). -/
def Memory.clearBelow (m : Memory) (n : Nat) : Memory := m.filter fun c => decide (n ≤ c.1)

/-- A memory of given words, the addresses outside the slot left out. -/
def Memory.ofCells (cells : List (Nat × Word)) : Memory :=
  (cells.filter fun c => decide (c.1 < Config.lutDepth)).foldl (fun m c => m.write c.1 c.2) []

/-! ## Banks and slots -/

/-- `dec[d]`. -/
def State.bank (s : State) (d : Fin Config.nDec) : Decoder := s.dec[d.val]

/-- `lut[h]`. -/
def State.slot (s : State) (h : Fin Config.nLut) : Slot := s.lut[h.val]

/-- Write bank `d`. -/
def State.setBank (s : State) (d : Fin Config.nDec) (x : Decoder) : State :=
  { s with dec := s.dec.set d.val x }

/-- Write slot `h`. -/
def State.setSlot (s : State) (h : Fin Config.nLut) (x : Slot) : State :=
  { s with lut := s.lut.set h.val x }

/-! ## The response port -/

/-- `0x00 OK` (R43). -/
def statusOk : Status := 0x00

/-- `0x01 NONE` (R43). -/
def statusNone : Status := 0x01

/-- The response word: `status` in `[71:64]`, `data1` in `[63:32]`, `data0` in `[31:0]` (R42). -/
def responseWord (status : Status) (data0 data1 : Word) : ResponseWord := status ++ data1 ++ data0

/-- `status` of a response word (R42). -/
def responseStatus (r : ResponseWord) : Status := r.extractLsb' 64 8

/-- `data1` of a response word (R42). -/
def responseData1 (r : ResponseWord) : Word := r.extractLsb' 32 32

/-- `data0` of a response word (R42). -/
def responseData0 (r : ResponseWord) : Word := r.extractLsb' 0 32

/-- `respond(status, data0, data1)` (R42). -/
def respond (status : Status) (data0 data1 : Word) (s : State) : State :=
  { s with responses := responseWord status data0 data1 :: s.responses }

/-- `raise E` (R101): set the sticky bit, respond `(E, 0, 0)`, change nothing else. -/
def raise (e : ErrorCode) (s : State) : State :=
  respond e.status 0 0 { s with errFlags := setErrorFlag s.errFlags e }

/-! ## Loss of contents

After CLEAR a bank, after FREE_LOOKUP a slot, and after hardware reset all of them hold unspecified
contents (10_state.md R11, R12; 41_lookup.md R58; 45_lifecycle.md R89). Each loss is a fresh draw. -/

/-- A channel tracker with free contents, taken from three fields on. -/
def freeChannel (src : Config.FreeSource) (draw field : Nat) : ChannelState where
  zero := Config.freeBits 33 src draw field
  positive := Config.freeFlag src draw field
  crossingTicker := Config.freeBits 32 src draw (field + 1)

/-- A bank that is not live: every other field is a free value (log 9). -/
def freeDecoder (d draw : Nat) : Decoder :=
  let src := Config.FreeSource.bank d
  { live := false
    handle := Config.freeBits 8 src draw 0
    rateValid := Config.freeFlag src draw 0
    rate := Config.freeBits 32 src draw 1
    zeroAlpha := Config.freeBits 17 src draw 2
    signalAlpha := Config.freeBits 17 src draw 3
    ch0 := freeChannel src draw 4
    ch1 := freeChannel src draw 6
    mono := freeChannel src draw 8
    forwards := Config.freeFlag src draw 10
    wavePeak := Config.freeBits 33 src draw 11
    halfPeak := Config.freeBits 33 src draw 12
    refLevel := Config.freeBits 35 src draw 13
    signalLevel := Config.freeBits 33 src draw 14
    crossings := Config.freeBits 32 src draw 15
    pitchTicker := Config.freeBits 32 src draw 16
    crossTicker := Config.freeBits 32 src draw 17
    bitstream := Config.freeBits 23 src draw 18
    timecode := Config.freeBits 23 src draw 19
    validCounter := Config.freeBits 32 src draw 20
    timecodeTicker := Config.freeBits 32 src draw 21 }

/-- A memory with free contents (log 10). -/
def freeMemory (h draw : Nat) : Memory := Memory.ofCells (Config.freeCells (.slot h) draw)

/-- A slot that is not valid: variant and memory are free values (log 10). -/
def freeSlot (h draw : Nat) : Slot where
  valid := false
  variant := Config.freeBits 3 (.slot h) draw 0
  mem := freeMemory h draw

/-- The number of the next free value of bank `d`. -/
def State.bankDraw (s : State) (d : Fin Config.nDec) : Nat := s.bankDraws[d.val]

/-- The number of the next free value of slot `h`. -/
def State.slotDraw (s : State) (h : Fin Config.nLut) : Nat := s.slotDraws[h.val]

/-- Bank `d` stops being live and its other fields become unspecified (45_lifecycle.md R89). -/
def State.releaseBank (s : State) (d : Fin Config.nDec) : State :=
  { s with
    dec := s.dec.set d.val (freeDecoder d.val (s.bankDraw d))
    bankDraws := s.bankDraws.set d.val (s.bankDraw d + 1) }

/-- Slot `h` stops being valid and its other fields become unspecified (41_lookup.md R58). -/
def State.releaseSlot (s : State) (h : Fin Config.nLut) : State :=
  { s with
    lut := s.lut.set h.val (freeSlot h.val (s.slotDraw h))
    slotDraws := s.slotDraws.set h.val (s.slotDraw h + 1) }

/-- Only the memory of slot `h` becomes unspecified (41_lookup.md R57, after `ERR_LFSR_WRAPPED`). -/
def State.scrambleMemory (s : State) (h : Fin Config.nLut) : State :=
  { s with
    lut := s.lut.set h.val { s.slot h with mem := freeMemory h.val (s.slotDraw h) }
    slotDraws := s.slotDraws.set h.val (s.slotDraw h + 1) }

/-- Hardware reset (R120): `valid`, `live`, `rate_valid` and `err_flags` are 0, every other register and
memory is unspecified. The host's inputs and the responses it has had are outside the block. -/
def hardwareReset (s : State) : State :=
  { s with
    lut := Vector.ofFn fun h => freeSlot h.val (s.slotDraw h)
    dec := Vector.ofFn fun d => { freeDecoder d.val (s.bankDraw d) with rateValid := false }
    errFlags := 0
    bankDraws := Vector.ofFn fun d => s.bankDraw d + 1
    slotDraws := Vector.ofFn fun h => s.slotDraw h + 1 }

end Sys2Proof.Machine
end

