-- ==== Sys2Proof/Machine/Operands.lean ====
section
/-! DEFINITION. What a command's operands name: the decoder bank, the slot, `CheckLive` (spec/44_queries.md, its
opening; spec/60_exceptions.md R102, R104), and `def(d)`, `def(h)` (spec/10_state.md R11); and the arithmetic
on levels and counters (spec/00_scope.md section 6, R5). -/

namespace Sys2Proof.Machine

/-! ## Units -/

/-- `if d >= N_DEC: raise ERR_BAD_UNIT`. -/
def bankIndex (d : Nat) : Except ErrorCode (Fin Config.nDec) :=
  if h : d < Config.nDec then .ok ⟨d, h⟩ else .error .badUnit

/-- `if h >= N_LUT: raise ERR_BAD_UNIT`. -/
def slotIndex (h : Nat) : Except ErrorCode (Fin Config.nLut) :=
  if hlt : h < Config.nLut then .ok ⟨h, hlt⟩ else .error .badUnit

/-- `CheckLive(d)`: the bank, or the error the command raises. -/
def checkLive (d : Nat) (s : State) : Except ErrorCode (Fin Config.nDec) :=
  match bankIndex d with
  | .error e => .error e
  | .ok i => if (s.bank i).live then .ok i else .error .notLive

/-- The slot, when it holds a built table (`ERR_NO_LOOKUP` otherwise). -/
def checkValid (h : Nat) (s : State) : Except ErrorCode (Fin Config.nLut) :=
  match slotIndex h with
  | .error e => .error e
  | .ok i => if (s.slot i).valid then .ok i else .error .noLookup

/-- Go on with what a check yields, or raise its error: the first that applies (R102). -/
def orRaise {α : Type} (check : Except ErrorCode α) (s : State) (k : α → Result) : Result :=
  match check with
  | .error e => .next (raise e s)
  | .ok x => k x

/-- The slot a bank is bound to (R12, `handle`). -/
def boundSlot (D : Decoder) : Except Fault (Fin Config.nLut) :=
  if h : D.handle.toNat < Config.nLut then .ok ⟨D.handle.toNat, h⟩ else .error .noSuchSlot

/-- `def(h)`, that is `REG[lut[h].variant]` (R11). -/
def slotRow (sl : Slot) : Except Fault TimecodeDef :=
  match variantRow registry sl.variant.toNat with
  | some row => .ok row
  | none => .error .noSuchVariant

/-- `def(d)`, that is `REG[lut[dec[d].handle].variant]` (R11). -/
def bankRow (s : State) (D : Decoder) : Except Fault TimecodeDef :=
  match boundSlot D with
  | .error f => .error f
  | .ok h => slotRow (s.slot h)

/-- Go on with what a read yields, or stop with its fault. -/
def orFault {α : Type} (read : Except Fault α) (k : α → Result) : Result :=
  match read with
  | .error f => .fault f
  | .ok x => k x

/-! ## Levels and counters -/

/-- `v × 2^16`: a PCM value as a level (R5). -/
def levelOf (v : Int) : Int := v * Config.scale

/-- `floor(a × x / 2^16)`: the product of a coefficient and a level, the block's only rounding (R5). -/
def scaledProduct (a : BitVec 17) (x : Int) : Int := (a.toNat : Int) * x / Config.scale

/-- `sat32u(x + 1)` (10_state.md R12, `valid_counter`). -/
def saturatingSucc (x : BitVec 32) : BitVec 32 := if x = BitVec.allOnes 32 then x else x + 1

end Sys2Proof.Machine
end

