-- ==== Sys2Proof/Machine/Lifecycle.lean ====
section
/-! DEFINITION. INIT and CLEAR (spec/45_lifecycle.md R88, R89). -/

namespace Sys2Proof.Machine

/-- A channel tracker after INIT (10_state.md R13). -/
def ChannelState.initial : ChannelState := { zero := 0, positive := false, crossingTicker := 0 }

/-- A bank after INIT to slot `h` (R88; 10_state.md R12). -/
def Decoder.initial (h : Nat) : Decoder where
  live := true
  handle := BitVec.ofNat 8 h
  rateValid := false
  rate := 0
  zeroAlpha := 0
  signalAlpha := 0
  ch0 := ChannelState.initial
  ch1 := ChannelState.initial
  mono := ChannelState.initial
  forwards := true
  wavePeak := 0
  halfPeak := 0
  refLevel := BitVec.ofInt 35 (-1)
  signalLevel := 0
  crossings := 0
  pitchTicker := 0
  crossTicker := 0
  bitstream := 0
  timecode := 0
  validCounter := 0
  timecodeTicker := 0

/-- INIT `d, h` (R88). -/
def execInit (d h : Nat) (s : State) : Result :=
  orRaise (bankIndex d) s fun i =>
    orRaise (checkValid h s) s fun _ =>
      .next (respond statusOk 0 0 (s.setBank i (Decoder.initial h)))

/-- CLEAR `d` (R89). -/
def execClear (d : Nat) (s : State) : Result :=
  orRaise (checkLive d s) s fun i =>
    .next (respond statusOk 0 0 (s.releaseBank i))

end Sys2Proof.Machine
end

