-- ==== Sys2Proof/Machine/Lfsr.lean ====
section
/-! DEFINITION. The LFSR engine (spec/40_lfsr.md R50 to R52): pure functions on non-negative integers. -/

namespace Sys2Proof.Machine

/-- The exclusive-or of the low `n` bits of `x`. -/
def parityBelow : Nat → Nat → Nat
  | 0, _ => 0
  | n + 1, x => (x % 2) ^^^ parityBelow n (x / 2)

/-- `Parity(x)`: the exclusive-or of all bits of `x` (R50). -/
def parity (x : Nat) : Nat := parityBelow (Nat.log2 x + 1) x

/-- `mask_B = 2^B − 1`. -/
def mask (B : Nat) : Nat := 2 ^ B - 1

/-- `Fwd(c, B, t)` (R51): the new bit enters at the most significant end. -/
def fwd (c B t : Nat) : Nat := (c >>> 1) ||| (parity (c &&& (t ||| 1)) <<< (B - 1))

/-- `Rev(c, B, t)` (R52): the new bit enters at the least significant end. -/
def rev (c B t : Nat) : Nat :=
  ((c <<< 1) &&& mask B) ||| parity (c &&& ((t >>> 1) ||| (1 <<< (B - 1))))

/-- The observed bit shifted in while forwards (43_sample.md R75). -/
def shiftForward (s B : Nat) (b : Bool) : Nat := (s >>> 1) ||| (b.toNat <<< (B - 1))

/-- The observed bit shifted in while backwards (43_sample.md R75). -/
def shiftBackward (s B : Nat) (b : Bool) : Nat := ((s <<< 1) &&& mask B) ||| b.toNat

end Sys2Proof.Machine
end

