-- ==== Sys2Proof/Machine/TableBuild.lean ====
section
/-! DEFINITION. `BuildTable` (spec/41_lookup.md R56), the loop as the spec writes it, and a form of it that
compiled code runs instead: sorting all the entries at once. `fillTable_eq_sorted` proves the two equal, so
the loop is the meaning and the other only its speed (log 17). -/

namespace Sys2Proof.Machine

/-- The second loop of `BuildTable` (R56): `k` more entries from `current` on, the first with index `n`;
none is `wrapped`. -/
def fillTable (B taps : Nat) : (k n current : Nat) → Memory → Option Memory
  | 0, _, _, m => some m
  | k + 1, n, current, m =>
    if m.read current = Memory.sentinel then
      fillTable B taps k (n + 1) (fwd current B taps) (m.write current (BitVec.ofNat 32 n))
    else none

/-! ## The sorted form -/

/-- The entries the loop writes, last first, before `acc`. -/
def tableCells (B taps : Nat) : (k n current : Nat) → List (Nat × Word) → List (Nat × Word)
  | 0, _, _, acc => acc
  | k + 1, n, current, acc =>
    tableCells B taps k (n + 1) (fwd current B taps) ((current, BitVec.ofNat 32 n) :: acc)

/-- Addresses strictly rising, in one pass. -/
def rising : Memory → Bool
  | [] => true
  | [_] => true
  | x :: y :: m => decide (x.1 < y.1) && rising (y :: m)

/-- Entries sorted by address; none where an address comes twice. -/
def sortedCells (cells : List (Nat × Word)) : Option Memory :=
  let sorted := cells.mergeSort fun x y => decide (x.1 ≤ y.1)
  if rising sorted then some sorted else none

/-- `fillTable` by sorting, where it starts from the empty memory. -/
def fillTableSorted (B taps k n current : Nat) (m : Memory) : Option Memory :=
  if m.isEmpty && decide (n + k < 2 ^ 32) then sortedCells (tableCells B taps k n current [])
  else fillTable B taps k n current m

theorem rising_iff_pairwise (m : Memory) : rising m = true ↔ m.Pairwise (fun x y => x.1 < y.1) := by
  induction m using rising.induct with
  | case1 => simp [rising]
  | case2 => simp [rising]
  | case3 x y m ih =>
    simp only [rising, Bool.and_eq_true, decide_eq_true_eq, ih, List.pairwise_cons, List.mem_cons]
    constructor
    · rintro ⟨hxy, hy, hm⟩
      exact ⟨fun c hc => hc.elim (fun e => e ▸ hxy) fun hc => hxy.trans (hy c hc), hy, hm⟩
    · rintro ⟨hx, hy, hm⟩
      exact ⟨hx y (.inl rfl), hy, hm⟩

theorem Memory.not_mem_of_read_eq_sentinel {m : Memory} (hm : ∀ c ∈ m, c.2 ≠ Memory.sentinel) {a : Nat}
    (ha : m.read a = Memory.sentinel) : ∀ c ∈ m, c.1 ≠ a := by
  induction m with
  | nil => simp
  | cons c m ih =>
    obtain ⟨b, v⟩ := c
    simp only [Memory.read] at ha
    split at ha
    · exact absurd ha (hm _ (.head _))
    · rintro c hc
      rcases List.mem_cons.mp hc with rfl | hc
      · assumption
      · exact ih (fun c hc => hm c (.tail _ hc)) ha c hc

theorem Memory.exists_mem_of_read_ne_sentinel {m : Memory} {a : Nat} (ha : m.read a ≠ Memory.sentinel) :
    ∃ c ∈ m, c.1 = a := by
  induction m with
  | nil => simp [Memory.read] at ha
  | cons c m ih =>
    obtain ⟨b, v⟩ := c
    simp only [Memory.read] at ha
    split at ha
    · exact ⟨_, .head _, by assumption⟩
    · obtain ⟨c, hc, e⟩ := ih ha
      exact ⟨c, .tail _ hc, e⟩

/-- A new address is added, none is lost. -/
theorem Memory.write_perm {m : Memory} {a : Nat} {v : Word} (hv : v ≠ Memory.sentinel)
    (ha : ∀ c ∈ m, c.1 ≠ a) : (m.write a v).Perm ((a, v) :: m) := by
  induction m with
  | nil => simp [Memory.write, Memory.cell, hv]
  | cons c m ih =>
    obtain ⟨b, x⟩ := c
    simp only [Memory.write, Memory.cell, hv, if_false]
    split
    · exact .refl _
    · split
      · next h => exact absurd h.symm (ha _ (.head _))
      · exact ((ih fun c hc => ha c (.tail _ hc)).cons _).trans (.swap _ _ _)

theorem Memory.mem_write {m : Memory} {a : Nat} {v : Word} {c : Nat × Word} (h : c ∈ m.write a v) :
    (c = (a, v) ∧ v ≠ Memory.sentinel) ∨ c ∈ m := by
  induction m with
  | nil =>
    simp only [Memory.write, Memory.cell] at h
    split at h <;> simp_all
  | cons d m ih =>
    obtain ⟨b, x⟩ := d
    simp only [Memory.write, Memory.cell] at h
    split at h
    · split at h <;> simp_all
    · split at h
      · split at h
        · simp_all
        · rcases List.mem_cons.mp h with rfl | h
          · simp_all
          · exact .inr (List.mem_cons_of_mem _ (by simpa using h))
      · rcases List.mem_cons.mp h with rfl | h
        · exact .inr (.head _)
        · exact (ih h).imp id (.tail _)

/-- A write keeps the canonical form. -/
theorem Memory.write_wf {m : Memory} (hm : m.wf) (a : Nat) (v : Word) : (m.write a v).wf := by
  refine ⟨?_, fun c hc => (Memory.mem_write hc).elim (fun h => by simpa [h.1] using h.2) (hm.2 c)⟩
  have hs := hm.1
  clear hm
  induction m with
  | nil =>
    simp only [Memory.write, Memory.cell]
    split <;> simp
  | cons d m ih =>
    obtain ⟨b, x⟩ := d
    obtain ⟨hb, hs'⟩ := List.pairwise_cons.mp hs
    simp only [Memory.write, Memory.cell]
    split
    · next h =>
      split
      · exact hs
      · refine List.pairwise_cons.mpr ⟨fun c hc => ?_, hs⟩
        rcases List.mem_cons.mp hc with rfl | hc
        · exact h
        · exact h.trans (hb c hc)
    · split
      · next h1 h2 =>
        subst h2
        split
        · exact hs'
        · exact List.pairwise_cons.mpr ⟨hb, hs'⟩
      · next h1 h2 =>
        refine List.pairwise_cons.mpr ⟨fun c hc => ?_, ih hs'⟩
        rcases Memory.mem_write hc with ⟨rfl, _⟩ | hc
        · show b < a
          omega
        · exact hb c hc

/-- Every entry the loop writes, before `acc`, has an index of its range and so is no sentinel. -/
theorem tableCells_ne_sentinel {B taps k n current : Nat} {acc : List (Nat × Word)}
    (hk : n + k < 2 ^ 32) (hacc : ∀ c ∈ acc, c.2 ≠ Memory.sentinel) :
    ∀ c ∈ tableCells B taps k n current acc, c.2 ≠ Memory.sentinel := by
  induction k generalizing n current acc with
  | zero => simpa [tableCells] using hacc
  | succ k ih =>
    refine ih (by omega) fun c hc => ?_
    rcases List.mem_cons.mp hc with rfl | hc
    · intro h
      have := congrArg BitVec.toNat h
      simp [Memory.sentinel] at this
      omega
    · exact hacc c hc

/-- What the loop answers: a canonical memory of the cells it wrote, or `none` with an address twice. -/
theorem fillTable_cells {B taps k n current : Nat} {m : Memory} {acc : List (Nat × Word)}
    (hk : n + k < 2 ^ 32) (hm : m.wf) (hp : m.Perm acc) :
    match fillTable B taps k n current m with
    | some m' => m'.wf ∧ m'.Perm (tableCells B taps k n current acc)
    | none => ¬ ((tableCells B taps k n current acc).map (·.1)).Nodup := by
  have keys : ∀ (k n current : Nat) (acc : List (Nat × Word)), ∃ l, tableCells B taps k n current acc = l ++ acc := by
    intro k
    induction k with
    | zero => exact fun _ _ acc => ⟨[], rfl⟩
    | succ k ih =>
      intro n current acc
      obtain ⟨l, hl⟩ := ih (n + 1) (fwd current B taps) ((current, BitVec.ofNat 32 n) :: acc)
      exact ⟨l ++ [(current, BitVec.ofNat 32 n)], by simp [tableCells, hl]⟩
  induction k generalizing n current m acc with
  | zero => exact ⟨hm, by simpa [tableCells] using hp⟩
  | succ k ih =>
    simp only [fillTable, tableCells]
    have hv : BitVec.ofNat 32 n ≠ Memory.sentinel := by
      intro h
      have := congrArg BitVec.toNat h
      simp [Memory.sentinel] at this
      omega
    by_cases ha : m.read current = Memory.sentinel
    · rw [if_pos ha]
      exact ih (by omega) (Memory.write_wf hm _ _)
        ((Memory.write_perm hv (Memory.not_mem_of_read_eq_sentinel hm.2 ha)).trans (hp.cons _))
    · rw [if_neg ha]
      obtain ⟨c, hc, rfl⟩ := Memory.exists_mem_of_read_ne_sentinel ha
      obtain ⟨l, hl⟩ := keys k (n + 1) (fwd c.1 B taps) ((c.1, BitVec.ofNat 32 n) :: acc)
      rw [hl]
      intro hn
      have h2 := (List.nodup_append.mp (by simpa only [List.map_append] using hn)).2.1
      exact (List.nodup_cons.mp h2).1 (List.mem_map.mpr ⟨c, hp.mem_iff.mp hc, rfl⟩)

/-- The loop and the sorted form are the same function. -/
@[csimp] theorem fillTable_eq_sorted : @fillTable = @fillTableSorted := by
  funext B taps k n current m
  unfold fillTableSorted
  split
  · next h =>
    simp only [Bool.and_eq_true, List.isEmpty_iff, decide_eq_true_eq] at h
    obtain ⟨rfl, hk⟩ := h
    have spec := fillTable_cells (B := B) (taps := taps) (current := current) hk
      (m := []) (acc := []) ⟨.nil, by simp⟩ (.refl _)
    have hsort := List.mergeSort_perm (tableCells B taps k n current []) fun x y => decide (x.1 ≤ y.1)
    unfold sortedCells
    split at spec
    · next m' hm' =>
      obtain ⟨hwf, hp⟩ := spec
      have hnd : ((tableCells B taps k n current []).mergeSort fun x y => decide (x.1 ≤ y.1)).Pairwise
          (fun x y => x.1 ≠ y.1) := by
        refine (List.Perm.pairwise_iff (fun h => Ne.symm h) (hp.trans hsort.symm)).mp ?_
        exact hwf.1.imp fun h => Nat.ne_of_lt h
      have hle := List.pairwise_mergeSort (le := fun (x y : Nat × Word) => decide (x.1 ≤ y.1))
        (by simpa using fun a b c => Nat.le_trans) (by simpa using fun a b => Nat.le_total a b)
        (tableCells B taps k n current [])
      have hlt := hle.imp₂ (fun x y (h1 : decide (x.1 ≤ y.1) = true) (h2 : x.1 ≠ y.1) =>
        Nat.lt_of_le_of_ne (of_decide_eq_true h1) h2) hnd
      rw [hm', if_pos ((rising_iff_pairwise _).mpr hlt)]
      refine congrArg some ((hp.trans hsort.symm).eq_of_pairwise (le := fun x y => x.1 < y.1) ?_ hwf.1 hlt)
      intro a b _ _ h1 h2
      exact absurd h1 (Nat.lt_asymm h2)
    · next hm' =>
      rw [hm', if_neg]
      intro hr
      refine spec ((hsort.map (·.1)).nodup_iff.mp ?_)
      rw [List.Nodup, List.pairwise_map]
      exact ((rising_iff_pairwise _).mp hr).imp fun h => Nat.ne_of_lt h
  · rfl

/-- `BuildTable(h, def)` over the slot's memory (R56); none is `wrapped`. Words at or above `2^(B+1)` stay as
they were: DEDUCED (log 20). -/
def buildTable (m : Memory) (row : TimecodeDef) : Option Memory :=
  fillTable row.bits row.taps row.length 0 row.seed (m.clearBelow (2 ^ (row.bits + 1)))

end Sys2Proof.Machine
end

