-- ==== Sys2Proof/Machine/Lookup.lean ====
section
/-! DEFINITION. BUILD_LOOKUP and FREE_LOOKUP (spec/41_lookup.md R57, R58) and the read side (R59). -/

namespace Sys2Proof.Machine

/-- The slot BUILD_LOOKUP may build into: it exists and holds no table (R57). -/
def checkVacant (h : Nat) (s : State) : Except ErrorCode (Fin Config.nLut) :=
  match slotIndex h with
  | .error e => .error e
  | .ok i => if (s.slot i).valid then .error .busy else .ok i

/-- The row BUILD_LOOKUP builds: it is in the registry and its table fits the memory (R57). -/
def checkBuildable (rows : List TimecodeDef) (depth variant : Nat) : Except ErrorCode TimecodeDef :=
  match variantRow rows variant with
  | none => .error .unknownVariant
  | some row => if 2 ^ (row.bits + 1) > depth then .error .outOfMemory else .ok row

/-- The end of BUILD_LOOKUP (R57): on `wrapped` the memory is unspecified and the slot stays invalid. -/
def finishBuild (i : Fin Config.nLut) (variant : Nat) (built : Option Memory) (s : State) : State :=
  match built with
  | none => raise .lfsrWrapped (s.scrambleMemory i)
  | some m =>
    respond statusOk 0 0
      (s.setSlot i { valid := true, variant := BitVec.ofNat 3 variant, mem := m })

/-- BUILD_LOOKUP over a registry and a memory depth, which R57 lets a model take as parameters. -/
def buildLookupFrom (rows : List TimecodeDef) (depth h variant : Nat) (s : State) : Result :=
  orRaise (checkVacant h s) s fun i =>
    orRaise (checkBuildable rows depth variant) s fun row =>
      .next (finishBuild i variant (buildTable (s.slot i).mem row) s)

/-- BUILD_LOOKUP `h, variant` (R57). -/
def execBuildLookup (h variant : Nat) (s : State) : Result :=
  buildLookupFrom registry Config.lutDepth h variant s

/-- `exists d < N_DEC with dec[d].live == 1 and dec[d].handle == h` (R58). -/
def slotInUse (s : State) (h : Nat) : Bool :=
  s.dec.toList.any fun D => D.live && D.handle.toNat == h

/-- FREE_LOOKUP `h` (R58). -/
def execFreeLookup (h : Nat) (s : State) : Result :=
  orRaise (checkValid h s) s fun i =>
    if slotInUse s h then .next (raise .busy s)
    else .next (respond statusOk 0 0 (s.releaseSlot i))

/-- `Lookup(h, s)` (R59): the entry, none for the sentinel. -/
def lookup (m : Memory) (state : Nat) : Option Word :=
  if m.read state = Memory.sentinel then none else some (m.read state)

end Sys2Proof.Machine
end

