-- ==== Sys2Proof/Machine/Queries.lean ====
section
/-! DEFINITION. The query commands (spec/44_queries.md R80, R82, R84 to R87). -/

namespace Sys2Proof.Machine

/-- The answer of GET_POSITION from the slot's memory (R80). -/
def positionAnswer (D : Decoder) (m : Memory) (s : State) : State :=
  match lookup m D.bitstream.toNat with
  | none => respond statusNone 0 0 s
  | some e => respond statusOk e D.timecodeTicker s

/-- GET_POSITION `d` (R80). -/
def execGetPosition (d : Nat) (s : State) : Result :=
  orRaise (checkLive d s) s fun i =>
    if (s.bank i).validCounter.toNat ≤ Config.validBits then .next (respond statusNone 0 0 s)
    else orFault (boundSlot (s.bank i)) fun h =>
      .next (positionAnswer (s.bank i) (s.slot h).mem s)

/-- The accumulators after a pitch read (R82). -/
def Decoder.pitchRead (D : Decoder) : Decoder := { D with crossings := 0, pitchTicker := 0 }

/-- GET_PITCH `d` (R82). On `NONE` nothing is written. -/
def execGetPitch (d : Nat) (s : State) : Result :=
  orRaise (checkLive d s) s fun i =>
    if (s.bank i).crossings = 0 then .next (respond statusNone 0 0 s)
    else .next (respond statusOk (s.bank i).crossings (s.bank i).pitchTicker
      (s.setBank i (s.bank i).pitchRead))

/-- The signal is present (R84). -/
def signalPresent (D : Decoder) : Bool := decide (D.signalLevel.toNat ≥ Config.signalThreshold)

/-- GET_ALIVE `d` (R84). -/
def execGetAlive (d : Nat) (s : State) : Result :=
  orRaise (checkLive d s) s fun i =>
    .next (respond statusOk (if signalPresent (s.bank i) then 1 else 0) 0 s)

/-- GET_SAFE `d` (R85). -/
def execGetSafe (d : Nat) (s : State) : Result :=
  orRaise (checkLive d s) s fun i =>
    orFault (bankRow s (s.bank i)) fun row =>
      .next (respond statusOk (BitVec.ofNat 32 row.safe) 0 s)

/-- GET_RESOLUTION `d` (R86). -/
def execGetResolution (d : Nat) (s : State) : Result :=
  orRaise (checkLive d s) s fun i =>
    orFault (bankRow s (s.bank i)) fun row =>
      .next (respond statusOk (BitVec.ofNat 32 row.resolution) 0 s)

/-- GET_STATUS (R87): `data0[8:0] = err_flags`. -/
def execGetStatus (s : State) : Result :=
  .next (respond statusOk (s.errFlags.setWidth 32) 0 s)

end Sys2Proof.Machine
end

