-- ==== Sys2Proof/Machine/Tracker.lean ====
section
/-! DEFINITION. The channel tracker, the filter coefficients and RATE (spec/42_tracker_and_rate.md R64, R66, R67). -/

namespace Sys2Proof.Machine

/-- The new DC estimate (R64 step 3): `zero + floor(a × (vq − zero) / 2^16)`. -/
def trackedZero (zero vq : Int) (a : BitVec 17) : Int := zero + scaledProduct a (vq - zero)

/-- `ChannelStep(ch, v, a)` (R64): the new tracker, and whether a crossing is reported. The comparison uses
`zero` as it was before this sample's update. -/
def channelStep (ch : ChannelState) (v : Int) (a : BitVec 17) : ChannelState × Bool :=
  let zero := ch.zero.toInt
  let up := crossesUp zero (levelOf v) ch.positive
  let down := crossesDown zero (levelOf v) ch.positive
  ({ zero := BitVec.ofInt 33 (trackedZero zero (levelOf v) a)
     positive := if up then true else if down then false else ch.positive
     crossingTicker := if up || down then 0 else ch.crossingTicker + 1 },
   up || down)

/-- `zero_alpha` of `Coeff(rate)` (R66). -/
def zeroCoeff (rate : Nat) : Nat := 65536 * Config.zeroRate / (rate + Config.zeroRate)

/-- `signal_alpha` of `Coeff(rate)` (R66). -/
def signalCoeff (rate : Nat) : Nat := 65536 * Config.signalRate / (rate + Config.signalRate)

/-- The registers RATE writes (R67). -/
def Decoder.withRate (D : Decoder) (rate : Nat) : Decoder :=
  { D with
    rate := BitVec.ofNat 32 rate
    zeroAlpha := BitVec.ofNat 17 (zeroCoeff rate)
    signalAlpha := BitVec.ofNat 17 (signalCoeff rate)
    rateValid := true }

/-- RATE `d, rate` (R67). -/
def execRate (d rate : Nat) (s : State) : Result :=
  orRaise (checkLive d s) s fun i =>
    .next (respond statusOk 0 0 (s.setBank i ((s.bank i).withRate rate)))

end Sys2Proof.Machine
end

