-- ==== Sys2Proof/Machine/Sample.lean ====
section
/-! DEFINITION. SAMPLE, the wave/bit state machine (spec/43_sample.md R70 to R78), its parts in the order they
execute. -/

namespace Sys2Proof.Machine

/-! ## Parts executed on every sample -/

/-- The three `ChannelStep`s of R70; `mono` takes the sum `left + right`. -/
def Decoder.track (D : Decoder) (left right : Int) : Decoder :=
  { D with
    ch0 := (channelStep D.ch0 left D.zeroAlpha).1
    ch1 := (channelStep D.ch1 right D.zeroAlpha).1
    mono := (channelStep D.mono (left + right) D.zeroAlpha).1 }

/-- `swapped`: the mono tracker reports a crossing (R70). -/
def Decoder.swapped (D : Decoder) (left right : Int) : Bool :=
  (channelStep D.mono (left + right) D.zeroAlpha).2

/-- `w = | g × 2^16 − mono.zero |` (R71). -/
def amplitude (g : Int) (zero : BitVec 33) : Nat := (levelOf g - zero.toInt).natAbs

/-- The low-pass of R71: `level + floor(alpha × (w − level) / 2^16)`. -/
def smoothed (level : BitVec 33) (w : Nat) (alpha : BitVec 17) : Int :=
  (level.toNat : Int) + scaledProduct alpha ((w : Int) - level.toNat)

/-- `ContinuousUpdate(D, g)` (R71), with `mono.zero` as the tracker has just left it. -/
def Decoder.continuousUpdate (D : Decoder) (g : Int) : Decoder :=
  { D with
    wavePeak := BitVec.ofNat 33 (max D.wavePeak.toNat (amplitude g D.mono.zero))
    signalLevel := BitVec.ofInt 33 (smoothed D.signalLevel (amplitude g D.mono.zero) D.signalAlpha) }

/-- `TickerIncrement(D)` (R72); both wrap. -/
def Decoder.tickerIncrement (D : Decoder) : Decoder :=
  { D with
    crossTicker := D.crossTicker + 1
    timecodeTicker := D.timecodeTicker + 1 }

/-- The parts every sample executes, in the order of R70. -/
def Decoder.everySample (D : Decoder) (left right : Int) : Decoder :=
  ((D.track left right).continuousUpdate (left + right)).tickerIncrement

/-! ## Parts executed on a mono crossing -/

/-- `half_peak <- wave_peak`, the half-cycle crossing (R70, R73). -/
def Decoder.saveHalfPeak (D : Decoder) : Decoder := { D with halfPeak := D.wavePeak }

/-- `ShiftAndPredict(D, b)` (R75). -/
def Decoder.shiftAndPredict (D : Decoder) (row : TimecodeDef) (b : Bool) : Decoder :=
  { D with
    timecode := BitVec.ofNat 23
      (if D.forwards then fwd D.timecode.toNat row.bits row.taps
       else rev D.timecode.toNat row.bits row.taps)
    bitstream := BitVec.ofNat 23
      (if D.forwards then shiftForward D.bitstream.toNat row.bits b
       else shiftBackward D.bitstream.toNat row.bits b) }

/-- `Validate(D)` (R76). -/
def Decoder.validate (D : Decoder) : Decoder :=
  { D with
    timecode := D.bitstream
    validCounter := if D.timecode = D.bitstream then saturatingSucc D.validCounter else 0
    timecodeTicker := 0 }

/-- The reference level after a full cycle (R78). -/
def adaptedRef (refLevel : Int) (s : Int) : Int :=
  if refLevel = -1 then s else (refLevel * (Config.refPeaksAvg - 1) + s) / Config.refPeaksAvg

/-- `RefAdapt(D)` (R78). -/
def Decoder.refAdapt (D : Decoder) : Decoder :=
  { D with
    refLevel := BitVec.ofInt 35
      (adaptedRef D.refLevel.toInt ((D.halfPeak.toNat : Int) + D.wavePeak.toNat)) }

/-- `DirectionAndPitch(D)` (R77). The `± 1` uses the new `forwards`; both counters wrap. -/
def Decoder.directionAndPitch (D : Decoder) : Decoder :=
  { D with
    forwards := directionForwards D.ch0.crossingTicker D.ch1.crossingTicker
    crossings :=
      if directionForwards D.ch0.crossingTicker D.ch1.crossingTicker then D.crossings + 1
      else D.crossings - 1
    pitchTicker := D.pitchTicker + D.crossTicker
    crossTicker := 0
    wavePeak := 0 }

/-- The full-cycle crossing: a bit is emitted (R70, R74 to R76, R78). -/
def Decoder.emitBit (D : Decoder) (row : TimecodeDef) : Decoder :=
  ((D.shiftAndPredict row (bitDecision D.wavePeak D.halfPeak D.refLevel)).validate).refAdapt

/-- The crossing actions of R70. -/
def Decoder.crossing (D : Decoder) (row : TimecodeDef) : Decoder :=
  (if isHalfCycle D.mono.positive row.polarity D.forwards then D.saveHalfPeak
   else D.emitBit row).directionAndPitch

/-- SAMPLE `d, left, right` (R70). `def(d)` is read at a mono crossing only. -/
def execSample (d : Nat) (left right : Int) (s : State) : Result :=
  orRaise (checkLive d s) s fun i =>
    if (s.bank i).rateValid then
      if (s.bank i).swapped left right then
        orFault (bankRow s (s.bank i)) fun row =>
          .next (respond statusOk 0 0
            (s.setBank i (((s.bank i).everySample left right).crossing row)))
      else .next (respond statusOk 0 0 (s.setBank i ((s.bank i).everySample left right)))
    else .next (raise .noRate s)

end Sys2Proof.Machine
end

