-- ==== Sys2Proof/Machine/Dispatch.lean ====
section
/-! DEFINITION. One arm per command (spec/30_encoding.md R44). -/

namespace Sys2Proof.Machine

def exec (i : Instr) (s : State) : Host.Outcome State Fault Refusal :=
  match i with
  | .buildLookup h variant => Sys2Proof.Machine.execBuildLookup h variant s
  | .freeLookup h => Sys2Proof.Machine.execFreeLookup h s
  | .init d h => Sys2Proof.Machine.execInit d h s
  | .clear d => Sys2Proof.Machine.execClear d s
  | .rate d rate => Sys2Proof.Machine.execRate d rate s
  | .sample d left right => Sys2Proof.Machine.execSample d left right s
  | .getPitch d => Sys2Proof.Machine.execGetPitch d s
  | .getPosition d => Sys2Proof.Machine.execGetPosition d s
  | .getAlive d => Sys2Proof.Machine.execGetAlive d s
  | .getSafe d => Sys2Proof.Machine.execGetSafe d s
  | .getResolution d => Sys2Proof.Machine.execGetResolution d s
  | .getStatus => Sys2Proof.Machine.execGetStatus s

end Sys2Proof.Machine
end

