-- ==== Sys2Proof/Machine/Step.lean ====
section
/-! DEFINITION. One step: the command sequencer takes the host's next input (spec/00_scope.md R4, R6). -/

namespace Sys2Proof.Machine

/-- Take the next input. A legal word runs its command; an illegal word raises `ERR_ILLEGAL`
(60_exceptions.md R103); reset is R120; with no input the block keeps its state (R112; log 3). -/
def step (s : State) : Host.Outcome State Fault Refusal :=
  match s.port with
  | [] => .next s
  | .reset :: rest => .next (hardwareReset { s with port := rest })
  | .command w :: rest =>
    match decode w with
    | .ok i => exec i { s with port := rest }
    | .error _ => .next (raise .illegal { s with port := rest })

/-- The command word made of the low `nbits` bits of `w` is the host's next input (log 2). -/
def State.withFetchWord (s : State) (nbits w : Nat) : State :=
  { s with port := .command (BitVec.ofNat 64 (w % 2 ^ nbits)) :: s.port }

end Sys2Proof.Machine
end

