-- ==== Sys2Proof/Machine/Assembler.lean ====
section
/-! DEFINITION. The pseudo-commands and the assembler syntax (spec/30_encoding.md R46, R47), and a list of
commands run in order (spec/00_scope.md R6). Points of the syntax that R46 leaves open: log 19. -/

namespace Sys2Proof.Machine

/-! ## Pseudo-commands -/

/-- A line's meaning: a command, or a pseudo-command of R47. -/
inductive Pseudo where
  | command (i : Instr)
  | submit (d rate : Nat) (frames : List (Int × Int))
  | buildNamed (h : Nat) (name : String)
  deriving DecidableEq, Repr

/-- The id whose registry name is `name`, `0xFFFFFFFF` for a name not in the registry (R47). -/
def variantOfName (name : String) : Nat :=
  match registry.findIdx? fun row => row.name == name with
  | some v => v
  | none => 0xFFFFFFFF

/-- The commands of `SUBMIT d, rate, frames`: one RATE, then one SAMPLE per frame (R47; 43_sample.md R79). -/
def submitCommands (d rate : Nat) (frames : List (Int × Int)) : List Instr :=
  .rate d rate :: frames.map fun f => .sample d f.1 f.2

/-- The expansions of R47. -/
def Pseudo.expand : Pseudo → List Instr
  | .command i => [i]
  | .submit d r frames => submitCommands d r frames
  | .buildNamed h name => [.buildLookup h (variantOfName name)]

/-- Commands executed in list order, up to the first that stops (00_scope.md R6). -/
def execAll : List Instr → State → Result
  | [], s => .next s
  | i :: is, s =>
    match exec i s with
    | .next t => execAll is t
    | .fault f => .fault f
    | .refused r => .refused r

/-! ## The text of a line -/

/-- Why a line assembles to nothing. -/
inductive AsmError where
  /-- A character sequence that is no token. -/
  | badToken
  /-- No mnemonic first, or operands not separated by single commas. -/
  | badLine
  /-- A mnemonic R46 and R47 do not list, or operands of another shape than the mnemonic takes. -/
  | badOperands
  /-- An operand outside the range its field carries (R41). -/
  | outOfRange
  deriving DecidableEq, Repr

inductive Token where
  | word (s : String)
  | number (n : Int)
  | text (s : String)
  | comma | opening | closing
  deriving DecidableEq, Repr

inductive Operand where
  | number (n : Int)
  | text (s : String)
  | pair (l r : Int)
  deriving DecidableEq, Repr

/-- The value of a hexadecimal digit. -/
def digitValue (c : Char) : Option Nat :=
  if '0' ≤ c ∧ c ≤ '9' then some (c.toNat - 48)
  else if 'a' ≤ c ∧ c ≤ 'f' then some (c.toNat - 87)
  else if 'A' ≤ c ∧ c ≤ 'F' then some (c.toNat - 55)
  else none

/-- Digits in a base, most significant first, after `acc`. -/
def digitsFrom (base : Nat) : Nat → List Char → Option Nat
  | acc, [] => some acc
  | acc, c :: cs =>
    match digitValue c with
    | none => none
    | some v => if v < base then digitsFrom base (acc * base + v) cs else none

/-- A decimal or `0x` hexadecimal number (R46). Leading zeros are accepted: DESIGN CHOICE (log 19). -/
def unsignedNumber : List Char → Option Nat
  | [] => none
  | '0' :: 'x' :: c :: cs => digitsFrom 16 0 (c :: cs)
  | c :: cs => digitsFrom 10 0 (c :: cs)

/-- A run of characters: a number when it begins with a digit or a minus sign, else a word. DESIGN CHOICE
(log 19): a minus sign may stand before a hexadecimal number too, and the samples of SAMPLE and SUBMIT, which
R46 calls signed decimal, may be written in hexadecimal. -/
def wordToken : List Char → Option Token
  | [] => none
  | '-' :: cs => (unsignedNumber cs).map fun n => .number (-n)
  | c :: cs =>
    if '0' ≤ c ∧ c ≤ '9' then (unsignedNumber (c :: cs)).map fun n => .number n
    else some (.word (String.ofList (c :: cs)))

/-- The pending run of characters, kept reversed, before the tokens that follow it. -/
def flush (run : List Char) (rest : Option (List Token)) : Option (List Token) :=
  if run.isEmpty then rest
  else match wordToken run.reverse, rest with
    | some t, some ts => some (t :: ts)
    | _, _ => none

/-- Tokens of a line up to the comment; `quoted` holds the text of an open quotation, reversed. -/
def tokens : (chars run : List Char) → (quoted : Option (List Char)) → Option (List Token)
  | [], run, none => flush run (some [])
  | [], _, some _ => none
  | c :: cs, run, some q =>
    if c = '"' then (tokens cs run none).map (.text (String.ofList q.reverse) :: ·)
    else tokens cs run (some (c :: q))
  | c :: cs, run, none =>
    if c = ';' then flush run (some [])
    else if c = '"' then flush run (tokens cs [] (some []))
    else if c = ' ' ∨ c = '\t' ∨ c = '\r' then flush run (tokens cs [] none)
    else if c = ',' then flush run ((tokens cs [] none).map (.comma :: ·))
    else if c = '(' then flush run ((tokens cs [] none).map (.opening :: ·))
    else if c = ')' then flush run ((tokens cs [] none).map (.closing :: ·))
    else tokens cs (c :: run) none

/-- Operands separated by commas (R46); a parenthesised pair is one operand of SUBMIT (R47). -/
def operandList : List Token → Option (List Operand)
  | [.number n] => some [.number n]
  | [.text s] => some [.text s]
  | [.opening, .number l, .comma, .number r, .closing] => some [.pair l r]
  | .number n :: .comma :: ts => (operandList ts).map (.number n :: ·)
  | .text s :: .comma :: ts => (operandList ts).map (.text s :: ·)
  | .opening :: .number l :: .comma :: .number r :: .closing :: .comma :: ts =>
    (operandList ts).map (.pair l r :: ·)
  | _ => none

/-- The stereo frames of SUBMIT (R47). -/
def framesOf : List Operand → Option (List (Int × Int))
  | [] => some []
  | .pair l r :: os => (framesOf os).map ((l, r) :: ·)
  | _ => none

/-- A command whose operands fit their fields. -/
def checked (p : Pseudo) : Except AsmError Pseudo :=
  if p.expand.all Instr.wellFormed then .ok p else .error .outOfRange

/-- A line whose unsigned operands are `operands`; a negative one is out of range. -/
def unsigned (operands : List Int) (p : Pseudo) : Except AsmError Pseudo :=
  if operands.all (0 ≤ ·) then checked p else .error .outOfRange

/-- A mnemonic of R46 or R47 with its operands. -/
def lineMeaning (mnemonic : String) (operands : List Operand) : Except AsmError Pseudo :=
  match operands with
  | [] => if mnemonic = "GET_STATUS" then .ok (.command .getStatus) else .error .badOperands
  | [.number a] =>
    if mnemonic = "FREE_LOOKUP" then unsigned [a] (.command (.freeLookup a.toNat))
    else if mnemonic = "CLEAR" then unsigned [a] (.command (.clear a.toNat))
    else if mnemonic = "GET_PITCH" then unsigned [a] (.command (.getPitch a.toNat))
    else if mnemonic = "GET_POSITION" then unsigned [a] (.command (.getPosition a.toNat))
    else if mnemonic = "GET_ALIVE" then unsigned [a] (.command (.getAlive a.toNat))
    else if mnemonic = "GET_SAFE" then unsigned [a] (.command (.getSafe a.toNat))
    else if mnemonic = "GET_RESOLUTION" then unsigned [a] (.command (.getResolution a.toNat))
    else .error .badOperands
  | [.number a, .number b] =>
    if mnemonic = "BUILD_LOOKUP" then unsigned [a, b] (.command (.buildLookup a.toNat b.toNat))
    else if mnemonic = "INIT" then unsigned [a, b] (.command (.init a.toNat b.toNat))
    else if mnemonic = "RATE" then unsigned [a, b] (.command (.rate a.toNat b.toNat))
    else if mnemonic = "SUBMIT" then unsigned [a, b] (.submit a.toNat b.toNat [])
    else .error .badOperands
  | [.number a, .text name] =>
    if mnemonic = "BUILD_LOOKUP" then unsigned [a] (.buildNamed a.toNat name)
    else .error .badOperands
  | [.number a, .number b, .number c] =>
    if mnemonic = "SAMPLE" then
      if 0 ≤ a then checked (.command (.sample a.toNat b c)) else .error .outOfRange
    else .error .badOperands
  | .number a :: .number b :: frames =>
    match framesOf frames with
    | some fs =>
      if mnemonic = "SUBMIT" then unsigned [a, b] (.submit a.toNat b.toNat fs)
      else .error .badOperands
    | none => .error .badOperands
  | _ => .error .badOperands

/-- One line of R46: its commands, none for a line that is only blank or a comment. -/
def assembleLine (line : String) : Except AsmError (List Instr) :=
  match tokens line.toList [] none with
  | none => .error .badToken
  | some [] => .ok []
  | some [.word mnemonic] => (lineMeaning mnemonic []).map Pseudo.expand
  | some (.word mnemonic :: ts) =>
    match operandList ts with
    | none => .error .badLine
    | some operands => (lineMeaning mnemonic operands).map Pseudo.expand
  | some _ => .error .badLine

/-- A program's lines, as the command words the host sends (R46; 00_scope.md R6). -/
def assemble : List String → Except AsmError (List CommandWord)
  | [] => .ok []
  | line :: lines =>
    match assembleLine line, assemble lines with
    | .ok is, .ok ws => .ok (is.map encode ++ ws)
    | .error e, _ => .error e
    | .ok _, .error e => .error e

end Sys2Proof.Machine
end

