-- ==== Sys2Proof/Machine/HostSide.lean ====
section
/-! DEFINITION. What a host computes from responses: the elapsed time and the pitch, exact rationals that the spec
defines and the block does not compute (spec/44_queries.md R81, R83; spec/93_implementation_defined.md U3,
U4). Both are partial: none where the spec says the value is undefined. -/

namespace Sys2Proof.Machine

/-- `ElapsedSeconds = data1 / rate`, defined when `rate > 0` (R81). -/
def elapsedSeconds (data1 rate : Nat) : Option ℚ :=
  if rate = 0 then none else some ((data1 : ℚ) / (rate : ℚ))

/-- `PitchValue = (rate × c) / (p × resolution × 2)`, defined when `p > 0` (R83). -/
def pitchValue (rate : Nat) (c : Int) (p resolution : Nat) : Option ℚ :=
  if p = 0 then none else some (((rate : ℚ) * (c : ℚ)) / ((p : ℚ) * (resolution : ℚ) * 2))

/-- The elapsed time of a GET_POSITION response; none without a position (R80, R81). -/
def elapsedOfResponse (rate : Nat) (r : ResponseWord) : Option ℚ :=
  if responseStatus r = statusOk then elapsedSeconds (responseData1 r).toNat rate else none

/-- The pitch of a GET_PITCH response: `c = sext_32(data0)`, `p = data1`; none without one (R82, R83). -/
def pitchOfResponse (rate resolution : Nat) (r : ResponseWord) : Option ℚ :=
  if responseStatus r = statusOk then
    pitchValue rate (responseData0 r).toInt (responseData1 r).toNat resolution
  else none

end Sys2Proof.Machine
end

