-- ==== Sys2Proof/Safety.lean ====
section
/-! DEFINITION. The terms claims are stated in: what a command may change, what `raise` does, the invariants
of spec/10_state.md R16 to R21, and when two states look alike from the ports. -/

namespace Sys2Proof.Machine

/-! ## Illegal words -/

/-- The word is illegal by the fields of its value (30_encoding.md R40, R45). -/
def IllegalWord (w : CommandWord) : Prop :=
  let op := w.toNat / 2 ^ 56
  let unit := w.toNat / 2 ^ 48 % 256
  let aux := w.toNat / 2 ^ 40 % 256
  let rsv := w.toNat / 2 ^ 32 % 256
  let operand := w.toNat % 2 ^ 32
  op = 0 ∨ 0x0D ≤ op ∨ rsv ≠ 0 ∨ (aux ≠ 0 ∧ op ≠ 0x03) ∨
    (operand ≠ 0 ∧ op ≠ 0x01 ∧ op ≠ 0x05 ∧ op ≠ 0x06) ∨ (unit ≠ 0 ∧ op = 0x0C)

/-! ## What one command does -/

/-- `o` is exactly `raise E` from `s`, for the error with bit `bit` and code `0x10 + bit` (60_exceptions.md
R100, R101). -/
def Raises (o : Result) (s : State) (bit : Nat) : Prop :=
  ∃ t, o = .next t ∧ t.errFlags = s.errFlags ||| 1#9 <<< bit ∧
    t.responses = responseWord (BitVec.ofNat 8 (0x10 + bit)) 0 0 :: s.responses ∧
    t.lut = s.lut ∧ t.dec = s.dec ∧ t.port = s.port ∧ t.bankDraws = s.bankDraws ∧
    t.slotDraws = s.slotDraws

/-- `o` answers `(status, data0, data1)` from `s` and changes no state. -/
def Answers (o : Result) (s : State) (status : Status) (data0 data1 : Word) : Prop :=
  ∃ t, o = .next t ∧ t.responses = responseWord status data0 data1 :: s.responses ∧
    t.errFlags = s.errFlags ∧ t.lut = s.lut ∧ t.dec = s.dec ∧ t.port = s.port ∧
    t.bankDraws = s.bankDraws ∧ t.slotDraws = s.slotDraws

/-- From `s` to `t` nothing but bank `d` and the responses has changed. -/
def OnlyBank (s t : State) (d : Fin Config.nDec) : Prop :=
  (∀ e, e ≠ d → t.bank e = s.bank e ∧ t.bankDraw e = s.bankDraw e) ∧
    t.lut = s.lut ∧ t.errFlags = s.errFlags ∧ t.port = s.port ∧ t.slotDraws = s.slotDraws

/-- From `s` to `t` nothing but slot `h` and the responses has changed. -/
def OnlySlot (s t : State) (h : Fin Config.nLut) : Prop :=
  (∀ k, k ≠ h → t.slot k = s.slot k ∧ t.slotDraw k = s.slotDraw k) ∧
    t.dec = s.dec ∧ t.errFlags = s.errFlags ∧ t.port = s.port ∧ t.bankDraws = s.bankDraws

/-- The decoder a command is addressed to, by its `d` operand. -/
def decoderOf : Instr → Option Nat
  | .buildLookup _ _ => none
  | .freeLookup _ => none
  | .init d _ => some d
  | .clear d => some d
  | .rate d _ => some d
  | .sample d _ _ => some d
  | .getPitch d => some d
  | .getPosition d => some d
  | .getAlive d => some d
  | .getSafe d => some d
  | .getResolution d => some d
  | .getStatus => none

/-! ## Invariants -/

/-- The rows `BuildTable` is defined for (41_lookup.md R56). -/
structure RowInRange (row : TimecodeDef) : Prop where
  bits : 1 ≤ row.bits ∧ row.bits ≤ 23
  seed : row.seed < 2 ^ row.bits
  taps : row.taps < 2 ^ row.bits
  length : row.length < 2 ^ 31

/-- A memory holds the table of a row (10_state.md R19), entries read as signed integers. -/
structure TableFor (row : TimecodeDef) (m : Memory) : Prop where
  /-- Exactly `length` addresses in `[0, 2^B)` have `mem[s] >= 0`. -/
  count : ((Finset.range (2 ^ row.bits)).filter fun a => 0 ≤ (m.read a).toInt).card = row.length
  /-- Their values are `0 .. length-1`, each once. -/
  values : ∀ n, n < row.length → ∃! a, a < 2 ^ row.bits ∧ (m.read a).toInt = n
  /-- `mem[seed] = 0`. -/
  first : 0 < row.length → (m.read row.seed).toInt = 0
  /-- Every other address below `2^(B+1)` holds -1. -/
  rest : ∀ a, a < 2 ^ (row.bits + 1) → (m.read a).toInt ≠ -1 →
    a < 2 ^ row.bits ∧ 0 ≤ (m.read a).toInt ∧ (m.read a).toInt < row.length
  /-- `mem[Fwd(s)] = mem[s] + 1` below the last index. -/
  next : ∀ a, a < 2 ^ row.bits → 0 ≤ (m.read a).toInt → (m.read a).toInt < (row.length : Int) - 1 →
    (m.read (fwd a row.bits row.taps)).toInt = (m.read a).toInt + 1

/-- Every lookup memory is in canonical form and inside `LUT_DEPTH`. -/
def MemoriesCanonical (s : State) : Prop :=
  ∀ h, (s.slot h).mem.wf ∧ ∀ c ∈ (s.slot h).mem, c.1 < Config.lutDepth

/-- Every valid slot holds the table of its variant (10_state.md R19). -/
def SlotsBuilt (s : State) : Prop :=
  ∀ h, (s.slot h).valid = true → ∃ row, slotRow (s.slot h) = .ok row ∧ TableFor row (s.slot h).mem

/-- A valid slot's variant is in the registry, and a live bank is bound to a valid slot (10_state.md R16;
43_sample.md R70 "A live decoder's slot is always valid"). -/
def BanksBound (s : State) : Prop :=
  (∀ h, (s.slot h).valid = true → ∃ row, slotRow (s.slot h) = .ok row) ∧
    ∀ d, (s.bank d).live = true → ∃ h, boundSlot (s.bank d) = .ok h ∧ (s.slot h).valid = true

/-- For every live decoder, `bitstream < 2^B` and `timecode < 2^B` (10_state.md R17). -/
def StreamsInRange (s : State) : Prop :=
  ∀ d row, (s.bank d).live = true → bankRow s (s.bank d) = .ok row →
    (s.bank d).bitstream.toNat < 2 ^ row.bits ∧ (s.bank d).timecode.toNat < 2 ^ row.bits

/-- The bounds of 10_state.md R20 on the three estimates of a bank. -/
def Decoder.zerosInRange (D : Decoder) : Prop :=
  (-65536 * 65536 ≤ D.mono.zero.toInt ∧ D.mono.zero.toInt ≤ 65534 * 65536) ∧
    (-32768 * 65536 ≤ D.ch0.zero.toInt ∧ D.ch0.zero.toInt ≤ 32767 * 65536) ∧
    (-32768 * 65536 ≤ D.ch1.zero.toInt ∧ D.ch1.zero.toInt ≤ 32767 * 65536)

/-- The bounds of 10_state.md R20 on the peaks and averages of a bank. -/
def Decoder.levelsInRange (D : Decoder) : Prop :=
  D.wavePeak.toNat ≤ 131070 * 65536 ∧ D.halfPeak.toNat ≤ 131070 * 65536 ∧
    D.signalLevel.toNat ≤ 131070 * 65536 ∧
    (D.refLevel.toInt = -1 ∨ 0 ≤ D.refLevel.toInt) ∧ D.refLevel.toInt ≤ 262140 * 65536

/-- The coefficients of a bank are at most 1.0 (10_state.md R12). -/
def Decoder.coefficientsInRange (D : Decoder) : Prop :=
  D.zeroAlpha.toNat ≤ 65536 ∧ D.signalAlpha.toNat ≤ 65536

/-- 10_state.md R20 with the range of the coefficients (R12), for every live decoder. -/
def LevelsInRange (s : State) : Prop :=
  ∀ d, (s.bank d).live = true →
    (s.bank d).zerosInRange ∧ (s.bank d).levelsInRange ∧ (s.bank d).coefficientsInRange

/-- The coefficients are functions of `rate` alone (10_state.md R16), once a RATE has been executed. -/
def CoefficientsFollowRate (s : State) : Prop :=
  ∀ d, (s.bank d).live = true → (s.bank d).rateValid = true →
    (s.bank d).zeroAlpha.toNat = zeroCoeff (s.bank d).rate.toNat ∧
      (s.bank d).signalAlpha.toNat = signalCoeff (s.bank d).rate.toNat

/-- Between commands prediction and observation agree in a live bank (10_state.md R21 "After every emitted
bit `timecode = bitstream`"), and its two counters of samples since a mono crossing read the same. -/
def CountersAgree (s : State) : Prop :=
  ∀ d, (s.bank d).live = true →
    (s.bank d).timecode = (s.bank d).bitstream ∧
      (s.bank d).crossTicker = (s.bank d).mono.crossingTicker

/-- A safe state: the next step stops with no fault and no refusal. -/
def Safe (s : State) : Prop := ∃ t, step s = .next t

/-! ## What can be told apart -/

/-- Slots alike: both invalid, or both valid for one variant with one table below `2^(B+1)`
(10_state.md R11: the rest is unspecified). -/
def SlotsAlike (x y : Slot) : Prop :=
  x.valid = y.valid ∧ (x.valid = true → x.variant = y.variant ∧
    ∀ row, slotRow x = .ok row → ∀ a, a < 2 ^ (row.bits + 1) → x.mem.read a = y.mem.read a)

/-- Banks alike: both not live, or both live with the same registers (10_state.md R12). -/
def BanksAlike (x y : Decoder) : Prop := x.live = y.live ∧ (x.live = true → x = y)

/-- States alike in everything the spec specifies. -/
def StatesAlike (s t : State) : Prop :=
  (∀ h, SlotsAlike (s.slot h) (t.slot h)) ∧ (∀ d, BanksAlike (s.bank d) (t.bank d)) ∧
    s.errFlags = t.errFlags ∧ s.port = t.port ∧ s.responses = t.responses

end Sys2Proof.Machine
end

