-- ==== Sys2Proof/Certificates/Slice0/Obligations.lean ====
section
/-! DEFINITION. The statements for the provers. Each docstring names the rule it formalises; OBLIGATIONS.json
lists them. `Raises`, `Answers`, `OnlyBank`, `OnlySlot` and the invariants are in Sys2Proof/Safety.lean. -/

open Sys2Proof Sys2Proof.Machine

/-! ## Encoding and the step -/

/-- The decoder reads back every command the encoder writes (R40, R41, R44, R46). -/
def Obligations.DecodeOfEncodeIsIdentity : Prop :=
  ∀ i : Instr, i.wellFormed = true → decode (encode i) = .ok i

/-- A legal word carries a well-formed command, and only that word encodes it (R40, R41, R46). -/
def Obligations.EncodeOfDecodeIsIdentity : Prop :=
  ∀ (w : CommandWord) (i : Instr), decode w = .ok i → i.wellFormed = true ∧ encode i = w

/-- The words the decoder rejects are those R45 lists, by the fields of the word's value. -/
def Obligations.IllegalWordsAreTheReservedOnes : Prop :=
  ∀ w : CommandWord, (∃ e, decode w = .error e) ↔ IllegalWord w

/-- Decoding is total: an illegal word matches no row of the opcode table, any other exactly one, that of
its command (R44, R48). -/
def Obligations.LegalWordMatchesExactlyOneRow : Prop :=
  ∀ w : CommandWord,
    ((∃ e, decode w = .error e) ∧ ∀ r ∈ opcodeTable, r.selects w = false) ∨
      ∃ i r, decode w = .ok i ∧ r ∈ opcodeTable ∧ r.opcode = i.opcode ∧ r.selects w = true ∧
        ∀ q ∈ opcodeTable, q.selects w = true → q = r

/-- Words the spec decodes (30_encoding.md R46, 95_test_vectors.md section 2.8). -/
def Obligations.ListedWordsDecodeAsListed : Prop :=
  decode 0x0600000000C803E8 = .ok (.sample 0 1000 200) ∧
    decode 0x06010000FA24FE0C = .ok (.sample 1 (-500) (-1500)) ∧
    decode 0x06000000800007FF = .ok (.sample 0 2047 (-32768)) ∧
    decode 0x050000000000AC44 = .ok (.rate 0 44100) ∧
    decode 0x0300010000000000 = .ok (.init 0 1) ∧
    decode 0x01000000FFFFFFFF = .ok (.buildLookup 0 4294967295) ∧
    decode 0x0700000000000005 = .error .unusedNotZero ∧
    decode 0x0400000100000000 = .error .rsvNotZero ∧
    decode 0x0D00000000000000 = .error .badOpcode

/-- When the next input is a word that decodes to `i`, a step is `exec i` with that input taken (R4). -/
def Obligations.StepRunsTheDecodedCommand : Prop :=
  ∀ (s : State) (w : CommandWord) (rest : List HostInput) (i : Instr),
    s.port = .command w :: rest → decode w = .ok i → step s = exec i { s with port := rest }

/-- A word that R45 calls illegal raises `ERR_ILLEGAL`, whatever its other fields say, and changes nothing else
(R101, R103). -/
def Obligations.IllegalWordRaisesIllegal : Prop :=
  ∀ (s : State) (w : CommandWord) (rest : List HostInput),
    s.port = .command w :: rest → IllegalWord w → Raises (step s) { s with port := rest } 0

/-- With no input the block holds its state (R112; the model's choice of what a step is then: log 3). -/
def Obligations.StepWithoutInputKeepsTheState : Prop :=
  ∀ s : State, s.port = [] → step s = .next s

/-- Hardware reset clears `valid`, `live`, `rate_valid` and `err_flags` and answers nothing (R120; that it is
an input in a list is the model's choice: logs 2, 5). -/
def Obligations.HardwareResetClearsTheFlags : Prop :=
  ∀ (s : State) (rest : List HostInput), s.port = .reset :: rest →
    ∃ t, step s = .next t ∧ (∀ h, (t.slot h).valid = false) ∧
      (∀ d, (t.bank d).live = false ∧ (t.bank d).rateValid = false) ∧
      t.errFlags = 0 ∧ t.port = rest ∧ t.responses = s.responses

/-- The state after reset has every flag of R120 clear, and meets the invariants of 10_state.md (its empty
memories are the model's choice: log 7). -/
def Obligations.ResetMeetsTheInvariants : Prop :=
  (∀ h, (State.reset.slot h).valid = false) ∧
    (∀ d, (State.reset.bank d).live = false ∧ (State.reset.bank d).rateValid = false) ∧
    State.reset.errFlags = 0 ∧
    MemoriesCanonical State.reset ∧ SlotsBuilt State.reset ∧ BanksBound State.reset ∧
    StreamsInRange State.reset ∧ LevelsInRange State.reset ∧ CoefficientsFollowRate State.reset ∧
    CountersAgree State.reset

/-! ## The LFSR -/

/-- `Parity(x)` is 1 exactly when `x` has an odd number of one bits (R50). -/
def Obligations.ParityCountsOneBits : Prop :=
  ∀ x : Nat, parity x = ((Finset.range x.size).filter fun k => x.testBit k).card % 2

/-- Range law (R53). -/
def Obligations.LfsrStepsStayInRange : Prop :=
  ∀ B c t : Nat, 1 ≤ B → B ≤ 23 → c < 2 ^ B → t < 2 ^ B → fwd c B t < 2 ^ B ∧ rev c B t < 2 ^ B

/-- Inversion law, for every state, so that `Fwd` is a bijection and every state lies on a cycle (R54). -/
def Obligations.LfsrStepsInvertEachOther : Prop :=
  ∀ B t : Nat, 1 ≤ B → B ≤ 23 → t < 2 ^ B →
    (∀ c, c < 2 ^ B → rev (fwd c B t) B t = c ∧ fwd (rev c B t) B t = c) ∧
      Set.BijOn (fun c => fwd c B t) (Set.Iio (2 ^ B)) (Set.Iio (2 ^ B)) ∧
      ∀ c, c < 2 ^ B → ∃ p, 0 < p ∧ (fun x => fwd x B t)^[p] c = c

/-! ## The lookup memory and its commands -/

/-- A read after a write gives the word written, and every other word is as before (R31, R32). -/
def Obligations.LutReadSeesTheLatestWrite : Prop :=
  ∀ (m : Memory) (a b : Nat) (v : Word), m.wf →
    (m.write a v).read b = if b = a then v else m.read b

/-- The registry's rows are rows `BuildTable` is defined for, and fit `LUT_DEPTH` (R10, R30, R57). -/
def Obligations.RegistryRowsAreInRange : Prop :=
  registry.length = 5 ∧ ∀ row ∈ registry, RowInRange row ∧ 2 ^ (row.bits + 1) ≤ Config.lutDepth ∧
    row.polarity = true ∧ row.safe < row.length

/-- When the builder answers ok, the memory holds the table of R19 (R19, R56). That no word at or above
`2^(B+1)` has changed is the model's deduction from the loops of R56, no rule of the spec: R11 calls those
words not defined (log 20, DEDUCED). -/
def Obligations.BuildTableHoldsTheCycle : Prop :=
  ∀ (m m' : Memory) (row : TimecodeDef), m.wf → RowInRange row → buildTable m row = some m' →
    TableFor row m' ∧ ∀ a, 2 ^ (row.bits + 1) ≤ a → m'.read a = m.read a

/-- The builder answers wrapped exactly when `length` exceeds the period of `seed` (R56). -/
def Obligations.BuildTableWrapsBeyondThePeriod : Prop :=
  ∀ (m : Memory) (row : TimecodeDef), m.wf → RowInRange row →
    (buildTable m row = none ↔
      ∃ p, 0 < p ∧ p < row.length ∧ (fun c => fwd c row.bits row.taps)^[p] row.seed = row.seed)

/-- BUILD_LOOKUP on a vacant slot with an id of the registry answers `(OK, 0, 0)` and leaves the slot valid
with the variant's table; it changes nothing outside the slot (R57). That no word at or above `2^(B+1)` has
changed is the model's deduction, no rule of the spec: R11 calls those words not defined (log 20, DEDUCED). -/
def Obligations.BuildLookupBuildsTheVariant : Prop :=
  ∀ (s : State) (h : Fin Config.nLut) (variant : Nat), MemoriesCanonical s →
    (s.slot h).valid = false → variant < 5 →
    ∃ t row, registry[variant]? = some row ∧ exec (.buildLookup h.val variant) s = .next t ∧
      (t.slot h).valid = true ∧ (t.slot h).variant.toNat = variant ∧ TableFor row (t.slot h).mem ∧
      (∀ a, 2 ^ (row.bits + 1) ≤ a → (t.slot h).mem.read a = (s.slot h).mem.read a) ∧
      t.slotDraw h = s.slotDraw h ∧ t.responses = responseWord 0 0 0 :: s.responses ∧ OnlySlot s t h

/-- The errors of BUILD_LOOKUP that this hardware can raise, in the order tested (R57, R102). -/
def Obligations.BuildLookupRaisesItsErrors : Prop :=
  ∀ (s : State) (h variant : Nat),
    (Config.nLut ≤ h → Raises (exec (.buildLookup h variant) s) s 4) ∧
      ∀ hlt : h < Config.nLut,
        ((s.slot ⟨h, hlt⟩).valid = true → Raises (exec (.buildLookup h variant) s) s 7) ∧
          ((s.slot ⟨h, hlt⟩).valid = false → 5 ≤ variant →
            Raises (exec (.buildLookup h variant) s) s 1)

/-- Over any registry and memory depth: too large a table raises `ERR_OUT_OF_MEMORY`; a wrapped build raises
`ERR_LFSR_WRAPPED`, with `valid` and `variant` unchanged and nothing but the slot's memory lost (R57, R101). -/
def Obligations.BuildLookupRaisesParameterErrors : Prop :=
  ∀ (rows : List TimecodeDef) (depth : Nat) (s : State) (h : Fin Config.nLut) (variant : Nat)
    (row : TimecodeDef), (s.slot h).valid = false → rows[variant]? = some row →
    (depth < 2 ^ (row.bits + 1) → Raises (buildLookupFrom rows depth h.val variant s) s 3) ∧
      (2 ^ (row.bits + 1) ≤ depth → buildTable (s.slot h).mem row = none →
        ∃ t, buildLookupFrom rows depth h.val variant s = .next t ∧
          (t.slot h).valid = (s.slot h).valid ∧ (t.slot h).variant = (s.slot h).variant ∧
          t.errFlags = s.errFlags ||| 1#9 <<< 2 ∧
          t.responses = responseWord 0x12 0 0 :: s.responses ∧
          (∀ k, k ≠ h → t.slot k = s.slot k) ∧ t.dec = s.dec ∧ t.port = s.port)

/-- FREE_LOOKUP: its errors in order, and its effect (R58). -/
def Obligations.FreeLookupInvalidatesTheSlot : Prop :=
  ∀ (s : State) (h : Nat),
    (Config.nLut ≤ h → Raises (exec (.freeLookup h) s) s 4) ∧
      ∀ hlt : h < Config.nLut,
        ((s.slot ⟨h, hlt⟩).valid = false → Raises (exec (.freeLookup h) s) s 6) ∧
          ((s.slot ⟨h, hlt⟩).valid = true →
            ((∃ d, (s.bank d).live = true ∧ (s.bank d).handle.toNat = h) →
              Raises (exec (.freeLookup h) s) s 7) ∧
            ((∀ d, (s.bank d).live = true → (s.bank d).handle.toNat ≠ h) →
              ∃ t, exec (.freeLookup h) s = .next t ∧ (t.slot ⟨h, hlt⟩).valid = false ∧
                t.responses = responseWord 0 0 0 :: s.responses ∧ OnlySlot s t ⟨h, hlt⟩))

/-! ## The lifecycle of a decoder -/

/-- INIT: its errors in order, and every value it leaves (R88; 10_state.md R12, R13). -/
def Obligations.InitSetsTheStartState : Prop :=
  ∀ (s : State) (d h : Nat),
    (Config.nDec ≤ d → Raises (exec (.init d h) s) s 4) ∧
      (d < Config.nDec → Config.nLut ≤ h → Raises (exec (.init d h) s) s 4) ∧
      ∀ (hd : d < Config.nDec) (hh : h < Config.nLut),
        ((s.slot ⟨h, hh⟩).valid = false → Raises (exec (.init d h) s) s 6) ∧
          ((s.slot ⟨h, hh⟩).valid = true →
            ∃ t, exec (.init d h) s = .next t ∧
              t.responses = responseWord 0 0 0 :: s.responses ∧ OnlyBank s t ⟨d, hd⟩ ∧
              t.bankDraws = s.bankDraws ∧
              t.bank ⟨d, hd⟩ =
                { live := true, handle := BitVec.ofNat 8 h, rateValid := false, rate := 0,
                  zeroAlpha := 0, signalAlpha := 0, ch0 := ⟨0, false, 0⟩, ch1 := ⟨0, false, 0⟩,
                  mono := ⟨0, false, 0⟩, forwards := true, wavePeak := 0, halfPeak := 0,
                  refLevel := -1, signalLevel := 0, crossings := 0, pitchTicker := 0,
                  crossTicker := 0, bitstream := 0, timecode := 0, validCounter := 0,
                  timecodeTicker := 0 })

/-- CLEAR: its errors in order; a live bank stops being live, and nothing outside the bank changes (R89). -/
def Obligations.ClearReleasesTheBank : Prop :=
  ∀ (s : State) (d : Nat),
    (Config.nDec ≤ d → Raises (exec (.clear d) s) s 4) ∧
      ∀ hd : d < Config.nDec,
        ((s.bank ⟨d, hd⟩).live = false → Raises (exec (.clear d) s) s 5) ∧
          ((s.bank ⟨d, hd⟩).live = true →
            ∃ t, exec (.clear d) s = .next t ∧ (t.bank ⟨d, hd⟩).live = false ∧
              t.responses = responseWord 0 0 0 :: s.responses ∧ OnlyBank s t ⟨d, hd⟩)

/-! ## RATE -/

/-- The coefficients: the closed form; for `rate > 0` the document's `dt / (RC + dt)` rounded down to a
multiple of `2^-16`; at most 1.0; 1.0 at rate 0; 0 beyond the rates at which the filters freeze (R66). -/
def Obligations.CoefficientsAreTheRoundedFormula : Prop :=
  ∀ rate : Nat,
    zeroCoeff rate = 65536000 / (rate + 1000) ∧ signalCoeff rate = 16384000 / (rate + 250) ∧
      (0 < rate →
        (zeroCoeff rate : ℤ) = ⌊(65536 : ℚ) * ((1 / rate) / (1 / 1000 + 1 / rate))⌋ ∧
          (signalCoeff rate : ℤ) = ⌊(65536 : ℚ) * ((1 / rate) / (1 / 250 + 1 / rate))⌋) ∧
      zeroCoeff rate ≤ 65536 ∧ signalCoeff rate ≤ 65536 ∧
      (rate = 0 → zeroCoeff rate = 65536 ∧ signalCoeff rate = 65536) ∧
      (65535000 < rate → zeroCoeff rate = 0) ∧ (16383750 < rate → signalCoeff rate = 0)

/-- RATE: its errors in order, and its effect; every other register of the bank is unchanged (R67). -/
def Obligations.RateSetsTheCoefficients : Prop :=
  ∀ (s : State) (d rate : Nat), (Instr.rate d rate).wellFormed = true →
    (Config.nDec ≤ d → Raises (exec (.rate d rate) s) s 4) ∧
      ∀ hd : d < Config.nDec,
        ((s.bank ⟨d, hd⟩).live = false → Raises (exec (.rate d rate) s) s 5) ∧
          ((s.bank ⟨d, hd⟩).live = true →
            ∃ t, exec (.rate d rate) s = .next t ∧
              t.responses = responseWord 0 0 0 :: s.responses ∧ OnlyBank s t ⟨d, hd⟩ ∧
              t.bankDraws = s.bankDraws ∧
              (t.bank ⟨d, hd⟩).rate.toNat = rate ∧ (t.bank ⟨d, hd⟩).rateValid = true ∧
              (t.bank ⟨d, hd⟩).zeroAlpha.toNat = 65536000 / (rate + 1000) ∧
              (t.bank ⟨d, hd⟩).signalAlpha.toNat = 16384000 / (rate + 250) ∧
              t.bank ⟨d, hd⟩ =
                { s.bank ⟨d, hd⟩ with
                  rate := (t.bank ⟨d, hd⟩).rate
                  rateValid := true
                  zeroAlpha := (t.bank ⟨d, hd⟩).zeroAlpha
                  signalAlpha := (t.bank ⟨d, hd⟩).signalAlpha })

/-- RATE with the rate already in force changes no state at all (R67). -/
def Obligations.RateInForceChangesNothing : Prop :=
  ∀ (s : State) (d : Fin Config.nDec), CoefficientsFollowRate s → (s.bank d).live = true →
    (s.bank d).rateValid = true →
    Answers (exec (.rate d.val (s.bank d).rate.toNat) s) s 0 0 0

/-! ## SAMPLE -/

/-- `ChannelStep` in exact integers: no width of a register is ever exceeded (R64; 10_state.md R20). -/
def Obligations.ChannelStepIsExact : Prop :=
  ∀ (ch : ChannelState) (v : Int) (a : BitVec 17), -65536 ≤ v → v ≤ 65534 → a.toNat ≤ 65536 →
    let zero := ch.zero.toInt
    let up := v * 65536 ≥ zero + 8388608 ∧ ch.positive = false
    let down := v * 65536 < zero - 8388608 ∧ ch.positive = true
    let after := (channelStep ch v a).1
    ((channelStep ch v a).2 = true ↔ up ∨ down) ∧
      after.zero.toInt = zero + (a.toNat : Int) * (v * 65536 - zero) / 65536 ∧
      (up → after.positive = true ∧ after.crossingTicker = 0) ∧
      (down → after.positive = false ∧ after.crossingTicker = 0) ∧
      (¬ up → ¬ down → after.positive = ch.positive ∧
        after.crossingTicker.toNat = (ch.crossingTicker.toNat + 1) % 2 ^ 32)

/-- The new estimate lies between the old one and the sample, inclusive; below a sample it never passes it,
above one it falls by at least a unit when the coefficient is not 0 (R65 (a), (b)). -/
def Obligations.EstimateMovesTowardsTheSample : Prop :=
  ∀ (ch : ChannelState) (v : Int) (a : BitVec 17), -65536 ≤ v → v ≤ 65534 → a.toNat ≤ 65536 →
    let zero := ch.zero.toInt
    let after := (channelStep ch v a).1.zero.toInt
    (zero ≤ v * 65536 → zero ≤ after ∧ after ≤ v * 65536) ∧
      (v * 65536 < zero → 0 < a.toNat → v * 65536 ≤ after ∧ after ≤ zero - 1) ∧
      (a.toNat = 0 → after = zero) ∧ (a.toNat = 65536 → after = v * 65536)

/-- The errors of SAMPLE, in the order tested (R70, R102). -/
def Obligations.SampleRaisesItsErrors : Prop :=
  ∀ (s : State) (d : Nat) (left right : Int),
    (Config.nDec ≤ d → Raises (exec (.sample d left right) s) s 4) ∧
      ∀ hd : d < Config.nDec,
        ((s.bank ⟨d, hd⟩).live = false → Raises (exec (.sample d left right) s) s 5) ∧
          ((s.bank ⟨d, hd⟩).live = true → (s.bank ⟨d, hd⟩).rateValid = false →
            Raises (exec (.sample d left right) s) s 8)

/-- SAMPLE without a mono crossing: trackers, peak, signal level, the two tickers; all else unchanged
(R70, R71, R72). -/
def Obligations.SampleWithoutCrossing : Prop :=
  ∀ (s : State) (d : Fin Config.nDec) (left right : Int),
    (Instr.sample d.val left right).wellFormed = true → (s.bank d).live = true →
    (s.bank d).rateValid = true → (s.bank d).coefficientsInRange →
    let D := s.bank d
    let mono := (channelStep D.mono (left + right) D.zeroAlpha).1
    let w := ((left + right) * 65536 - mono.zero.toInt).natAbs
    (channelStep D.mono (left + right) D.zeroAlpha).2 = false →
    ∃ t, exec (.sample d.val left right) s = .next t ∧
      t.responses = responseWord 0 0 0 :: s.responses ∧ OnlyBank s t d ∧ t.bankDraws = s.bankDraws ∧
      (t.bank d).wavePeak.toNat = max D.wavePeak.toNat w ∧
      ((t.bank d).signalLevel.toNat : Int) = (D.signalLevel.toNat : Int) +
        (D.signalAlpha.toNat : Int) * ((w : Int) - D.signalLevel.toNat) / 65536 ∧
      t.bank d =
        { D with
          ch0 := (channelStep D.ch0 left D.zeroAlpha).1
          ch1 := (channelStep D.ch1 right D.zeroAlpha).1
          mono := mono
          wavePeak := (t.bank d).wavePeak
          signalLevel := (t.bank d).signalLevel
          crossTicker := D.crossTicker + 1
          timecodeTicker := D.timecodeTicker + 1 }

/-- SAMPLE at a half-cycle crossing: the peak is saved, no bit is emitted, direction and pitch are updated;
all else as without a crossing (R70 to R73, R77). -/
def Obligations.SampleAtHalfCycle : Prop :=
  ∀ (s : State) (d : Fin Config.nDec) (left right : Int) (row : TimecodeDef),
    (Instr.sample d.val left right).wellFormed = true → (s.bank d).live = true →
    (s.bank d).rateValid = true → (s.bank d).coefficientsInRange → bankRow s (s.bank d) = .ok row →
    let D := s.bank d
    let ch0 := (channelStep D.ch0 left D.zeroAlpha).1
    let ch1 := (channelStep D.ch1 right D.zeroAlpha).1
    let mono := (channelStep D.mono (left + right) D.zeroAlpha).1
    let w := ((left + right) * 65536 - mono.zero.toInt).natAbs
    let forwards := decide (ch0.crossingTicker.toNat > ch1.crossingTicker.toNat)
    (channelStep D.mono (left + right) D.zeroAlpha).2 = true →
    mono.positive = (row.polarity ^^ D.forwards) →
    ∃ t, exec (.sample d.val left right) s = .next t ∧
      t.responses = responseWord 0 0 0 :: s.responses ∧ OnlyBank s t d ∧ t.bankDraws = s.bankDraws ∧
      (t.bank d).halfPeak.toNat = max D.wavePeak.toNat w ∧
      ((t.bank d).signalLevel.toNat : Int) = (D.signalLevel.toNat : Int) +
        (D.signalAlpha.toNat : Int) * ((w : Int) - D.signalLevel.toNat) / 65536 ∧
      (t.bank d).pitchTicker.toNat =
        (D.pitchTicker.toNat + (D.crossTicker.toNat + 1) % 2 ^ 32) % 2 ^ 32 ∧
      t.bank d =
        { D with
          ch0 := ch0
          ch1 := ch1
          mono := mono
          signalLevel := (t.bank d).signalLevel
          halfPeak := (t.bank d).halfPeak
          wavePeak := 0
          forwards := forwards
          crossings := if forwards then D.crossings + 1 else D.crossings - 1
          pitchTicker := (t.bank d).pitchTicker
          crossTicker := 0
          timecodeTicker := D.timecodeTicker + 1 }

/-- SAMPLE at a full-cycle crossing: one bit is emitted, shifted in and checked against the prediction, the
reference is adapted, direction and pitch are updated; all else as without a crossing (R70 to R78). -/
def Obligations.SampleAtFullCycle : Prop :=
  ∀ (s : State) (d : Fin Config.nDec) (left right : Int) (row : TimecodeDef),
    (Instr.sample d.val left right).wellFormed = true → (s.bank d).live = true →
    (s.bank d).rateValid = true → (s.bank d).coefficientsInRange → bankRow s (s.bank d) = .ok row →
    let D := s.bank d
    let ch0 := (channelStep D.ch0 left D.zeroAlpha).1
    let ch1 := (channelStep D.ch1 right D.zeroAlpha).1
    let mono := (channelStep D.mono (left + right) D.zeroAlpha).1
    let w := ((left + right) * 65536 - mono.zero.toInt).natAbs
    let peaks : Int := (max D.wavePeak.toNat w : Nat) + D.halfPeak.toNat
    let bit : Nat := if D.refLevel.toInt ≠ -1 ∧ peaks > D.refLevel.toInt then 1 else 0
    let predicted :=
      if D.forwards then fwd D.timecode.toNat row.bits row.taps
      else rev D.timecode.toNat row.bits row.taps
    let observed :=
      if D.forwards then (D.bitstream.toNat >>> 1) ||| (bit <<< (row.bits - 1))
      else ((D.bitstream.toNat <<< 1) % 2 ^ row.bits) ||| bit
    let forwards := decide (ch0.crossingTicker.toNat > ch1.crossingTicker.toNat)
    (channelStep D.mono (left + right) D.zeroAlpha).2 = true →
    mono.positive ≠ (row.polarity ^^ D.forwards) →
    ∃ t, exec (.sample d.val left right) s = .next t ∧
      t.responses = responseWord 0 0 0 :: s.responses ∧ OnlyBank s t d ∧ t.bankDraws = s.bankDraws ∧
      ((t.bank d).signalLevel.toNat : Int) = (D.signalLevel.toNat : Int) +
        (D.signalAlpha.toNat : Int) * ((w : Int) - D.signalLevel.toNat) / 65536 ∧
      (t.bank d).bitstream.toNat = observed ∧
      (t.bank d).validCounter.toNat =
        (if predicted = observed then min (D.validCounter.toNat + 1) (2 ^ 32 - 1) else 0) ∧
      (t.bank d).refLevel.toInt =
        (if D.refLevel.toInt = -1 then peaks else (D.refLevel.toInt * 47 + peaks) / 48) ∧
      (t.bank d).pitchTicker.toNat =
        (D.pitchTicker.toNat + (D.crossTicker.toNat + 1) % 2 ^ 32) % 2 ^ 32 ∧
      t.bank d =
        { D with
          ch0 := ch0
          ch1 := ch1
          mono := mono
          signalLevel := (t.bank d).signalLevel
          wavePeak := 0
          refLevel := (t.bank d).refLevel
          forwards := forwards
          crossings := if forwards then D.crossings + 1 else D.crossings - 1
          pitchTicker := (t.bank d).pitchTicker
          crossTicker := 0
          bitstream := (t.bank d).bitstream
          timecode := (t.bank d).bitstream
          validCounter := (t.bank d).validCounter
          timecodeTicker := 0 }

/-- Whatever the sample, the stream registers and `valid_counter` stay, or a bit was emitted: then
`timecode = bitstream`, and the counter rose by one (or is saturated) or is 0 (R21, R76). -/
def Obligations.ValidCounterRisesByOneOrRestarts : Prop :=
  ∀ (s t : State) (d : Fin Config.nDec) (left right : Int),
    exec (.sample d.val left right) s = .next t →
    ((t.bank d).validCounter = (s.bank d).validCounter ∧
        (t.bank d).bitstream = (s.bank d).bitstream ∧ (t.bank d).timecode = (s.bank d).timecode) ∨
      ((t.bank d).timecode = (t.bank d).bitstream ∧ (t.bank d).timecodeTicker = 0 ∧
        ((t.bank d).validCounter.toNat = min ((s.bank d).validCounter.toNat + 1) (2 ^ 32 - 1) ∨
          (t.bank d).validCounter = 0))

/-- A silent frame on a bank whose estimates and levels are 0 and whose channels are not positive (as after
INIT) reports no crossing, keeps every level 0 and moves only the five tickers (R79). -/
def Obligations.SilenceMovesOnlyTheTickers : Prop :=
  ∀ (s : State) (d : Fin Config.nDec), (s.bank d).live = true → (s.bank d).rateValid = true →
    (∀ ch ∈ [(s.bank d).ch0, (s.bank d).ch1, (s.bank d).mono], ch.zero = 0 ∧ ch.positive = false) →
    (s.bank d).wavePeak = 0 → (s.bank d).signalLevel = 0 →
    ∃ t, exec (.sample d.val 0 0) s = .next t ∧
      t.responses = responseWord 0 0 0 :: s.responses ∧ OnlyBank s t d ∧ t.bankDraws = s.bankDraws ∧
      t.bank d =
        { s.bank d with
          ch0 := ⟨0, false, (s.bank d).ch0.crossingTicker + 1⟩
          ch1 := ⟨0, false, (s.bank d).ch1.crossingTicker + 1⟩
          mono := ⟨0, false, (s.bank d).mono.crossingTicker + 1⟩
          crossTicker := (s.bank d).crossTicker + 1
          timecodeTicker := (s.bank d).timecodeTicker + 1 }

/-- SUBMIT of a buffer in two parts leaves the state that SUBMIT of the whole leaves, every field but the
responses (R79). -/
def Obligations.SplitSubmitEqualsWholeSubmit : Prop :=
  ∀ (s : State) (d : Fin Config.nDec) (rate : Nat) (xs ys : List (Int × Int)),
    BanksBound s → (s.bank d).live = true →
    ∃ a b w, execAll (submitCommands d.val rate xs) s = .next a ∧
      execAll (submitCommands d.val rate ys) a = .next b ∧
      execAll (submitCommands d.val rate (xs ++ ys)) s = .next w ∧
      { b with responses := [] } = { w with responses := [] }

/-! ## The queries -/

/-- GET_POSITION: its errors in order; `NONE` up to 24 validated bits and at a sentinel, else the entry and
the ticker; no state changes (R80). -/
def Obligations.GetPositionAnswersTheEntry : Prop :=
  ∀ (s : State) (d : Nat),
    (Config.nDec ≤ d → Raises (exec (.getPosition d) s) s 4) ∧
      ∀ hd : d < Config.nDec,
        ((s.bank ⟨d, hd⟩).live = false → Raises (exec (.getPosition d) s) s 5) ∧
          ((s.bank ⟨d, hd⟩).live = true →
            ((s.bank ⟨d, hd⟩).validCounter.toNat ≤ 24 → Answers (exec (.getPosition d) s) s 1 0 0) ∧
            ∀ h, boundSlot (s.bank ⟨d, hd⟩) = .ok h → 24 < (s.bank ⟨d, hd⟩).validCounter.toNat →
              (((s.slot h).mem.read (s.bank ⟨d, hd⟩).bitstream.toNat).toInt = -1 →
                Answers (exec (.getPosition d) s) s 1 0 0) ∧
              (((s.slot h).mem.read (s.bank ⟨d, hd⟩).bitstream.toNat).toInt ≠ -1 →
                Answers (exec (.getPosition d) s) s 0
                  ((s.slot h).mem.read (s.bank ⟨d, hd⟩).bitstream.toNat)
                  (s.bank ⟨d, hd⟩).timecodeTicker))

/-- A position that GET_POSITION reports is how many LFSR steps the bank's bitstream is from the seed of the
variant it is bound to, and is below `length` (R18, R19, R59, R80). -/
def Obligations.PositionCountsLfsrSteps : Prop :=
  ∀ (s : State) (d : Fin Config.nDec) (h : Fin Config.nLut) (row : TimecodeDef),
    SlotsBuilt s → BanksBound s → StreamsInRange s → (s.bank d).live = true →
    24 < (s.bank d).validCounter.toNat → boundSlot (s.bank d) = .ok h →
    slotRow (s.slot h) = .ok row →
    ((s.slot h).mem.read (s.bank d).bitstream.toNat).toInt ≠ -1 →
    ∃ n, n < row.length ∧ (fun c => fwd c row.bits row.taps)^[n] row.seed = (s.bank d).bitstream.toNat ∧
      Answers (exec (.getPosition d.val) s) s 0 (BitVec.ofNat 32 n) (s.bank d).timecodeTicker

/-- GET_PITCH: its errors in order; `NONE` at 0 crossings with nothing written, else both accumulators,
which it clears, and nothing else (R82). -/
def Obligations.GetPitchReadsAndClears : Prop :=
  ∀ (s : State) (d : Nat),
    (Config.nDec ≤ d → Raises (exec (.getPitch d) s) s 4) ∧
      ∀ hd : d < Config.nDec,
        ((s.bank ⟨d, hd⟩).live = false → Raises (exec (.getPitch d) s) s 5) ∧
          ((s.bank ⟨d, hd⟩).live = true →
            ((s.bank ⟨d, hd⟩).crossings = 0 → Answers (exec (.getPitch d) s) s 1 0 0) ∧
            ((s.bank ⟨d, hd⟩).crossings ≠ 0 →
              ∃ t, exec (.getPitch d) s = .next t ∧
                t.responses = responseWord 0 (s.bank ⟨d, hd⟩).crossings (s.bank ⟨d, hd⟩).pitchTicker
                  :: s.responses ∧
                OnlyBank s t ⟨d, hd⟩ ∧ t.bankDraws = s.bankDraws ∧
                t.bank ⟨d, hd⟩ = { s.bank ⟨d, hd⟩ with crossings := 0, pitchTicker := 0 }))

/-- GET_ALIVE: its errors in order; 1 exactly when `signal_level >= 256` PCM units (R84). -/
def Obligations.GetAliveComparesTheLevel : Prop :=
  ∀ (s : State) (d : Nat),
    (Config.nDec ≤ d → Raises (exec (.getAlive d) s) s 4) ∧
      ∀ hd : d < Config.nDec,
        ((s.bank ⟨d, hd⟩).live = false → Raises (exec (.getAlive d) s) s 5) ∧
          ((s.bank ⟨d, hd⟩).live = true →
            (256 * 65536 ≤ (s.bank ⟨d, hd⟩).signalLevel.toNat →
              Answers (exec (.getAlive d) s) s 0 1 0) ∧
            ((s.bank ⟨d, hd⟩).signalLevel.toNat < 256 * 65536 →
              Answers (exec (.getAlive d) s) s 0 0 0))

/-- GET_SAFE: its errors in order; the `safe` of the variant the bank is bound to (R85). -/
def Obligations.GetSafeAnswersTheVariant : Prop :=
  ∀ (s : State) (d : Nat),
    (Config.nDec ≤ d → Raises (exec (.getSafe d) s) s 4) ∧
      ∀ hd : d < Config.nDec,
        ((s.bank ⟨d, hd⟩).live = false → Raises (exec (.getSafe d) s) s 5) ∧
          ∀ h row, (s.bank ⟨d, hd⟩).live = true → (s.bank ⟨d, hd⟩).handle.toNat = Fin.val h →
            registry[(s.slot h).variant.toNat]? = some row →
            ∃ v, v.toNat = row.safe ∧ Answers (exec (.getSafe d) s) s 0 v 0

/-- GET_RESOLUTION: its errors in order; the `resolution` of the variant the bank is bound to (R86). -/
def Obligations.GetResolutionAnswersTheVariant : Prop :=
  ∀ (s : State) (d : Nat),
    (Config.nDec ≤ d → Raises (exec (.getResolution d) s) s 4) ∧
      ∀ hd : d < Config.nDec,
        ((s.bank ⟨d, hd⟩).live = false → Raises (exec (.getResolution d) s) s 5) ∧
          ∀ h row, (s.bank ⟨d, hd⟩).live = true → (s.bank ⟨d, hd⟩).handle.toNat = Fin.val h →
            registry[(s.slot h).variant.toNat]? = some row →
            ∃ v, v.toNat = row.resolution ∧ Answers (exec (.getResolution d) s) s 0 v 0

/-- GET_STATUS answers `err_flags` in `data0[8:0]`, does not clear it, and cannot fail (R87). -/
def Obligations.GetStatusAnswersTheFlags : Prop :=
  ∀ s : State, ∃ v, v.toNat = s.errFlags.toNat ∧ Answers (exec .getStatus s) s 0 v 0

/-- The host's quotients of a response: the exact rationals of R81 and R83, none where they are undefined. -/
def Obligations.HostQuotientsAreExact : Prop :=
  ∀ (rate p resolution : Nat) (c : Word) (ticker : Word),
    (∀ data1 : Word, 0 < rate →
      elapsedOfResponse rate (responseWord 0 c data1) = some ((data1.toNat : ℚ) / rate)) ∧
      elapsedOfResponse 0 (responseWord 0 c ticker) = none ∧
      (0 < p → p < 2 ^ 32 →
        pitchOfResponse rate resolution (responseWord 0 c (BitVec.ofNat 32 p)) =
          some ((rate : ℚ) * c.toInt / (p * resolution * 2))) ∧
      pitchOfResponse rate resolution (responseWord 0 c 0) = none ∧
      pitchOfResponse rate resolution (responseWord 1 0 0) = none

/-! ## The whole machine -/

/-- A command that answers emits exactly one response, with a status of R43; only `OK` carries data
(R4, R42, R43). -/
def Obligations.EveryCommandAnswersOnce : Prop :=
  ∀ (s t : State) (w : CommandWord) (rest : List HostInput),
    s.port = .command w :: rest → step s = .next t →
    t.port = rest ∧ ∃ r, t.responses = r :: s.responses ∧
      ((responseStatus r).toNat = 0 ∨ (responseStatus r).toNat = 1 ∨
        (0x10 ≤ (responseStatus r).toNat ∧ (responseStatus r).toNat ≤ 0x18)) ∧
      ((responseStatus r).toNat ≠ 0 → responseData0 r = 0 ∧ responseData1 r = 0)

/-- An error bit once set stays set until hardware reset, and a bit is newly set only with its error's
response (R14, R101). -/
def Obligations.ErrorFlagsAreSticky : Prop :=
  ∀ (s t : State), step s = .next t → (∀ rest, s.port ≠ .reset :: rest) → ∀ i, i < 9 →
    (s.errFlags.getLsbD i = true → t.errFlags.getLsbD i = true) ∧
      (t.errFlags.getLsbD i = true → s.errFlags.getLsbD i = true ∨
        t.responses = responseWord (BitVec.ofNat 8 (0x10 + i)) 0 0 :: s.responses)

/-- `live` is set by INIT alone and cleared by CLEAR and reset alone; `valid` is set by BUILD_LOOKUP alone and
cleared by FREE_LOOKUP and reset alone; in a live bank `rate_valid` is set by RATE alone and cleared by
INIT alone (R15). -/
def Obligations.FlagsChangeOnlyByTheirCommands : Prop :=
  ∀ (s t : State), step s = .next t →
    let takes := fun i => ∃ w rest, s.port = .command w :: rest ∧ decode w = .ok i
    let resets := ∃ rest, s.port = .reset :: rest
    (∀ d, (s.bank d).live = false → (t.bank d).live = true → ∃ h, takes (.init d.val h)) ∧
      (∀ d, (s.bank d).live = true → (t.bank d).live = false → takes (.clear d.val) ∨ resets) ∧
      (∀ h, (s.slot h).valid = false → (t.slot h).valid = true → ∃ v, takes (.buildLookup h.val v)) ∧
      (∀ h, (s.slot h).valid = true → (t.slot h).valid = false → takes (.freeLookup h.val) ∨ resets) ∧
      (∀ d, (s.bank d).live = true → (t.bank d).live = true →
        ((s.bank d).rateValid = false → (t.bank d).rateValid = true → ∃ r, takes (.rate d.val r)) ∧
        ((s.bank d).rateValid = true → (t.bank d).rateValid = false → ∃ h, takes (.init d.val h)))

/-- While a slot is valid neither its memory nor its variant is written (R11, R31). -/
def Obligations.ValidSlotIsImmutable : Prop :=
  ∀ (s t : State) (h : Fin Config.nLut), step s = .next t → (s.slot h).valid = true →
    (t.slot h).valid = true → t.slot h = s.slot h

/-- A command addressed to a decoder writes no other bank and no slot; a slot command writes no bank (R111). -/
def Obligations.CommandWritesOnlyItsUnit : Prop :=
  ∀ (s t : State) (i : Instr), exec i s = .next t →
    (∀ n, decoderOf i = some n →
      t.lut = s.lut ∧ t.slotDraws = s.slotDraws ∧
        ∀ d : Fin Config.nDec, d.val ≠ n → t.bank d = s.bank d ∧ t.bankDraw d = s.bankDraw d) ∧
      (decoderOf i = none → t.dec = s.dec ∧ t.bankDraws = s.bankDraws) ∧ t.port = s.port

/-- Commands addressed to different decoders commute: same final state and the same two responses in either
order (R111). -/
def Obligations.CommandsToDifferentBanksCommute : Prop :=
  ∀ (s : State) (i j : Instr) (m n : Nat), BanksBound s → decoderOf i = some m →
    decoderOf j = some n → m ≠ n →
    ∃ a ab b ba ri rj, exec i s = .next a ∧ exec j a = .next ab ∧ exec j s = .next b ∧
      exec i b = .next ba ∧ ab.responses = rj :: ri :: s.responses ∧
      ba.responses = ri :: rj :: s.responses ∧
      { ab with responses := [] } = { ba with responses := [] }

/-! ## Invariants that every step keeps -/

/-- Every lookup memory stays in canonical form (the model's representation: log 7) and inside `LUT_DEPTH`
(R30, R35). -/
def Obligations.StepKeepsMemoriesCanonical : Prop :=
  ∀ s t : State, MemoriesCanonical s → step s = .next t → MemoriesCanonical t

/-- Every valid slot holds the table of its variant (R19). -/
def Obligations.StepKeepsSlotsBuilt : Prop :=
  ∀ s t : State, MemoriesCanonical s → SlotsBuilt s → step s = .next t → SlotsBuilt t

/-- A live bank stays bound to a valid slot of a registered variant (R16, R70). -/
def Obligations.StepKeepsBanksBound : Prop :=
  ∀ s t : State, BanksBound s → step s = .next t → BanksBound t

/-- `bitstream < 2^B` and `timecode < 2^B` for every live decoder (R17). -/
def Obligations.StepKeepsStreamsInRange : Prop :=
  ∀ s t : State, BanksBound s → StreamsInRange s → step s = .next t → StreamsInRange t

/-- The bounds of R20, for every live decoder. -/
def Obligations.StepKeepsLevelsInRange : Prop :=
  ∀ s t : State, LevelsInRange s → step s = .next t → LevelsInRange t

/-- The coefficients follow the rate (R16), and between commands `timecode = bitstream` (R21) and
`cross_ticker` reads as the mono tracker's. -/
def Obligations.StepKeepsCountersAndCoefficients : Prop :=
  ∀ s t : State, CoefficientsFollowRate s → CountersAgree s → step s = .next t →
    CoefficientsFollowRate t ∧ CountersAgree t

/-- From a state whose live banks are bound no step faults and none refuses: every command answers (R101,
R105). -/
def Obligations.BoundStatesAreSafe : Prop :=
  ∀ s : State, BanksBound s → Safe s

/-- What the spec calls unspecified is never observable: states alike in everything specified step to states
alike (R12, R120; U5, U6). -/
def Obligations.UnspecifiedStateIsUnobservable : Prop :=
  ∀ s t s' : State, MemoriesCanonical s → MemoriesCanonical t → BanksBound s → StreamsInRange s →
    StatesAlike s t → step s = .next s' → ∃ t', step t = .next t' ∧ StatesAlike s' t'

/-- The two stops by name, in states that no run reaches (the model's own, logs 12 and 13): a live bank whose
handle names no slot, and a bound slot whose variant names no row of the registry. -/
def Obligations.UnboundBanksStopByName : Prop :=
  ∀ (s : State) (d : Fin Config.nDec) (left right : Int), (s.bank d).live = true →
    (Config.nLut ≤ (s.bank d).handle.toNat →
      exec (.getSafe d.val) s = .fault .noSuchSlot ∧
        exec (.getResolution d.val) s = .fault .noSuchSlot ∧
        (24 < (s.bank d).validCounter.toNat → exec (.getPosition d.val) s = .fault .noSuchSlot) ∧
        ((s.bank d).rateValid = true →
          (channelStep (s.bank d).mono (left + right) (s.bank d).zeroAlpha).2 = true →
          exec (.sample d.val left right) s = .fault .noSuchSlot)) ∧
      ∀ h : Fin Config.nLut, (s.bank d).handle.toNat = h.val →
        registry[(s.slot h).variant.toNat]? = none →
        exec (.getSafe d.val) s = .fault .noSuchVariant ∧
          exec (.getResolution d.val) s = .fault .noSuchVariant ∧
          ((s.bank d).rateValid = true →
            (channelStep (s.bank d).mono (left + right) (s.bank d).zeroAlpha).2 = true →
            exec (.sample d.val left right) s = .fault .noSuchVariant)
end

