-- ==== Sys2Proof/Laws/State.lean ====
section
/-! SUPPORT. One lemma per field per update of State: what the shared operations of Machine/Ops.lean do to each
field, and to each bank and slot read through its accessor. -/

namespace Sys2Proof.Machine

/-! ## setBank -/

@[simp] theorem State.setBank_lut (s : State) (d : Fin Config.nDec) (x : Decoder) :
    (s.setBank d x).lut = s.lut := rfl
@[simp] theorem State.setBank_dec (s : State) (d : Fin Config.nDec) (x : Decoder) :
    (s.setBank d x).dec = s.dec.set d.val x := rfl
@[simp] theorem State.setBank_errFlags (s : State) (d : Fin Config.nDec) (x : Decoder) :
    (s.setBank d x).errFlags = s.errFlags := rfl
@[simp] theorem State.setBank_port (s : State) (d : Fin Config.nDec) (x : Decoder) :
    (s.setBank d x).port = s.port := rfl
@[simp] theorem State.setBank_responses (s : State) (d : Fin Config.nDec) (x : Decoder) :
    (s.setBank d x).responses = s.responses := rfl
@[simp] theorem State.setBank_bankDraws (s : State) (d : Fin Config.nDec) (x : Decoder) :
    (s.setBank d x).bankDraws = s.bankDraws := rfl
@[simp] theorem State.setBank_slotDraws (s : State) (d : Fin Config.nDec) (x : Decoder) :
    (s.setBank d x).slotDraws = s.slotDraws := rfl

/-! ## setSlot -/

@[simp] theorem State.setSlot_lut (s : State) (h : Fin Config.nLut) (x : Slot) :
    (s.setSlot h x).lut = s.lut.set h.val x := rfl
@[simp] theorem State.setSlot_dec (s : State) (h : Fin Config.nLut) (x : Slot) :
    (s.setSlot h x).dec = s.dec := rfl
@[simp] theorem State.setSlot_errFlags (s : State) (h : Fin Config.nLut) (x : Slot) :
    (s.setSlot h x).errFlags = s.errFlags := rfl
@[simp] theorem State.setSlot_port (s : State) (h : Fin Config.nLut) (x : Slot) :
    (s.setSlot h x).port = s.port := rfl
@[simp] theorem State.setSlot_responses (s : State) (h : Fin Config.nLut) (x : Slot) :
    (s.setSlot h x).responses = s.responses := rfl
@[simp] theorem State.setSlot_bankDraws (s : State) (h : Fin Config.nLut) (x : Slot) :
    (s.setSlot h x).bankDraws = s.bankDraws := rfl
@[simp] theorem State.setSlot_slotDraws (s : State) (h : Fin Config.nLut) (x : Slot) :
    (s.setSlot h x).slotDraws = s.slotDraws := rfl

/-! ## respond -/

@[simp] theorem respond_lut (st : Status) (a b : Word) (s : State) :
    (respond st a b s).lut = s.lut := rfl
@[simp] theorem respond_dec (st : Status) (a b : Word) (s : State) :
    (respond st a b s).dec = s.dec := rfl
@[simp] theorem respond_errFlags (st : Status) (a b : Word) (s : State) :
    (respond st a b s).errFlags = s.errFlags := rfl
@[simp] theorem respond_port (st : Status) (a b : Word) (s : State) :
    (respond st a b s).port = s.port := rfl
@[simp] theorem respond_responses (st : Status) (a b : Word) (s : State) :
    (respond st a b s).responses = responseWord st a b :: s.responses := rfl
@[simp] theorem respond_bankDraws (st : Status) (a b : Word) (s : State) :
    (respond st a b s).bankDraws = s.bankDraws := rfl
@[simp] theorem respond_slotDraws (st : Status) (a b : Word) (s : State) :
    (respond st a b s).slotDraws = s.slotDraws := rfl

/-! ## raise -/

@[simp] theorem raise_lut (e : ErrorCode) (s : State) : (raise e s).lut = s.lut := rfl
@[simp] theorem raise_dec (e : ErrorCode) (s : State) : (raise e s).dec = s.dec := rfl
@[simp] theorem raise_errFlags (e : ErrorCode) (s : State) :
    (raise e s).errFlags = setErrorFlag s.errFlags e := rfl
@[simp] theorem raise_port (e : ErrorCode) (s : State) : (raise e s).port = s.port := rfl
@[simp] theorem raise_responses (e : ErrorCode) (s : State) :
    (raise e s).responses = responseWord e.status 0 0 :: s.responses := rfl
@[simp] theorem raise_bankDraws (e : ErrorCode) (s : State) :
    (raise e s).bankDraws = s.bankDraws := rfl
@[simp] theorem raise_slotDraws (e : ErrorCode) (s : State) :
    (raise e s).slotDraws = s.slotDraws := rfl

/-! ## releaseBank -/

@[simp] theorem State.releaseBank_lut (s : State) (d : Fin Config.nDec) :
    (s.releaseBank d).lut = s.lut := rfl
@[simp] theorem State.releaseBank_dec (s : State) (d : Fin Config.nDec) :
    (s.releaseBank d).dec = s.dec.set d.val (freeDecoder d.val (s.bankDraw d)) := rfl
@[simp] theorem State.releaseBank_errFlags (s : State) (d : Fin Config.nDec) :
    (s.releaseBank d).errFlags = s.errFlags := rfl
@[simp] theorem State.releaseBank_port (s : State) (d : Fin Config.nDec) :
    (s.releaseBank d).port = s.port := rfl
@[simp] theorem State.releaseBank_responses (s : State) (d : Fin Config.nDec) :
    (s.releaseBank d).responses = s.responses := rfl
@[simp] theorem State.releaseBank_bankDraws (s : State) (d : Fin Config.nDec) :
    (s.releaseBank d).bankDraws = s.bankDraws.set d.val (s.bankDraw d + 1) := rfl
@[simp] theorem State.releaseBank_slotDraws (s : State) (d : Fin Config.nDec) :
    (s.releaseBank d).slotDraws = s.slotDraws := rfl

/-! ## releaseSlot -/

@[simp] theorem State.releaseSlot_lut (s : State) (h : Fin Config.nLut) :
    (s.releaseSlot h).lut = s.lut.set h.val (freeSlot h.val (s.slotDraw h)) := rfl
@[simp] theorem State.releaseSlot_dec (s : State) (h : Fin Config.nLut) :
    (s.releaseSlot h).dec = s.dec := rfl
@[simp] theorem State.releaseSlot_errFlags (s : State) (h : Fin Config.nLut) :
    (s.releaseSlot h).errFlags = s.errFlags := rfl
@[simp] theorem State.releaseSlot_port (s : State) (h : Fin Config.nLut) :
    (s.releaseSlot h).port = s.port := rfl
@[simp] theorem State.releaseSlot_responses (s : State) (h : Fin Config.nLut) :
    (s.releaseSlot h).responses = s.responses := rfl
@[simp] theorem State.releaseSlot_bankDraws (s : State) (h : Fin Config.nLut) :
    (s.releaseSlot h).bankDraws = s.bankDraws := rfl
@[simp] theorem State.releaseSlot_slotDraws (s : State) (h : Fin Config.nLut) :
    (s.releaseSlot h).slotDraws = s.slotDraws.set h.val (s.slotDraw h + 1) := rfl

/-! ## scrambleMemory -/

@[simp] theorem State.scrambleMemory_dec (s : State) (h : Fin Config.nLut) :
    (s.scrambleMemory h).dec = s.dec := rfl
@[simp] theorem State.scrambleMemory_errFlags (s : State) (h : Fin Config.nLut) :
    (s.scrambleMemory h).errFlags = s.errFlags := rfl
@[simp] theorem State.scrambleMemory_port (s : State) (h : Fin Config.nLut) :
    (s.scrambleMemory h).port = s.port := rfl
@[simp] theorem State.scrambleMemory_responses (s : State) (h : Fin Config.nLut) :
    (s.scrambleMemory h).responses = s.responses := rfl
@[simp] theorem State.scrambleMemory_bankDraws (s : State) (h : Fin Config.nLut) :
    (s.scrambleMemory h).bankDraws = s.bankDraws := rfl
@[simp] theorem State.scrambleMemory_slotDraws (s : State) (h : Fin Config.nLut) :
    (s.scrambleMemory h).slotDraws = s.slotDraws.set h.val (s.slotDraw h + 1) := rfl

/-! ## hardwareReset -/

@[simp] theorem hardwareReset_errFlags (s : State) : (hardwareReset s).errFlags = 0 := rfl
@[simp] theorem hardwareReset_port (s : State) : (hardwareReset s).port = s.port := rfl
@[simp] theorem hardwareReset_responses (s : State) :
    (hardwareReset s).responses = s.responses := rfl

/-! ## Banks and slots through their accessors -/

@[simp] theorem State.bank_setBank_self (s : State) (d : Fin Config.nDec) (x : Decoder) :
    (s.setBank d x).bank d = x :=
  Vector.getElem_set_self d.isLt

theorem State.bank_setBank_of_ne {s : State} {d e : Fin Config.nDec} (x : Decoder) (h : e ≠ d) :
    (s.setBank d x).bank e = s.bank e :=
  Vector.getElem_set_ne d.isLt e.isLt (Fin.val_ne_of_ne h.symm)

theorem State.bank_setBank (s : State) (d e : Fin Config.nDec) (x : Decoder) :
    (s.setBank d x).bank e = if e = d then x else s.bank e := by
  split
  · next h => rw [h, State.bank_setBank_self]
  · next h => exact State.bank_setBank_of_ne x h

@[simp] theorem State.slot_setSlot_self (s : State) (h : Fin Config.nLut) (x : Slot) :
    (s.setSlot h x).slot h = x :=
  Vector.getElem_set_self h.isLt

theorem State.slot_setSlot_of_ne {s : State} {h k : Fin Config.nLut} (x : Slot) (hk : k ≠ h) :
    (s.setSlot h x).slot k = s.slot k :=
  Vector.getElem_set_ne h.isLt k.isLt (Fin.val_ne_of_ne hk.symm)

theorem State.slot_setSlot (s : State) (h k : Fin Config.nLut) (x : Slot) :
    (s.setSlot h x).slot k = if k = h then x else s.slot k := by
  split
  · next e => rw [e, State.slot_setSlot_self]
  · next e => exact State.slot_setSlot_of_ne x e

theorem State.bank_releaseBank (s : State) (d e : Fin Config.nDec) :
    (s.releaseBank d).bank e = if e = d then freeDecoder d.val (s.bankDraw d) else s.bank e :=
  State.bank_setBank s d e _

theorem State.slot_releaseSlot (s : State) (h k : Fin Config.nLut) :
    (s.releaseSlot h).slot k = if k = h then freeSlot h.val (s.slotDraw h) else s.slot k :=
  State.slot_setSlot s h k _

theorem State.slot_scrambleMemory (s : State) (h k : Fin Config.nLut) :
    (s.scrambleMemory h).slot k =
      if k = h then { s.slot h with mem := freeMemory h.val (s.slotDraw h) } else s.slot k :=
  State.slot_setSlot s h k _

@[simp] theorem bank_hardwareReset (s : State) (d : Fin Config.nDec) :
    (hardwareReset s).bank d = { freeDecoder d.val (s.bankDraw d) with rateValid := false } :=
  Vector.getElem_ofFn d.isLt

@[simp] theorem slot_hardwareReset (s : State) (h : Fin Config.nLut) :
    (hardwareReset s).slot h = freeSlot h.val (s.slotDraw h) :=
  Vector.getElem_ofFn h.isLt

@[simp] theorem State.slot_setBank (s : State) (d : Fin Config.nDec) (x : Decoder) (k : Fin Config.nLut) :
    (s.setBank d x).slot k = s.slot k := rfl
@[simp] theorem State.bankDraw_setBank (s : State) (d : Fin Config.nDec) (x : Decoder) (e : Fin Config.nDec) :
    (s.setBank d x).bankDraw e = s.bankDraw e := rfl
@[simp] theorem State.slotDraw_setBank (s : State) (d : Fin Config.nDec) (x : Decoder) (k : Fin Config.nLut) :
    (s.setBank d x).slotDraw k = s.slotDraw k := rfl
@[simp] theorem State.bank_setSlot (s : State) (h : Fin Config.nLut) (x : Slot) (e : Fin Config.nDec) :
    (s.setSlot h x).bank e = s.bank e := rfl
@[simp] theorem State.bankDraw_setSlot (s : State) (h : Fin Config.nLut) (x : Slot) (e : Fin Config.nDec) :
    (s.setSlot h x).bankDraw e = s.bankDraw e := rfl
@[simp] theorem State.slotDraw_setSlot (s : State) (h : Fin Config.nLut) (x : Slot) (k : Fin Config.nLut) :
    (s.setSlot h x).slotDraw k = s.slotDraw k := rfl
@[simp] theorem bank_respond (st : Status) (a b : Word) (s : State) (e : Fin Config.nDec) :
    (respond st a b s).bank e = s.bank e := rfl
@[simp] theorem slot_respond (st : Status) (a b : Word) (s : State) (k : Fin Config.nLut) :
    (respond st a b s).slot k = s.slot k := rfl
@[simp] theorem bankDraw_respond (st : Status) (a b : Word) (s : State) (e : Fin Config.nDec) :
    (respond st a b s).bankDraw e = s.bankDraw e := rfl
@[simp] theorem slotDraw_respond (st : Status) (a b : Word) (s : State) (k : Fin Config.nLut) :
    (respond st a b s).slotDraw k = s.slotDraw k := rfl
@[simp] theorem bank_raise (e : ErrorCode) (s : State) (d : Fin Config.nDec) :
    (raise e s).bank d = s.bank d := rfl
@[simp] theorem slot_raise (e : ErrorCode) (s : State) (k : Fin Config.nLut) :
    (raise e s).slot k = s.slot k := rfl
@[simp] theorem bankDraw_raise (e : ErrorCode) (s : State) (d : Fin Config.nDec) :
    (raise e s).bankDraw d = s.bankDraw d := rfl
@[simp] theorem slotDraw_raise (e : ErrorCode) (s : State) (k : Fin Config.nLut) :
    (raise e s).slotDraw k = s.slotDraw k := rfl
@[simp] theorem State.slot_releaseBank (s : State) (d : Fin Config.nDec) (k : Fin Config.nLut) :
    (s.releaseBank d).slot k = s.slot k := rfl
@[simp] theorem State.slotDraw_releaseBank (s : State) (d : Fin Config.nDec) (k : Fin Config.nLut) :
    (s.releaseBank d).slotDraw k = s.slotDraw k := rfl
@[simp] theorem State.bank_releaseSlot (s : State) (h : Fin Config.nLut) (e : Fin Config.nDec) :
    (s.releaseSlot h).bank e = s.bank e := rfl
@[simp] theorem State.bankDraw_releaseSlot (s : State) (h : Fin Config.nLut) (e : Fin Config.nDec) :
    (s.releaseSlot h).bankDraw e = s.bankDraw e := rfl
@[simp] theorem State.bank_scrambleMemory (s : State) (h : Fin Config.nLut) (e : Fin Config.nDec) :
    (s.scrambleMemory h).bank e = s.bank e := rfl
@[simp] theorem State.bankDraw_scrambleMemory (s : State) (h : Fin Config.nLut) (e : Fin Config.nDec) :
    (s.scrambleMemory h).bankDraw e = s.bankDraw e := rfl

theorem State.bankDraw_releaseBank_of_ne {s : State} {d e : Fin Config.nDec} (h : e ≠ d) :
    (s.releaseBank d).bankDraw e = s.bankDraw e :=
  Vector.getElem_set_ne d.isLt e.isLt (Fin.val_ne_of_ne h.symm)

theorem State.slotDraw_releaseSlot_of_ne {s : State} {h k : Fin Config.nLut} (e : k ≠ h) :
    (s.releaseSlot h).slotDraw k = s.slotDraw k :=
  Vector.getElem_set_ne h.isLt k.isLt (Fin.val_ne_of_ne e.symm)

/-- Two states with the same fields are the same: banks compared through the accessor. -/
theorem State.dec_ext {s t : State} (h : ∀ d, s.bank d = t.bank d) : s.dec = t.dec :=
  Vector.ext fun i hi => h ⟨i, hi⟩

theorem State.lut_ext {s t : State} (h : ∀ k, s.slot k = t.slot k) : s.lut = t.lut :=
  Vector.ext fun i hi => h ⟨i, hi⟩

/-! ## The free contents -/

@[simp] theorem freeDecoder_live (d draw : Nat) : (freeDecoder d draw).live = false := rfl
@[simp] theorem freeSlot_valid (h draw : Nat) : (freeSlot h draw).valid = false := rfl

/-! ## The response word -/

@[simp] theorem responseStatus_responseWord (st : Status) (a b : Word) :
    responseStatus (responseWord st a b) = st := by
  apply BitVec.eq_of_getLsbD_eq
  intro i hi
  simp only [responseStatus, responseWord, BitVec.getLsbD_extractLsb', BitVec.getLsbD_append]
  simp [hi, show ¬ (64 + i < 32) by omega, show ¬ (64 + i - 32 < 32) by omega,
    show 64 + i - 32 - 32 = i by omega]

@[simp] theorem responseData1_responseWord (st : Status) (a b : Word) :
    responseData1 (responseWord st a b) = b := by
  apply BitVec.eq_of_getLsbD_eq
  intro i hi
  simp only [responseData1, responseWord, BitVec.getLsbD_extractLsb', BitVec.getLsbD_append]
  simp [hi, show ¬ (32 + i < 32) by omega, show 32 + i - 32 = i by omega]

@[simp] theorem responseData0_responseWord (st : Status) (a b : Word) :
    responseData0 (responseWord st a b) = a := by
  apply BitVec.eq_of_getLsbD_eq
  intro i hi
  simp only [responseData0, responseWord, BitVec.getLsbD_extractLsb', BitVec.getLsbD_append]
  simp [hi]

end Sys2Proof.Machine
end

