-- ==== Sys2Proof/Laws/Decoder.lean ====
section
/-! SUPPORT. One lemma per register per part of RATE, SAMPLE and GET_PITCH: what each part writes and what it
leaves (spec/42_tracker_and_rate.md R67, spec/43_sample.md R70 to R78, spec/44_queries.md R82). -/

namespace Sys2Proof.Machine

/-! ## withRate -/

@[simp] theorem Decoder.withRate_live (D : Decoder) (r : Nat) : (D.withRate r).live = D.live := rfl
@[simp] theorem Decoder.withRate_handle (D : Decoder) (r : Nat) :
    (D.withRate r).handle = D.handle := rfl
@[simp] theorem Decoder.withRate_rateValid (D : Decoder) (r : Nat) :
    (D.withRate r).rateValid = true := rfl
@[simp] theorem Decoder.withRate_rate (D : Decoder) (r : Nat) :
    (D.withRate r).rate = BitVec.ofNat 32 r := rfl
@[simp] theorem Decoder.withRate_zeroAlpha (D : Decoder) (r : Nat) :
    (D.withRate r).zeroAlpha = BitVec.ofNat 17 (zeroCoeff r) := rfl
@[simp] theorem Decoder.withRate_signalAlpha (D : Decoder) (r : Nat) :
    (D.withRate r).signalAlpha = BitVec.ofNat 17 (signalCoeff r) := rfl
@[simp] theorem Decoder.withRate_ch0 (D : Decoder) (r : Nat) : (D.withRate r).ch0 = D.ch0 := rfl
@[simp] theorem Decoder.withRate_ch1 (D : Decoder) (r : Nat) : (D.withRate r).ch1 = D.ch1 := rfl
@[simp] theorem Decoder.withRate_mono (D : Decoder) (r : Nat) : (D.withRate r).mono = D.mono := rfl
@[simp] theorem Decoder.withRate_forwards (D : Decoder) (r : Nat) :
    (D.withRate r).forwards = D.forwards := rfl
@[simp] theorem Decoder.withRate_wavePeak (D : Decoder) (r : Nat) :
    (D.withRate r).wavePeak = D.wavePeak := rfl
@[simp] theorem Decoder.withRate_halfPeak (D : Decoder) (r : Nat) :
    (D.withRate r).halfPeak = D.halfPeak := rfl
@[simp] theorem Decoder.withRate_refLevel (D : Decoder) (r : Nat) :
    (D.withRate r).refLevel = D.refLevel := rfl
@[simp] theorem Decoder.withRate_signalLevel (D : Decoder) (r : Nat) :
    (D.withRate r).signalLevel = D.signalLevel := rfl
@[simp] theorem Decoder.withRate_crossings (D : Decoder) (r : Nat) :
    (D.withRate r).crossings = D.crossings := rfl
@[simp] theorem Decoder.withRate_pitchTicker (D : Decoder) (r : Nat) :
    (D.withRate r).pitchTicker = D.pitchTicker := rfl
@[simp] theorem Decoder.withRate_crossTicker (D : Decoder) (r : Nat) :
    (D.withRate r).crossTicker = D.crossTicker := rfl
@[simp] theorem Decoder.withRate_bitstream (D : Decoder) (r : Nat) :
    (D.withRate r).bitstream = D.bitstream := rfl
@[simp] theorem Decoder.withRate_timecode (D : Decoder) (r : Nat) :
    (D.withRate r).timecode = D.timecode := rfl
@[simp] theorem Decoder.withRate_validCounter (D : Decoder) (r : Nat) :
    (D.withRate r).validCounter = D.validCounter := rfl
@[simp] theorem Decoder.withRate_timecodeTicker (D : Decoder) (r : Nat) :
    (D.withRate r).timecodeTicker = D.timecodeTicker := rfl

/-! ## track -/

@[simp] theorem Decoder.track_live (D : Decoder) (l r : Int) : (D.track l r).live = D.live := rfl
@[simp] theorem Decoder.track_handle (D : Decoder) (l r : Int) :
    (D.track l r).handle = D.handle := rfl
@[simp] theorem Decoder.track_rateValid (D : Decoder) (l r : Int) :
    (D.track l r).rateValid = D.rateValid := rfl
@[simp] theorem Decoder.track_rate (D : Decoder) (l r : Int) : (D.track l r).rate = D.rate := rfl
@[simp] theorem Decoder.track_zeroAlpha (D : Decoder) (l r : Int) :
    (D.track l r).zeroAlpha = D.zeroAlpha := rfl
@[simp] theorem Decoder.track_signalAlpha (D : Decoder) (l r : Int) :
    (D.track l r).signalAlpha = D.signalAlpha := rfl
@[simp] theorem Decoder.track_ch0 (D : Decoder) (l r : Int) :
    (D.track l r).ch0 = (channelStep D.ch0 l D.zeroAlpha).1 := rfl
@[simp] theorem Decoder.track_ch1 (D : Decoder) (l r : Int) :
    (D.track l r).ch1 = (channelStep D.ch1 r D.zeroAlpha).1 := rfl
@[simp] theorem Decoder.track_mono (D : Decoder) (l r : Int) :
    (D.track l r).mono = (channelStep D.mono (l + r) D.zeroAlpha).1 := rfl
@[simp] theorem Decoder.track_forwards (D : Decoder) (l r : Int) :
    (D.track l r).forwards = D.forwards := rfl
@[simp] theorem Decoder.track_wavePeak (D : Decoder) (l r : Int) :
    (D.track l r).wavePeak = D.wavePeak := rfl
@[simp] theorem Decoder.track_halfPeak (D : Decoder) (l r : Int) :
    (D.track l r).halfPeak = D.halfPeak := rfl
@[simp] theorem Decoder.track_refLevel (D : Decoder) (l r : Int) :
    (D.track l r).refLevel = D.refLevel := rfl
@[simp] theorem Decoder.track_signalLevel (D : Decoder) (l r : Int) :
    (D.track l r).signalLevel = D.signalLevel := rfl
@[simp] theorem Decoder.track_crossings (D : Decoder) (l r : Int) :
    (D.track l r).crossings = D.crossings := rfl
@[simp] theorem Decoder.track_pitchTicker (D : Decoder) (l r : Int) :
    (D.track l r).pitchTicker = D.pitchTicker := rfl
@[simp] theorem Decoder.track_crossTicker (D : Decoder) (l r : Int) :
    (D.track l r).crossTicker = D.crossTicker := rfl
@[simp] theorem Decoder.track_bitstream (D : Decoder) (l r : Int) :
    (D.track l r).bitstream = D.bitstream := rfl
@[simp] theorem Decoder.track_timecode (D : Decoder) (l r : Int) :
    (D.track l r).timecode = D.timecode := rfl
@[simp] theorem Decoder.track_validCounter (D : Decoder) (l r : Int) :
    (D.track l r).validCounter = D.validCounter := rfl
@[simp] theorem Decoder.track_timecodeTicker (D : Decoder) (l r : Int) :
    (D.track l r).timecodeTicker = D.timecodeTicker := rfl

/-! ## continuousUpdate -/

@[simp] theorem Decoder.continuousUpdate_live (D : Decoder) (g : Int) :
    (D.continuousUpdate g).live = D.live := rfl
@[simp] theorem Decoder.continuousUpdate_handle (D : Decoder) (g : Int) :
    (D.continuousUpdate g).handle = D.handle := rfl
@[simp] theorem Decoder.continuousUpdate_rateValid (D : Decoder) (g : Int) :
    (D.continuousUpdate g).rateValid = D.rateValid := rfl
@[simp] theorem Decoder.continuousUpdate_rate (D : Decoder) (g : Int) :
    (D.continuousUpdate g).rate = D.rate := rfl
@[simp] theorem Decoder.continuousUpdate_zeroAlpha (D : Decoder) (g : Int) :
    (D.continuousUpdate g).zeroAlpha = D.zeroAlpha := rfl
@[simp] theorem Decoder.continuousUpdate_signalAlpha (D : Decoder) (g : Int) :
    (D.continuousUpdate g).signalAlpha = D.signalAlpha := rfl
@[simp] theorem Decoder.continuousUpdate_ch0 (D : Decoder) (g : Int) :
    (D.continuousUpdate g).ch0 = D.ch0 := rfl
@[simp] theorem Decoder.continuousUpdate_ch1 (D : Decoder) (g : Int) :
    (D.continuousUpdate g).ch1 = D.ch1 := rfl
@[simp] theorem Decoder.continuousUpdate_mono (D : Decoder) (g : Int) :
    (D.continuousUpdate g).mono = D.mono := rfl
@[simp] theorem Decoder.continuousUpdate_forwards (D : Decoder) (g : Int) :
    (D.continuousUpdate g).forwards = D.forwards := rfl
@[simp] theorem Decoder.continuousUpdate_wavePeak (D : Decoder) (g : Int) :
    (D.continuousUpdate g).wavePeak = BitVec.ofNat 33 (max D.wavePeak.toNat (amplitude g D.mono.zero)) := rfl
@[simp] theorem Decoder.continuousUpdate_halfPeak (D : Decoder) (g : Int) :
    (D.continuousUpdate g).halfPeak = D.halfPeak := rfl
@[simp] theorem Decoder.continuousUpdate_refLevel (D : Decoder) (g : Int) :
    (D.continuousUpdate g).refLevel = D.refLevel := rfl
@[simp] theorem Decoder.continuousUpdate_signalLevel (D : Decoder) (g : Int) :
    (D.continuousUpdate g).signalLevel = BitVec.ofInt 33 (smoothed D.signalLevel (amplitude g D.mono.zero) D.signalAlpha) := rfl
@[simp] theorem Decoder.continuousUpdate_crossings (D : Decoder) (g : Int) :
    (D.continuousUpdate g).crossings = D.crossings := rfl
@[simp] theorem Decoder.continuousUpdate_pitchTicker (D : Decoder) (g : Int) :
    (D.continuousUpdate g).pitchTicker = D.pitchTicker := rfl
@[simp] theorem Decoder.continuousUpdate_crossTicker (D : Decoder) (g : Int) :
    (D.continuousUpdate g).crossTicker = D.crossTicker := rfl
@[simp] theorem Decoder.continuousUpdate_bitstream (D : Decoder) (g : Int) :
    (D.continuousUpdate g).bitstream = D.bitstream := rfl
@[simp] theorem Decoder.continuousUpdate_timecode (D : Decoder) (g : Int) :
    (D.continuousUpdate g).timecode = D.timecode := rfl
@[simp] theorem Decoder.continuousUpdate_validCounter (D : Decoder) (g : Int) :
    (D.continuousUpdate g).validCounter = D.validCounter := rfl
@[simp] theorem Decoder.continuousUpdate_timecodeTicker (D : Decoder) (g : Int) :
    (D.continuousUpdate g).timecodeTicker = D.timecodeTicker := rfl

/-! ## tickerIncrement -/

@[simp] theorem Decoder.tickerIncrement_live (D : Decoder) :
    (D.tickerIncrement).live = D.live := rfl
@[simp] theorem Decoder.tickerIncrement_handle (D : Decoder) :
    (D.tickerIncrement).handle = D.handle := rfl
@[simp] theorem Decoder.tickerIncrement_rateValid (D : Decoder) :
    (D.tickerIncrement).rateValid = D.rateValid := rfl
@[simp] theorem Decoder.tickerIncrement_rate (D : Decoder) :
    (D.tickerIncrement).rate = D.rate := rfl
@[simp] theorem Decoder.tickerIncrement_zeroAlpha (D : Decoder) :
    (D.tickerIncrement).zeroAlpha = D.zeroAlpha := rfl
@[simp] theorem Decoder.tickerIncrement_signalAlpha (D : Decoder) :
    (D.tickerIncrement).signalAlpha = D.signalAlpha := rfl
@[simp] theorem Decoder.tickerIncrement_ch0 (D : Decoder) : (D.tickerIncrement).ch0 = D.ch0 := rfl
@[simp] theorem Decoder.tickerIncrement_ch1 (D : Decoder) : (D.tickerIncrement).ch1 = D.ch1 := rfl
@[simp] theorem Decoder.tickerIncrement_mono (D : Decoder) :
    (D.tickerIncrement).mono = D.mono := rfl
@[simp] theorem Decoder.tickerIncrement_forwards (D : Decoder) :
    (D.tickerIncrement).forwards = D.forwards := rfl
@[simp] theorem Decoder.tickerIncrement_wavePeak (D : Decoder) :
    (D.tickerIncrement).wavePeak = D.wavePeak := rfl
@[simp] theorem Decoder.tickerIncrement_halfPeak (D : Decoder) :
    (D.tickerIncrement).halfPeak = D.halfPeak := rfl
@[simp] theorem Decoder.tickerIncrement_refLevel (D : Decoder) :
    (D.tickerIncrement).refLevel = D.refLevel := rfl
@[simp] theorem Decoder.tickerIncrement_signalLevel (D : Decoder) :
    (D.tickerIncrement).signalLevel = D.signalLevel := rfl
@[simp] theorem Decoder.tickerIncrement_crossings (D : Decoder) :
    (D.tickerIncrement).crossings = D.crossings := rfl
@[simp] theorem Decoder.tickerIncrement_pitchTicker (D : Decoder) :
    (D.tickerIncrement).pitchTicker = D.pitchTicker := rfl
@[simp] theorem Decoder.tickerIncrement_crossTicker (D : Decoder) :
    (D.tickerIncrement).crossTicker = D.crossTicker + 1 := rfl
@[simp] theorem Decoder.tickerIncrement_bitstream (D : Decoder) :
    (D.tickerIncrement).bitstream = D.bitstream := rfl
@[simp] theorem Decoder.tickerIncrement_timecode (D : Decoder) :
    (D.tickerIncrement).timecode = D.timecode := rfl
@[simp] theorem Decoder.tickerIncrement_validCounter (D : Decoder) :
    (D.tickerIncrement).validCounter = D.validCounter := rfl
@[simp] theorem Decoder.tickerIncrement_timecodeTicker (D : Decoder) :
    (D.tickerIncrement).timecodeTicker = D.timecodeTicker + 1 := rfl

/-! ## saveHalfPeak -/

@[simp] theorem Decoder.saveHalfPeak_live (D : Decoder) : (D.saveHalfPeak).live = D.live := rfl
@[simp] theorem Decoder.saveHalfPeak_handle (D : Decoder) :
    (D.saveHalfPeak).handle = D.handle := rfl
@[simp] theorem Decoder.saveHalfPeak_rateValid (D : Decoder) :
    (D.saveHalfPeak).rateValid = D.rateValid := rfl
@[simp] theorem Decoder.saveHalfPeak_rate (D : Decoder) : (D.saveHalfPeak).rate = D.rate := rfl
@[simp] theorem Decoder.saveHalfPeak_zeroAlpha (D : Decoder) :
    (D.saveHalfPeak).zeroAlpha = D.zeroAlpha := rfl
@[simp] theorem Decoder.saveHalfPeak_signalAlpha (D : Decoder) :
    (D.saveHalfPeak).signalAlpha = D.signalAlpha := rfl
@[simp] theorem Decoder.saveHalfPeak_ch0 (D : Decoder) : (D.saveHalfPeak).ch0 = D.ch0 := rfl
@[simp] theorem Decoder.saveHalfPeak_ch1 (D : Decoder) : (D.saveHalfPeak).ch1 = D.ch1 := rfl
@[simp] theorem Decoder.saveHalfPeak_mono (D : Decoder) : (D.saveHalfPeak).mono = D.mono := rfl
@[simp] theorem Decoder.saveHalfPeak_forwards (D : Decoder) :
    (D.saveHalfPeak).forwards = D.forwards := rfl
@[simp] theorem Decoder.saveHalfPeak_wavePeak (D : Decoder) :
    (D.saveHalfPeak).wavePeak = D.wavePeak := rfl
@[simp] theorem Decoder.saveHalfPeak_halfPeak (D : Decoder) :
    (D.saveHalfPeak).halfPeak = D.wavePeak := rfl
@[simp] theorem Decoder.saveHalfPeak_refLevel (D : Decoder) :
    (D.saveHalfPeak).refLevel = D.refLevel := rfl
@[simp] theorem Decoder.saveHalfPeak_signalLevel (D : Decoder) :
    (D.saveHalfPeak).signalLevel = D.signalLevel := rfl
@[simp] theorem Decoder.saveHalfPeak_crossings (D : Decoder) :
    (D.saveHalfPeak).crossings = D.crossings := rfl
@[simp] theorem Decoder.saveHalfPeak_pitchTicker (D : Decoder) :
    (D.saveHalfPeak).pitchTicker = D.pitchTicker := rfl
@[simp] theorem Decoder.saveHalfPeak_crossTicker (D : Decoder) :
    (D.saveHalfPeak).crossTicker = D.crossTicker := rfl
@[simp] theorem Decoder.saveHalfPeak_bitstream (D : Decoder) :
    (D.saveHalfPeak).bitstream = D.bitstream := rfl
@[simp] theorem Decoder.saveHalfPeak_timecode (D : Decoder) :
    (D.saveHalfPeak).timecode = D.timecode := rfl
@[simp] theorem Decoder.saveHalfPeak_validCounter (D : Decoder) :
    (D.saveHalfPeak).validCounter = D.validCounter := rfl
@[simp] theorem Decoder.saveHalfPeak_timecodeTicker (D : Decoder) :
    (D.saveHalfPeak).timecodeTicker = D.timecodeTicker := rfl

/-! ## shiftAndPredict -/

@[simp] theorem Decoder.shiftAndPredict_live (D : Decoder) (row : TimecodeDef) (b : Bool) :
    (D.shiftAndPredict row b).live = D.live := rfl
@[simp] theorem Decoder.shiftAndPredict_handle (D : Decoder) (row : TimecodeDef) (b : Bool) :
    (D.shiftAndPredict row b).handle = D.handle := rfl
@[simp] theorem Decoder.shiftAndPredict_rateValid (D : Decoder) (row : TimecodeDef) (b : Bool) :
    (D.shiftAndPredict row b).rateValid = D.rateValid := rfl
@[simp] theorem Decoder.shiftAndPredict_rate (D : Decoder) (row : TimecodeDef) (b : Bool) :
    (D.shiftAndPredict row b).rate = D.rate := rfl
@[simp] theorem Decoder.shiftAndPredict_zeroAlpha (D : Decoder) (row : TimecodeDef) (b : Bool) :
    (D.shiftAndPredict row b).zeroAlpha = D.zeroAlpha := rfl
@[simp] theorem Decoder.shiftAndPredict_signalAlpha (D : Decoder) (row : TimecodeDef) (b : Bool) :
    (D.shiftAndPredict row b).signalAlpha = D.signalAlpha := rfl
@[simp] theorem Decoder.shiftAndPredict_ch0 (D : Decoder) (row : TimecodeDef) (b : Bool) :
    (D.shiftAndPredict row b).ch0 = D.ch0 := rfl
@[simp] theorem Decoder.shiftAndPredict_ch1 (D : Decoder) (row : TimecodeDef) (b : Bool) :
    (D.shiftAndPredict row b).ch1 = D.ch1 := rfl
@[simp] theorem Decoder.shiftAndPredict_mono (D : Decoder) (row : TimecodeDef) (b : Bool) :
    (D.shiftAndPredict row b).mono = D.mono := rfl
@[simp] theorem Decoder.shiftAndPredict_forwards (D : Decoder) (row : TimecodeDef) (b : Bool) :
    (D.shiftAndPredict row b).forwards = D.forwards := rfl
@[simp] theorem Decoder.shiftAndPredict_wavePeak (D : Decoder) (row : TimecodeDef) (b : Bool) :
    (D.shiftAndPredict row b).wavePeak = D.wavePeak := rfl
@[simp] theorem Decoder.shiftAndPredict_halfPeak (D : Decoder) (row : TimecodeDef) (b : Bool) :
    (D.shiftAndPredict row b).halfPeak = D.halfPeak := rfl
@[simp] theorem Decoder.shiftAndPredict_refLevel (D : Decoder) (row : TimecodeDef) (b : Bool) :
    (D.shiftAndPredict row b).refLevel = D.refLevel := rfl
@[simp] theorem Decoder.shiftAndPredict_signalLevel (D : Decoder) (row : TimecodeDef) (b : Bool) :
    (D.shiftAndPredict row b).signalLevel = D.signalLevel := rfl
@[simp] theorem Decoder.shiftAndPredict_crossings (D : Decoder) (row : TimecodeDef) (b : Bool) :
    (D.shiftAndPredict row b).crossings = D.crossings := rfl
@[simp] theorem Decoder.shiftAndPredict_pitchTicker (D : Decoder) (row : TimecodeDef) (b : Bool) :
    (D.shiftAndPredict row b).pitchTicker = D.pitchTicker := rfl
@[simp] theorem Decoder.shiftAndPredict_crossTicker (D : Decoder) (row : TimecodeDef) (b : Bool) :
    (D.shiftAndPredict row b).crossTicker = D.crossTicker := rfl
@[simp] theorem Decoder.shiftAndPredict_bitstream (D : Decoder) (row : TimecodeDef) (b : Bool) :
    (D.shiftAndPredict row b).bitstream = BitVec.ofNat 23
      (if D.forwards then shiftForward D.bitstream.toNat row.bits b
       else shiftBackward D.bitstream.toNat row.bits b) := rfl
@[simp] theorem Decoder.shiftAndPredict_timecode (D : Decoder) (row : TimecodeDef) (b : Bool) :
    (D.shiftAndPredict row b).timecode = BitVec.ofNat 23
      (if D.forwards then fwd D.timecode.toNat row.bits row.taps
       else rev D.timecode.toNat row.bits row.taps) := rfl
@[simp] theorem Decoder.shiftAndPredict_validCounter (D : Decoder) (row : TimecodeDef) (b : Bool) :
    (D.shiftAndPredict row b).validCounter = D.validCounter := rfl
@[simp] theorem Decoder.shiftAndPredict_timecodeTicker (D : Decoder) (row : TimecodeDef) (b : Bool) :
    (D.shiftAndPredict row b).timecodeTicker = D.timecodeTicker := rfl

/-! ## validate -/

@[simp] theorem Decoder.validate_live (D : Decoder) : (D.validate).live = D.live := rfl
@[simp] theorem Decoder.validate_handle (D : Decoder) : (D.validate).handle = D.handle := rfl
@[simp] theorem Decoder.validate_rateValid (D : Decoder) :
    (D.validate).rateValid = D.rateValid := rfl
@[simp] theorem Decoder.validate_rate (D : Decoder) : (D.validate).rate = D.rate := rfl
@[simp] theorem Decoder.validate_zeroAlpha (D : Decoder) :
    (D.validate).zeroAlpha = D.zeroAlpha := rfl
@[simp] theorem Decoder.validate_signalAlpha (D : Decoder) :
    (D.validate).signalAlpha = D.signalAlpha := rfl
@[simp] theorem Decoder.validate_ch0 (D : Decoder) : (D.validate).ch0 = D.ch0 := rfl
@[simp] theorem Decoder.validate_ch1 (D : Decoder) : (D.validate).ch1 = D.ch1 := rfl
@[simp] theorem Decoder.validate_mono (D : Decoder) : (D.validate).mono = D.mono := rfl
@[simp] theorem Decoder.validate_forwards (D : Decoder) : (D.validate).forwards = D.forwards := rfl
@[simp] theorem Decoder.validate_wavePeak (D : Decoder) : (D.validate).wavePeak = D.wavePeak := rfl
@[simp] theorem Decoder.validate_halfPeak (D : Decoder) : (D.validate).halfPeak = D.halfPeak := rfl
@[simp] theorem Decoder.validate_refLevel (D : Decoder) : (D.validate).refLevel = D.refLevel := rfl
@[simp] theorem Decoder.validate_signalLevel (D : Decoder) :
    (D.validate).signalLevel = D.signalLevel := rfl
@[simp] theorem Decoder.validate_crossings (D : Decoder) :
    (D.validate).crossings = D.crossings := rfl
@[simp] theorem Decoder.validate_pitchTicker (D : Decoder) :
    (D.validate).pitchTicker = D.pitchTicker := rfl
@[simp] theorem Decoder.validate_crossTicker (D : Decoder) :
    (D.validate).crossTicker = D.crossTicker := rfl
@[simp] theorem Decoder.validate_bitstream (D : Decoder) :
    (D.validate).bitstream = D.bitstream := rfl
@[simp] theorem Decoder.validate_timecode (D : Decoder) : (D.validate).timecode = D.bitstream := rfl
@[simp] theorem Decoder.validate_validCounter (D : Decoder) :
    (D.validate).validCounter = if D.timecode = D.bitstream then saturatingSucc D.validCounter else 0 := rfl
@[simp] theorem Decoder.validate_timecodeTicker (D : Decoder) :
    (D.validate).timecodeTicker = 0 := rfl

/-! ## refAdapt -/

@[simp] theorem Decoder.refAdapt_live (D : Decoder) : (D.refAdapt).live = D.live := rfl
@[simp] theorem Decoder.refAdapt_handle (D : Decoder) : (D.refAdapt).handle = D.handle := rfl
@[simp] theorem Decoder.refAdapt_rateValid (D : Decoder) :
    (D.refAdapt).rateValid = D.rateValid := rfl
@[simp] theorem Decoder.refAdapt_rate (D : Decoder) : (D.refAdapt).rate = D.rate := rfl
@[simp] theorem Decoder.refAdapt_zeroAlpha (D : Decoder) :
    (D.refAdapt).zeroAlpha = D.zeroAlpha := rfl
@[simp] theorem Decoder.refAdapt_signalAlpha (D : Decoder) :
    (D.refAdapt).signalAlpha = D.signalAlpha := rfl
@[simp] theorem Decoder.refAdapt_ch0 (D : Decoder) : (D.refAdapt).ch0 = D.ch0 := rfl
@[simp] theorem Decoder.refAdapt_ch1 (D : Decoder) : (D.refAdapt).ch1 = D.ch1 := rfl
@[simp] theorem Decoder.refAdapt_mono (D : Decoder) : (D.refAdapt).mono = D.mono := rfl
@[simp] theorem Decoder.refAdapt_forwards (D : Decoder) : (D.refAdapt).forwards = D.forwards := rfl
@[simp] theorem Decoder.refAdapt_wavePeak (D : Decoder) : (D.refAdapt).wavePeak = D.wavePeak := rfl
@[simp] theorem Decoder.refAdapt_halfPeak (D : Decoder) : (D.refAdapt).halfPeak = D.halfPeak := rfl
@[simp] theorem Decoder.refAdapt_refLevel (D : Decoder) :
    (D.refAdapt).refLevel = BitVec.ofInt 35
      (adaptedRef D.refLevel.toInt ((D.halfPeak.toNat : Int) + D.wavePeak.toNat)) := rfl
@[simp] theorem Decoder.refAdapt_signalLevel (D : Decoder) :
    (D.refAdapt).signalLevel = D.signalLevel := rfl
@[simp] theorem Decoder.refAdapt_crossings (D : Decoder) :
    (D.refAdapt).crossings = D.crossings := rfl
@[simp] theorem Decoder.refAdapt_pitchTicker (D : Decoder) :
    (D.refAdapt).pitchTicker = D.pitchTicker := rfl
@[simp] theorem Decoder.refAdapt_crossTicker (D : Decoder) :
    (D.refAdapt).crossTicker = D.crossTicker := rfl
@[simp] theorem Decoder.refAdapt_bitstream (D : Decoder) :
    (D.refAdapt).bitstream = D.bitstream := rfl
@[simp] theorem Decoder.refAdapt_timecode (D : Decoder) : (D.refAdapt).timecode = D.timecode := rfl
@[simp] theorem Decoder.refAdapt_validCounter (D : Decoder) :
    (D.refAdapt).validCounter = D.validCounter := rfl
@[simp] theorem Decoder.refAdapt_timecodeTicker (D : Decoder) :
    (D.refAdapt).timecodeTicker = D.timecodeTicker := rfl

/-! ## directionAndPitch -/

@[simp] theorem Decoder.directionAndPitch_live (D : Decoder) :
    (D.directionAndPitch).live = D.live := rfl
@[simp] theorem Decoder.directionAndPitch_handle (D : Decoder) :
    (D.directionAndPitch).handle = D.handle := rfl
@[simp] theorem Decoder.directionAndPitch_rateValid (D : Decoder) :
    (D.directionAndPitch).rateValid = D.rateValid := rfl
@[simp] theorem Decoder.directionAndPitch_rate (D : Decoder) :
    (D.directionAndPitch).rate = D.rate := rfl
@[simp] theorem Decoder.directionAndPitch_zeroAlpha (D : Decoder) :
    (D.directionAndPitch).zeroAlpha = D.zeroAlpha := rfl
@[simp] theorem Decoder.directionAndPitch_signalAlpha (D : Decoder) :
    (D.directionAndPitch).signalAlpha = D.signalAlpha := rfl
@[simp] theorem Decoder.directionAndPitch_ch0 (D : Decoder) :
    (D.directionAndPitch).ch0 = D.ch0 := rfl
@[simp] theorem Decoder.directionAndPitch_ch1 (D : Decoder) :
    (D.directionAndPitch).ch1 = D.ch1 := rfl
@[simp] theorem Decoder.directionAndPitch_mono (D : Decoder) :
    (D.directionAndPitch).mono = D.mono := rfl
@[simp] theorem Decoder.directionAndPitch_forwards (D : Decoder) :
    (D.directionAndPitch).forwards = directionForwards D.ch0.crossingTicker D.ch1.crossingTicker := rfl
@[simp] theorem Decoder.directionAndPitch_wavePeak (D : Decoder) :
    (D.directionAndPitch).wavePeak = 0 := rfl
@[simp] theorem Decoder.directionAndPitch_halfPeak (D : Decoder) :
    (D.directionAndPitch).halfPeak = D.halfPeak := rfl
@[simp] theorem Decoder.directionAndPitch_refLevel (D : Decoder) :
    (D.directionAndPitch).refLevel = D.refLevel := rfl
@[simp] theorem Decoder.directionAndPitch_signalLevel (D : Decoder) :
    (D.directionAndPitch).signalLevel = D.signalLevel := rfl
@[simp] theorem Decoder.directionAndPitch_crossings (D : Decoder) :
    (D.directionAndPitch).crossings = if directionForwards D.ch0.crossingTicker D.ch1.crossingTicker then D.crossings + 1
      else D.crossings - 1 := rfl
@[simp] theorem Decoder.directionAndPitch_pitchTicker (D : Decoder) :
    (D.directionAndPitch).pitchTicker = D.pitchTicker + D.crossTicker := rfl
@[simp] theorem Decoder.directionAndPitch_crossTicker (D : Decoder) :
    (D.directionAndPitch).crossTicker = 0 := rfl
@[simp] theorem Decoder.directionAndPitch_bitstream (D : Decoder) :
    (D.directionAndPitch).bitstream = D.bitstream := rfl
@[simp] theorem Decoder.directionAndPitch_timecode (D : Decoder) :
    (D.directionAndPitch).timecode = D.timecode := rfl
@[simp] theorem Decoder.directionAndPitch_validCounter (D : Decoder) :
    (D.directionAndPitch).validCounter = D.validCounter := rfl
@[simp] theorem Decoder.directionAndPitch_timecodeTicker (D : Decoder) :
    (D.directionAndPitch).timecodeTicker = D.timecodeTicker := rfl

/-! ## pitchRead -/

@[simp] theorem Decoder.pitchRead_live (D : Decoder) : (D.pitchRead).live = D.live := rfl
@[simp] theorem Decoder.pitchRead_handle (D : Decoder) : (D.pitchRead).handle = D.handle := rfl
@[simp] theorem Decoder.pitchRead_rateValid (D : Decoder) :
    (D.pitchRead).rateValid = D.rateValid := rfl
@[simp] theorem Decoder.pitchRead_rate (D : Decoder) : (D.pitchRead).rate = D.rate := rfl
@[simp] theorem Decoder.pitchRead_zeroAlpha (D : Decoder) :
    (D.pitchRead).zeroAlpha = D.zeroAlpha := rfl
@[simp] theorem Decoder.pitchRead_signalAlpha (D : Decoder) :
    (D.pitchRead).signalAlpha = D.signalAlpha := rfl
@[simp] theorem Decoder.pitchRead_ch0 (D : Decoder) : (D.pitchRead).ch0 = D.ch0 := rfl
@[simp] theorem Decoder.pitchRead_ch1 (D : Decoder) : (D.pitchRead).ch1 = D.ch1 := rfl
@[simp] theorem Decoder.pitchRead_mono (D : Decoder) : (D.pitchRead).mono = D.mono := rfl
@[simp] theorem Decoder.pitchRead_forwards (D : Decoder) :
    (D.pitchRead).forwards = D.forwards := rfl
@[simp] theorem Decoder.pitchRead_wavePeak (D : Decoder) :
    (D.pitchRead).wavePeak = D.wavePeak := rfl
@[simp] theorem Decoder.pitchRead_halfPeak (D : Decoder) :
    (D.pitchRead).halfPeak = D.halfPeak := rfl
@[simp] theorem Decoder.pitchRead_refLevel (D : Decoder) :
    (D.pitchRead).refLevel = D.refLevel := rfl
@[simp] theorem Decoder.pitchRead_signalLevel (D : Decoder) :
    (D.pitchRead).signalLevel = D.signalLevel := rfl
@[simp] theorem Decoder.pitchRead_crossings (D : Decoder) : (D.pitchRead).crossings = 0 := rfl
@[simp] theorem Decoder.pitchRead_pitchTicker (D : Decoder) : (D.pitchRead).pitchTicker = 0 := rfl
@[simp] theorem Decoder.pitchRead_crossTicker (D : Decoder) :
    (D.pitchRead).crossTicker = D.crossTicker := rfl
@[simp] theorem Decoder.pitchRead_bitstream (D : Decoder) :
    (D.pitchRead).bitstream = D.bitstream := rfl
@[simp] theorem Decoder.pitchRead_timecode (D : Decoder) :
    (D.pitchRead).timecode = D.timecode := rfl
@[simp] theorem Decoder.pitchRead_validCounter (D : Decoder) :
    (D.pitchRead).validCounter = D.validCounter := rfl
@[simp] theorem Decoder.pitchRead_timecodeTicker (D : Decoder) :
    (D.pitchRead).timecodeTicker = D.timecodeTicker := rfl

end Sys2Proof.Machine
end

