-- ==== Sys2Proof/Laws/Memory.lean ====
section
/-! SUPPORT. The lookup memory: every memory operation keeps the canonical form, and what each leaves readable.
(`Memory.write_wf` stands in Machine/TableBuild.lean.) -/

namespace Sys2Proof.Machine

@[simp] theorem Memory.read_nil (a : Nat) : Memory.read [] a = Memory.sentinel := rfl

theorem Memory.nil_wf : Memory.wf [] := ⟨.nil, by simp⟩

/-- The reset memory is canonical. -/
theorem reset_slot_wf (h : Fin Config.nLut) : (State.reset.slot h).mem.wf := by
  simpa [State.slot, State.reset, Slot.reset] using Memory.nil_wf

theorem Memory.clearBelow_wf {m : Memory} (hm : m.wf) (n : Nat) : (m.clearBelow n).wf :=
  ⟨hm.1.filter _, fun c hc => hm.2 c (List.mem_of_mem_filter hc)⟩

/-- Words below `n` read as unknown, the others as before: what the first loop of `BuildTable` does. -/
theorem Memory.read_clearBelow (m : Memory) (n a : Nat) :
    (m.clearBelow n).read a = if a < n then Memory.sentinel else m.read a := by
  induction m with
  | nil => simp [Memory.clearBelow]
  | cons c m ih =>
    obtain ⟨b, v⟩ := c
    unfold Memory.clearBelow at ih ⊢
    by_cases hb : n ≤ b
    · rw [List.filter_cons_of_pos (by simpa using hb)]
      simp only [Memory.read, ih]
      by_cases hab : b = a
      · simp [hab, show ¬ a < n by omega]
      · simp [hab]
    · rw [List.filter_cons_of_neg (by simpa using hb), ih]
      by_cases hab : b = a
      · simp [show a < n by omega]
      · simp [Memory.read, hab]

theorem Memory.foldl_write_wf (cells : List (Nat × Word)) {m : Memory} (hm : m.wf) :
    (cells.foldl (fun m c => m.write c.1 c.2) m).wf := by
  induction cells generalizing m with
  | nil => exact hm
  | cons c cs ih => exact ih (Memory.write_wf hm _ _)

theorem Memory.ofCells_wf (cells : List (Nat × Word)) : (Memory.ofCells cells).wf :=
  Memory.foldl_write_wf _ Memory.nil_wf

theorem freeMemory_wf (h draw : Nat) : (freeMemory h draw).wf := Memory.ofCells_wf _

/-- Addresses of a written memory: the written one, or one listed before. -/
theorem Memory.address_write {m : Memory} {a : Nat} {v : Word} {n : Nat} (ha : a < n)
    (hm : ∀ c ∈ m, c.1 < n) : ∀ c ∈ m.write a v, c.1 < n := fun c hc =>
  (Memory.mem_write hc).elim (fun h => by rw [h.1]; exact ha) (hm c)

theorem Memory.foldl_write_address (cells : List (Nat × Word)) {m : Memory} {n : Nat}
    (hc : ∀ c ∈ cells, c.1 < n) (hm : ∀ c ∈ m, c.1 < n) :
    ∀ c ∈ cells.foldl (fun m c => m.write c.1 c.2) m, c.1 < n := by
  induction cells generalizing m with
  | nil => exact hm
  | cons c cs ih =>
    exact ih (fun d hd => hc d (.tail _ hd)) (Memory.address_write (hc c (.head _)) hm)

theorem freeMemory_address (h draw : Nat) : ∀ c ∈ freeMemory h draw, c.1 < Config.lutDepth :=
  Memory.foldl_write_address _ (fun c hc => by simpa using (List.mem_filter.mp hc).2) (by simp)

theorem fillTable_wf {B taps k n current : Nat} {m m' : Memory} (hm : m.wf)
    (h : fillTable B taps k n current m = some m') : m'.wf := by
  induction k generalizing n current m with
  | zero => simp only [fillTable, Option.some.injEq] at h; exact h ▸ hm
  | succ k ih =>
    simp only [fillTable] at h
    split at h
    · exact ih (Memory.write_wf hm _ _) h
    · cases h

/-- A build that answers ok leaves a canonical memory. -/
theorem buildTable_wf {m m' : Memory} {row : TimecodeDef} (hm : m.wf)
    (h : buildTable m row = some m') : m'.wf :=
  fillTable_wf (Memory.clearBelow_wf hm _) h

/-- Canonical memories that read alike everywhere are equal. -/
theorem Memory.ext_of_read {m n : Memory} (hm : m.wf) (hn : n.wf) (h : ∀ a, m.read a = n.read a) :
    m = n := by
  have miss : ∀ {l : Memory} {a : Nat}, (∀ c ∈ l, a < c.1) → l.read a = Memory.sentinel := by
    intro l a hl
    induction l with
    | nil => rfl
    | cons c l ih =>
      simp only [Memory.read]
      rw [if_neg (Nat.ne_of_gt (hl c (.head _)))]
      exact ih fun d hd => hl d (.tail _ hd)
  induction m generalizing n with
  | nil =>
    cases n with
    | nil => rfl
    | cons c n => exact absurd (by simpa [Memory.read] using (h c.1).symm) (hn.2 c (.head _))
  | cons c m ih =>
    obtain ⟨a, v⟩ := c
    obtain ⟨ha, hms⟩ := List.pairwise_cons.mp hm.1
    cases n with
    | nil => exact absurd (by simpa [Memory.read] using h a) (hm.2 (a, v) (.head _))
    | cons d n =>
      obtain ⟨b, w⟩ := d
      obtain ⟨hb, hns⟩ := List.pairwise_cons.mp hn.1
      have hab : a = b := by
        rcases Nat.lt_trichotomy a b with hlt | he | hlt
        · refine absurd ?_ (hm.2 (a, v) (.head _))
          have := h a
          rw [miss (l := (b, w) :: n) fun c hc => (List.mem_cons.mp hc).elim
            (fun e => by rw [e]; exact hlt) fun hc => hlt.trans (hb c hc)] at this
          simpa [Memory.read] using this
        · exact he
        · refine absurd ?_ (hn.2 (b, w) (.head _))
          have := h b
          rw [miss (l := (a, v) :: m) fun c hc => (List.mem_cons.mp hc).elim
            (fun e => by rw [e]; exact hlt) fun hc => hlt.trans (ha c hc)] at this
          simpa [Memory.read] using this.symm
      subst hab
      have hvw : v = w := by simpa [Memory.read] using h a
      subst hvw
      refine congrArg _ (ih ⟨hms, fun c hc => hm.2 c (.tail _ hc)⟩
        ⟨hns, fun c hc => hn.2 c (.tail _ hc)⟩ fun x => ?_)
      by_cases hx : a = x
      · subst hx
        rw [miss ha, miss hb]
      · simpa [Memory.read, hx] using h x

end Sys2Proof.Machine
end

