-- ==== Sys2Proof/Laws/Exec.lean ====
section
/-! SUPPORT. What each shared check and each meaning can do, said once: later proofs cite these inversions
instead of unfolding. -/

namespace Sys2Proof.Machine

/-! ## The two continuations -/

@[simp] theorem orRaise_ok {α : Type} (x : α) (s : State) (k : α → Result) : orRaise (.ok x) s k = k x :=
  rfl

@[simp] theorem orRaise_error {α : Type} (e : ErrorCode) (s : State) (k : α → Result) :
    orRaise (.error e) s k = .next (raise e s) := rfl

@[simp] theorem orFault_ok {α : Type} (x : α) (k : α → Result) : orFault (.ok x) k = k x := rfl

@[simp] theorem orFault_error {α : Type} (f : Fault) (k : α → Result) :
    orFault (.error f) k = .fault f := rfl

theorem orRaise_next {α : Type} {c : Except ErrorCode α} {s t : State} {k : α → Result}
    (h : orRaise c s k = .next t) :
    (∃ e, c = .error e ∧ t = raise e s) ∨ ∃ x, c = .ok x ∧ k x = .next t := by
  cases c with
  | error e => exact .inl ⟨e, rfl, by simpa using h.symm⟩
  | ok x => exact .inr ⟨x, rfl, h⟩

theorem orFault_next {α : Type} {r : Except Fault α} {t : State} {k : α → Result}
    (h : orFault r k = .next t) : ∃ x, r = .ok x ∧ k x = .next t := by
  cases r with
  | error f => simp at h
  | ok x => exact ⟨x, rfl, h⟩

/-! ## The checks -/

theorem bankIndex_of_lt {d : Nat} (h : d < Config.nDec) : bankIndex d = .ok ⟨d, h⟩ := dif_pos h

theorem bankIndex_of_le {d : Nat} (h : Config.nDec ≤ d) : bankIndex d = .error .badUnit :=
  dif_neg (Nat.not_lt.mpr h)

theorem slotIndex_of_lt {h : Nat} (hlt : h < Config.nLut) : slotIndex h = .ok ⟨h, hlt⟩ := dif_pos hlt

theorem slotIndex_of_le {h : Nat} (hle : Config.nLut ≤ h) : slotIndex h = .error .badUnit :=
  dif_neg (Nat.not_lt.mpr hle)

theorem checkLive_of_le {d : Nat} (s : State) (h : Config.nDec ≤ d) :
    checkLive d s = .error .badUnit := by
  simp [checkLive, bankIndex_of_le h]

theorem checkLive_of_live {s : State} (d : Fin Config.nDec) (h : (s.bank d).live = true) :
    checkLive d.val s = .ok d := by
  simp [checkLive, bankIndex_of_lt d.isLt, h]

theorem checkLive_of_not_live {s : State} (d : Fin Config.nDec) (h : (s.bank d).live = false) :
    checkLive d.val s = .error .notLive := by
  simp [checkLive, bankIndex_of_lt d.isLt, h]

/-- What `CheckLive` yields is the addressed bank, and it is live. -/
theorem checkLive_ok {d : Nat} {s : State} {i : Fin Config.nDec} (h : checkLive d s = .ok i) :
    i.val = d ∧ (s.bank i).live = true := by
  by_cases hd : d < Config.nDec
  · cases hl : (s.bank ⟨d, hd⟩).live with
    | true => rw [checkLive_of_live ⟨d, hd⟩ hl] at h; cases h; exact ⟨rfl, hl⟩
    | false => rw [checkLive_of_not_live ⟨d, hd⟩ hl] at h; cases h
  · rw [checkLive_of_le s (Nat.not_lt.mp hd)] at h; cases h

theorem bankIndex_ok {d : Nat} {i : Fin Config.nDec} (h : bankIndex d = .ok i) : i.val = d := by
  by_cases hd : d < Config.nDec
  · rw [bankIndex_of_lt hd] at h; cases h; rfl
  · rw [bankIndex_of_le (Nat.not_lt.mp hd)] at h; cases h

theorem slotIndex_ok {h : Nat} {i : Fin Config.nLut} (hi : slotIndex h = .ok i) : i.val = h := by
  by_cases hh : h < Config.nLut
  · rw [slotIndex_of_lt hh] at hi; cases hi; rfl
  · rw [slotIndex_of_le (Nat.not_lt.mp hh)] at hi; cases hi

/-- The slot `checkValid` yields is the addressed one, and it is valid. -/
theorem checkValid_ok {h : Nat} {s : State} {i : Fin Config.nLut} (hi : checkValid h s = .ok i) :
    i.val = h ∧ (s.slot i).valid = true := by
  unfold checkValid at hi
  split at hi
  · cases hi
  · next j hj =>
    split at hi
    · next hv => cases hi; exact ⟨slotIndex_ok hj, hv⟩
    · cases hi

/-- The slot `checkVacant` yields is the addressed one, and it is not valid. -/
theorem checkVacant_ok {h : Nat} {s : State} {i : Fin Config.nLut} (hi : checkVacant h s = .ok i) :
    i.val = h ∧ (s.slot i).valid = false := by
  unfold checkVacant at hi
  split at hi
  · cases hi
  · next j hj =>
    split at hi
    · cases hi
    · next hv => cases hi; exact ⟨slotIndex_ok hj, by simpa using hv⟩

/-- The row `checkBuildable` yields is the variant's, and its table fits. -/
theorem checkBuildable_ok {rows : List TimecodeDef} {depth v : Nat} {row : TimecodeDef}
    (h : checkBuildable rows depth v = .ok row) :
    rows[v]? = some row ∧ 2 ^ (row.bits + 1) ≤ depth := by
  unfold checkBuildable variantRow at h
  split at h
  · cases h
  · next r hr =>
    split at h
    · cases h
    · next hd => cases h; exact ⟨hr, Nat.not_lt.mp hd⟩

theorem boundSlot_ok {D : Decoder} {h : Fin Config.nLut} (hb : boundSlot D = .ok h) :
    D.handle.toNat = h.val := by
  unfold boundSlot at hb
  split at hb
  · cases hb; rfl
  · cases hb

theorem slotRow_ok {sl : Slot} {row : TimecodeDef} (h : slotRow sl = .ok row) :
    registry[sl.variant.toNat]? = some row := by
  unfold slotRow variantRow at h
  split at h
  · next r hr => cases h; exact hr
  · cases h

/-- `def(d)` is the row of the slot the bank is bound to. -/
theorem bankRow_ok {s : State} {D : Decoder} {row : TimecodeDef} (h : bankRow s D = .ok row) :
    ∃ k, boundSlot D = .ok k ∧ slotRow (s.slot k) = .ok row := by
  unfold bankRow at h
  split at h
  · cases h
  · next k hk => exact ⟨k, hk, h⟩

theorem slotInUse_iff {s : State} {h : Nat} :
    slotInUse s h = true ↔ ∃ d, (s.bank d).live = true ∧ (s.bank d).handle.toNat = h := by
  simp only [slotInUse, List.any_eq_true, Bool.and_eq_true, beq_iff_eq, Vector.mem_toList_iff,
    Vector.mem_iff_getElem]
  constructor
  · rintro ⟨D, ⟨i, hi, rfl⟩, hl, hh⟩
    exact ⟨⟨i, hi⟩, hl, hh⟩
  · rintro ⟨d, hl, hh⟩
    exact ⟨_, ⟨d.val, d.isLt, rfl⟩, hl, hh⟩

/-! ## The meanings -/

theorem execBuildLookup_next {h v : Nat} {s t : State} (hx : execBuildLookup h v s = .next t) :
    (∃ e, checkVacant h s = .error e ∧ t = raise e s) ∨
      ∃ i, checkVacant h s = .ok i ∧
        ((∃ e, checkBuildable registry Config.lutDepth v = .error e ∧ t = raise e s) ∨
          ∃ row, checkBuildable registry Config.lutDepth v = .ok row ∧
            t = finishBuild i v (buildTable (s.slot i).mem row) s) := by
  unfold execBuildLookup buildLookupFrom at hx
  rcases orRaise_next hx with h1 | ⟨i, hi, h1⟩
  · exact .inl h1
  · rcases orRaise_next h1 with h2 | ⟨row, hr, h2⟩
    · exact .inr ⟨i, hi, .inl h2⟩
    · exact .inr ⟨i, hi, .inr ⟨row, hr, by simpa using h2.symm⟩⟩

theorem execFreeLookup_next {h : Nat} {s t : State} (hx : execFreeLookup h s = .next t) :
    (∃ e, checkValid h s = .error e ∧ t = raise e s) ∨
      ∃ i, checkValid h s = .ok i ∧
        ((slotInUse s h = true ∧ t = raise .busy s) ∨
          (slotInUse s h = false ∧ t = respond statusOk 0 0 (s.releaseSlot i))) := by
  unfold execFreeLookup at hx
  rcases orRaise_next hx with h1 | ⟨i, hi, h1⟩
  · exact .inl h1
  · refine .inr ⟨i, hi, ?_⟩
    split at h1
    · next hu => exact .inl ⟨hu, by simpa using h1.symm⟩
    · next hu => exact .inr ⟨by simpa using hu, by simpa using h1.symm⟩

theorem execInit_next {d h : Nat} {s t : State} (hx : execInit d h s = .next t) :
    (∃ e, (bankIndex d = .error e ∨ checkValid h s = .error e) ∧ t = raise e s) ∨
      ∃ i k, bankIndex d = .ok i ∧ checkValid h s = .ok k ∧
        t = respond statusOk 0 0 (s.setBank i (Decoder.initial h)) := by
  unfold execInit at hx
  rcases orRaise_next hx with ⟨e, he, ht⟩ | ⟨i, hi, h1⟩
  · exact .inl ⟨e, .inl he, ht⟩
  · rcases orRaise_next h1 with ⟨e, he, ht⟩ | ⟨k, hk, h2⟩
    · exact .inl ⟨e, .inr he, ht⟩
    · exact .inr ⟨i, k, hi, hk, by simpa using h2.symm⟩

theorem execClear_next {d : Nat} {s t : State} (hx : execClear d s = .next t) :
    (∃ e, checkLive d s = .error e ∧ t = raise e s) ∨
      ∃ i, checkLive d s = .ok i ∧ t = respond statusOk 0 0 (s.releaseBank i) :=
  (orRaise_next hx).imp id fun ⟨i, hi, h⟩ => ⟨i, hi, by simpa using h.symm⟩

theorem execRate_next {d r : Nat} {s t : State} (hx : execRate d r s = .next t) :
    (∃ e, checkLive d s = .error e ∧ t = raise e s) ∨
      ∃ i, checkLive d s = .ok i ∧
        t = respond statusOk 0 0 (s.setBank i ((s.bank i).withRate r)) :=
  (orRaise_next hx).imp id fun ⟨i, hi, h⟩ => ⟨i, hi, by simpa using h.symm⟩

theorem execSample_next {d : Nat} {l r : Int} {s t : State} (hx : execSample d l r s = .next t) :
    (∃ e, checkLive d s = .error e ∧ t = raise e s) ∨
      ∃ i, checkLive d s = .ok i ∧
        (((s.bank i).rateValid = false ∧ t = raise .noRate s) ∨
          ((s.bank i).rateValid = true ∧ (s.bank i).swapped l r = false ∧
            t = respond statusOk 0 0 (s.setBank i ((s.bank i).everySample l r))) ∨
          ((s.bank i).rateValid = true ∧ (s.bank i).swapped l r = true ∧
            ∃ row, bankRow s (s.bank i) = .ok row ∧
              t = respond statusOk 0 0
                (s.setBank i (((s.bank i).everySample l r).crossing row)))) := by
  unfold execSample at hx
  rcases orRaise_next hx with h1 | ⟨i, hi, h1⟩
  · exact .inl h1
  · refine .inr ⟨i, hi, ?_⟩
    split at h1
    · next hv =>
      split at h1
      · next hs =>
        obtain ⟨row, hr, h2⟩ := orFault_next h1
        exact .inr (.inr ⟨hv, hs, row, hr, by simpa using h2.symm⟩)
      · next hs => exact .inr (.inl ⟨hv, by simpa using hs, by simpa using h1.symm⟩)
    · next hv => exact .inl ⟨by simpa using hv, by simpa using h1.symm⟩

theorem execGetPitch_next {d : Nat} {s t : State} (hx : execGetPitch d s = .next t) :
    (∃ e, checkLive d s = .error e ∧ t = raise e s) ∨
      ∃ i, checkLive d s = .ok i ∧
        (((s.bank i).crossings = 0 ∧ t = respond statusNone 0 0 s) ∨
          ((s.bank i).crossings ≠ 0 ∧
            t = respond statusOk (s.bank i).crossings (s.bank i).pitchTicker
              (s.setBank i (s.bank i).pitchRead))) := by
  unfold execGetPitch at hx
  rcases orRaise_next hx with h1 | ⟨i, hi, h1⟩
  · exact .inl h1
  · refine .inr ⟨i, hi, ?_⟩
    split at h1
    · next hc => exact .inl ⟨hc, by simpa using h1.symm⟩
    · next hc => exact .inr ⟨hc, by simpa using h1.symm⟩

theorem execGetPosition_next {d : Nat} {s t : State} (hx : execGetPosition d s = .next t) :
    (∃ e, checkLive d s = .error e ∧ t = raise e s) ∨
      ∃ i, checkLive d s = .ok i ∧
        (t = respond statusNone 0 0 s ∨
          ∃ h, boundSlot (s.bank i) = .ok h ∧ t = positionAnswer (s.bank i) (s.slot h).mem s) := by
  unfold execGetPosition at hx
  rcases orRaise_next hx with h1 | ⟨i, hi, h1⟩
  · exact .inl h1
  · refine .inr ⟨i, hi, ?_⟩
    split at h1
    · exact .inl (by simpa using h1.symm)
    · obtain ⟨h, hh, h2⟩ := orFault_next h1
      exact .inr ⟨h, hh, by simpa using h2.symm⟩

theorem execGetAlive_next {d : Nat} {s t : State} (hx : execGetAlive d s = .next t) :
    (∃ e, checkLive d s = .error e ∧ t = raise e s) ∨
      ∃ i, checkLive d s = .ok i ∧
        t = respond statusOk (if signalPresent (s.bank i) then 1 else 0) 0 s :=
  (orRaise_next hx).imp id fun ⟨i, hi, h⟩ => ⟨i, hi, by simpa using h.symm⟩

theorem execGetSafe_next {d : Nat} {s t : State} (hx : execGetSafe d s = .next t) :
    (∃ e, checkLive d s = .error e ∧ t = raise e s) ∨
      ∃ i row, checkLive d s = .ok i ∧ bankRow s (s.bank i) = .ok row ∧
        t = respond statusOk (BitVec.ofNat 32 row.safe) 0 s :=
  (orRaise_next hx).imp id fun ⟨i, hi, h⟩ =>
    let ⟨row, hr, h2⟩ := orFault_next h
    ⟨i, row, hi, hr, by simpa using h2.symm⟩

theorem execGetResolution_next {d : Nat} {s t : State} (hx : execGetResolution d s = .next t) :
    (∃ e, checkLive d s = .error e ∧ t = raise e s) ∨
      ∃ i row, checkLive d s = .ok i ∧ bankRow s (s.bank i) = .ok row ∧
        t = respond statusOk (BitVec.ofNat 32 row.resolution) 0 s :=
  (orRaise_next hx).imp id fun ⟨i, hi, h⟩ =>
    let ⟨row, hr, h2⟩ := orFault_next h
    ⟨i, row, hi, hr, by simpa using h2.symm⟩

theorem execGetStatus_next {s t : State} (hx : execGetStatus s = .next t) :
    t = respond statusOk (s.errFlags.setWidth 32) 0 s := by
  simpa [execGetStatus] using hx.symm

/-! ## The step -/

/-- Everything a step can take: nothing, a reset, a legal word, an illegal one. -/
theorem step_next {s t : State} (h : step s = .next t) :
    (s.port = [] ∧ t = s) ∨
      (∃ rest, s.port = .reset :: rest ∧ t = hardwareReset { s with port := rest }) ∨
      (∃ w rest i, s.port = .command w :: rest ∧ decode w = .ok i ∧
        exec i { s with port := rest } = .next t) ∨
      ∃ w rest e, s.port = .command w :: rest ∧ decode w = .error e ∧
        t = raise .illegal { s with port := rest } := by
  unfold step at h
  split at h
  · next hp => exact .inl ⟨hp, by simpa using h.symm⟩
  · next rest hp => exact .inr (.inl ⟨rest, hp, by simpa using h.symm⟩)
  · next w rest hp =>
    split at h
    · next i hi => exact .inr (.inr (.inl ⟨w, rest, i, hp, hi, h⟩))
    · next e he => exact .inr (.inr (.inr ⟨w, rest, e, hp, he, by simpa using h.symm⟩))

end Sys2Proof.Machine
end

