-- ==== Sys2Proof/Laws/PerInstr.lean ====
section
/-! SUPPORT. Per-instruction families (LAWS.json). FieldsRoundTrip: the fields the encoder writes for a
well-formed command fit their widths, use only what the format uses, and assemble back to the command
(spec/30_encoding.md R40, R41, R44). -/

namespace Sys2Proof

/-- The five fields the encoder writes (R40). -/
def Instr.fieldsOf (i : Instr) : Fields :=
  ⟨i.opcode.number, i.unitField, i.auxField, 0, i.operandField⟩

theorem Instr.fieldsOf_op_lt (i : Instr) : i.fieldsOf.op < 256 := by
  cases i <;> exact of_decide_eq_true rfl

/-- The two halves of a stereo frame (R46). -/
theorem frame_eq (left right : Int) :
    frame left right = (right % 65536).toNat * 65536 + (left % 65536).toNat := by
  unfold frame
  rw [← Nat.shiftLeft_add_eq_or_of_lt (show (left % 65536).toNat < 2 ^ 16 by omega),
    Nat.shiftLeft_eq]

/-- `sext_16` undoes `mod 2^16` on a PCM value. -/
theorem sext16_emod {v : Int} (h : fitsPcm v = true) : sext16 (v % 65536).toNat = v := by
  simp only [fitsPcm, Bool.and_eq_true, decide_eq_true_eq] at h
  unfold sext16
  split <;> omega

end Sys2Proof

namespace Sys2Proof.Laws.FieldsRoundTrip

def Statement (i : Instr) : Prop :=
  i.wellFormed = true →
    Opcode.ofNumber i.fieldsOf.op = some i.opcode ∧
      i.opcode.format.unusedZero i.fieldsOf = true ∧ i.opcode.assemble i.fieldsOf = i ∧
      i.fieldsOf.op < 256 ∧ i.fieldsOf.unit < 256 ∧ i.fieldsOf.aux < 256 ∧
      i.fieldsOf.operand < 4294967296

theorem buildLookup (h variant : Nat) : Statement (.buildLookup h variant) := by
  intro hw
  simp only [Instr.wellFormed, fitsUnit, fitsOperand, Bool.and_eq_true, decide_eq_true_eq] at hw
  exact ⟨rfl, rfl, rfl, Instr.fieldsOf_op_lt _, hw.1, Nat.succ_pos _, hw.2⟩

theorem freeLookup (h : Nat) : Statement (.freeLookup h) := fun hw =>
  ⟨rfl, rfl, rfl, Instr.fieldsOf_op_lt _, of_decide_eq_true hw, Nat.succ_pos _, Nat.succ_pos _⟩

theorem init (d h : Nat) : Statement (.init d h) := by
  intro hw
  simp only [Instr.wellFormed, fitsUnit, Bool.and_eq_true, decide_eq_true_eq] at hw
  exact ⟨rfl, rfl, rfl, Instr.fieldsOf_op_lt _, hw.1, hw.2, Nat.succ_pos _⟩

theorem clear (d : Nat) : Statement (.clear d) := fun hw =>
  ⟨rfl, rfl, rfl, Instr.fieldsOf_op_lt _, of_decide_eq_true hw, Nat.succ_pos _, Nat.succ_pos _⟩

theorem rate (d r : Nat) : Statement (.rate d r) := by
  intro hw
  simp only [Instr.wellFormed, fitsUnit, fitsOperand, Bool.and_eq_true, decide_eq_true_eq] at hw
  exact ⟨rfl, rfl, rfl, Instr.fieldsOf_op_lt _, hw.1, Nat.succ_pos _, hw.2⟩

theorem sample (d : Nat) (left right : Int) : Statement (.sample d left right) := by
  intro hw
  simp only [Instr.wellFormed, fitsUnit, Bool.and_eq_true, decide_eq_true_eq] at hw
  obtain ⟨⟨hd, hl⟩, hr⟩ := hw
  refine ⟨rfl, rfl, ?_, Instr.fieldsOf_op_lt _, hd, Nat.succ_pos _, ?_⟩
  · simp only [Instr.fieldsOf, Instr.opcode, Opcode.assemble, Instr.unitField, Instr.operandField,
      frame_eq]
    rw [show ((right % 65536).toNat * 65536 + (left % 65536).toNat) % 65536 = (left % 65536).toNat by
        omega,
      show ((right % 65536).toNat * 65536 + (left % 65536).toNat) / 65536 = (right % 65536).toNat by
        omega,
      sext16_emod hl, sext16_emod hr]
  · simp only [Instr.fieldsOf, Instr.operandField, frame_eq]
    omega

theorem getPitch (d : Nat) : Statement (.getPitch d) := fun hw =>
  ⟨rfl, rfl, rfl, Instr.fieldsOf_op_lt _, of_decide_eq_true hw, Nat.succ_pos _, Nat.succ_pos _⟩

theorem getPosition (d : Nat) : Statement (.getPosition d) := fun hw =>
  ⟨rfl, rfl, rfl, Instr.fieldsOf_op_lt _, of_decide_eq_true hw, Nat.succ_pos _, Nat.succ_pos _⟩

theorem getAlive (d : Nat) : Statement (.getAlive d) := fun hw =>
  ⟨rfl, rfl, rfl, Instr.fieldsOf_op_lt _, of_decide_eq_true hw, Nat.succ_pos _, Nat.succ_pos _⟩

theorem getSafe (d : Nat) : Statement (.getSafe d) := fun hw =>
  ⟨rfl, rfl, rfl, Instr.fieldsOf_op_lt _, of_decide_eq_true hw, Nat.succ_pos _, Nat.succ_pos _⟩

theorem getResolution (d : Nat) : Statement (.getResolution d) := fun hw =>
  ⟨rfl, rfl, rfl, Instr.fieldsOf_op_lt _, of_decide_eq_true hw, Nat.succ_pos _, Nat.succ_pos _⟩

theorem getStatus : Statement .getStatus := fun _ =>
  ⟨rfl, rfl, rfl, Instr.fieldsOf_op_lt _, Nat.succ_pos _, Nat.succ_pos _, Nat.succ_pos _⟩

end Sys2Proof.Laws.FieldsRoundTrip
end

