-- ==== Sys2Proof/Laws/Period.lean ====
section
/-! SUPPORT. No row of the registry wraps (spec/41_lookup.md R57; spec/95_test_vectors.md section 2.3): the
period of every seed is `2^B − 1`, more than the row's length. `Fwd` is linear over exclusive-or, so its powers
are reached by squaring a matrix, and the period is checked at the prime cofactors of `2^B − 1`. -/

namespace Sys2Proof.Machine

/-! ## `Fwd` is linear -/

@[simp] theorem parityBelow_zero_right (n : Nat) : parityBelow n 0 = 0 := by
  induction n with
  | zero => rfl
  | succ n ih => simp [parityBelow, ih]

theorem parityBelow_of_lt {n x : Nat} (h : x < 2 ^ n) : parityBelow n x = parity x := by
  have low : ∀ {m k x : Nat}, x < 2 ^ m → parityBelow (m + k) x = parityBelow m x := by
    intro m
    induction m with
    | zero =>
      intro k x hx
      obtain rfl : x = 0 := by simpa using hx
      simp
    | succ m ih =>
      intro k x hx
      rw [show m + 1 + k = m + k + 1 by omega]
      simp only [parityBelow]
      rw [ih (by rw [pow_succ] at hx; omega)]
  unfold parity
  rcases Nat.eq_zero_or_pos x with rfl | hx
  · simp
  · have hl : Nat.log2 x + 1 ≤ n := (Nat.log2_lt (Nat.ne_of_gt hx)).mpr h
    obtain ⟨k, rfl⟩ := Nat.exists_eq_add_of_le hl
    exact low Nat.lt_log2_self

theorem parityBelow_xor (n x y : Nat) :
    parityBelow n (x ^^^ y) = parityBelow n x ^^^ parityBelow n y := by
  induction n generalizing x y with
  | zero => simp [parityBelow]
  | succ n ih =>
    simp only [parityBelow]
    rw [Nat.xor_div_two, ih, show (x ^^^ y) % 2 = x % 2 ^^^ y % 2 by
      simpa using Nat.xor_mod_two_pow (a := x) (b := y) (n := 1)]
    simp only [Nat.xor_assoc, Nat.xor_left_comm]

theorem parity_xor (x y : Nat) : parity (x ^^^ y) = parity x ^^^ parity y := by
  have hx : x < 2 ^ (x + y) := Nat.lt_of_lt_of_le Nat.lt_two_pow_self
    (Nat.pow_le_pow_right (by decide) (Nat.le_add_right x y))
  have hy : y < 2 ^ (x + y) := Nat.lt_of_lt_of_le Nat.lt_two_pow_self
    (Nat.pow_le_pow_right (by decide) (Nat.le_add_left y x))
  rw [← parityBelow_of_lt (Nat.xor_lt_two_pow hx hy), parityBelow_xor, parityBelow_of_lt hx,
    parityBelow_of_lt hy]

theorem parityBelow_lt_two (n x : Nat) : parityBelow n x < 2 := by
  induction n generalizing x with
  | zero => exact Nat.two_pos
  | succ n ih => exact Nat.xor_lt_two_pow (n := 1) (by omega) (ih _)

theorem parity_lt_two (x : Nat) : parity x < 2 := parityBelow_lt_two _ _

/-- Below `2^B` the two parts of `Fwd` share no bit. -/
theorem fwd_eq_xor {c B t : Nat} (hB : 1 ≤ B) (hc : c < 2 ^ B) :
    fwd c B t = (c >>> 1) ^^^ (parity (c &&& (t ||| 1)) <<< (B - 1)) := by
  have hlow : c >>> 1 < 2 ^ (B - 1) := by
    rw [Nat.shiftRight_eq_div_pow]
    have := Nat.pow_succ (n := 2) (m := B - 1)
    rw [Nat.succ_eq_add_one, Nat.sub_add_cancel hB] at this
    omega
  apply Nat.eq_of_testBit_eq
  intro i
  unfold fwd
  rw [Nat.testBit_or, Nat.testBit_xor, Nat.testBit_shiftLeft]
  by_cases hi : B - 1 ≤ i
  · rw [Nat.testBit_lt_two_pow (Nat.lt_of_lt_of_le hlow (Nat.pow_le_pow_right (by decide) hi))]
    simp
  · simp [hi]

theorem fwd_lt {c B t : Nat} (hB : 1 ≤ B) (hc : c < 2 ^ B) : fwd c B t < 2 ^ B := by
  rw [fwd_eq_xor hB hc]
  refine Nat.xor_lt_two_pow (Nat.lt_of_le_of_lt (Nat.shiftRight_le _ _) hc) ?_
  rw [Nat.shiftLeft_eq]
  have := Nat.pow_succ (n := 2) (m := B - 1)
  rw [Nat.succ_eq_add_one, Nat.sub_add_cancel hB] at this
  have hp := parity_lt_two (c &&& (t ||| 1))
  rw [this, Nat.mul_comm (2 ^ (B - 1)) 2]
  exact Nat.mul_lt_mul_of_pos_right hp (Nat.two_pow_pos _)

theorem fwd_xor {a b B t : Nat} (hB : 1 ≤ B) (ha : a < 2 ^ B) (hb : b < 2 ^ B) :
    fwd (a ^^^ b) B t = fwd a B t ^^^ fwd b B t := by
  rw [fwd_eq_xor hB (Nat.xor_lt_two_pow ha hb), fwd_eq_xor hB ha, fwd_eq_xor hB hb,
    Nat.shiftRight_xor_distrib, Nat.and_xor_distrib_right, parity_xor, Nat.shiftLeft_xor_distrib]
  simp only [Nat.xor_assoc, Nat.xor_left_comm]

/-! ## Powers by squaring a matrix -/

/-- The exclusive-or of the columns that the bits of `x` select. -/
def columns : List Nat → Nat → Nat
  | [], _ => 0
  | m :: ms, x => (if x % 2 = 1 then m else 0) ^^^ columns ms (x / 2)

@[simp] theorem columns_zero_right (ms : List Nat) : columns ms 0 = 0 := by
  induction ms with
  | nil => rfl
  | cons m ms ih => simp [columns, ih]

theorem columns_xor (ms : List Nat) (x y : Nat) :
    columns ms (x ^^^ y) = columns ms x ^^^ columns ms y := by
  induction ms generalizing x y with
  | nil => simp [columns]
  | cons m ms ih =>
    simp only [columns]
    rw [Nat.xor_div_two, ih, show (x ^^^ y) % 2 = x % 2 ^^^ y % 2 by
      simpa using Nat.xor_mod_two_pow (a := x) (b := y) (n := 1)]
    rcases Nat.mod_two_eq_zero_or_one x with hx | hx <;>
      rcases Nat.mod_two_eq_zero_or_one y with hy | hy <;>
      simp [hx, hy, Nat.xor_assoc, Nat.xor_left_comm]

/-- Mapping the columns by a matrix composes the two. -/
theorem columns_map (ms ns : List Nat) (x : Nat) :
    columns (ns.map (columns ms)) x = columns ms (columns ns x) := by
  induction ns generalizing x with
  | nil => simp [columns]
  | cons n ns ih =>
    simp only [List.map_cons, columns, ih, columns_xor]
    split <;> simp

/-- The images of `2^i .. 2^(i+B-1)`. -/
def basisImages (f : Nat → Nat) : (B i : Nat) → List Nat
  | 0, _ => []
  | B + 1, i => f (2 ^ i) :: basisImages f B (i + 1)

theorem columns_basisImages {f : Nat → Nat} {N : Nat} (h0 : f 0 = 0)
    (hf : ∀ a b, a < 2 ^ N → b < 2 ^ N → f (a ^^^ b) = f a ^^^ f b) :
    ∀ B i x, B + i = N → x < 2 ^ B → columns (basisImages f B i) x = f (x <<< i) := by
  intro B
  induction B with
  | zero =>
    intro i x _ hx
    obtain rfl : x = 0 := by simpa using hx
    simp [basisImages, h0]
  | succ B ih =>
    intro i x hN hx
    have hx2 : x / 2 < 2 ^ B := by rw [pow_succ] at hx; omega
    simp only [basisImages, columns]
    rw [ih (i + 1) (x / 2) (by omega) hx2]
    have hhigh : (x / 2) <<< (i + 1) < 2 ^ N := by
      rw [Nat.shiftLeft_eq, show N = B + (i + 1) by omega, Nat.pow_add 2 B (i + 1)]
      exact Nat.mul_lt_mul_of_pos_right hx2 (Nat.two_pow_pos _)
    have hlow : 2 ^ i < 2 ^ N := Nat.pow_lt_pow_right (by decide) (by omega)
    have hsplit : x <<< i = (if x % 2 = 1 then 2 ^ i else 0) ^^^ ((x / 2) <<< (i + 1)) := by
      apply Nat.eq_of_testBit_eq
      intro j
      rw [Nat.testBit_xor, Nat.testBit_shiftLeft, Nat.testBit_shiftLeft]
      rcases Nat.lt_trichotomy j i with hj | rfl | hj
      · have h1 : ¬ i ≤ j := by omega
        have h2 : ¬ i + 1 ≤ j := by omega
        have h3 : i ≠ j := by omega
        split <;> simp [h1, h2, Nat.testBit_two_pow_of_ne h3]
      · rcases Nat.mod_two_eq_zero_or_one x with hb | hb <;>
          simp [hb, Nat.testBit_zero, show ¬ j + 1 ≤ j by omega]
      · have h3 : i ≠ j := by omega
        rw [show j - i = (j - (i + 1)) + 1 by omega, Nat.testBit_succ]
        split <;> simp [show i ≤ j by omega, show i + 1 ≤ j by omega,
          Nat.testBit_two_pow_of_ne h3]
    rw [hsplit]
    split
    · rw [hf _ _ hlow hhigh]
    · simp

/-- `n` steps of a matrix, by the bits of `n`. -/
def power : (fuel : Nat) → List Nat → (n x : Nat) → Nat
  | 0, _, _, x => x
  | fuel + 1, ms, n, x =>
    power fuel (ms.map (columns ms)) (n / 2) (if n % 2 = 1 then columns ms x else x)

theorem power_eq_iterate (fuel : Nat) (ms : List Nat) (n x : Nat) (h : n < 2 ^ fuel) :
    power fuel ms n x = (columns ms)^[n] x := by
  induction fuel generalizing ms n x with
  | zero =>
    obtain rfl : n = 0 := by simpa using h
    rfl
  | succ fuel ih =>
    have hsq : columns (ms.map (columns ms)) = (columns ms)^[2] := funext fun y => columns_map ms ms y
    simp only [power]
    rw [ih _ _ _ (by rw [pow_succ] at h; omega), hsq, ← Function.iterate_mul]
    rcases Nat.mod_two_eq_zero_or_one n with hb | hb
    · rw [if_neg (by omega), show 2 * (n / 2) = n by omega]
    · rw [if_pos hb, ← Function.iterate_succ_apply, show (2 * (n / 2)).succ = n by omega]

/-- The matrix of `Fwd`. -/
def fwdMatrix (B t : Nat) : List Nat := basisImages (fun c => fwd c B t) B 0

theorem iterate_fwd_lt {B t c : Nat} (hB : 1 ≤ B) (hc : c < 2 ^ B) (n : Nat) :
    (fun x => fwd x B t)^[n] c < 2 ^ B := by
  induction n with
  | zero => exact hc
  | succ n ih => rw [Function.iterate_succ_apply']; exact fwd_lt hB ih

theorem power_fwdMatrix {B t c n fuel : Nat} (hB : 1 ≤ B) (hc : c < 2 ^ B) (hn : n < 2 ^ fuel) :
    power fuel (fwdMatrix B t) n c = (fun x => fwd x B t)^[n] c := by
  rw [power_eq_iterate _ _ _ _ hn]
  clear hn
  induction n with
  | zero => rfl
  | succ n ih =>
    rw [Function.iterate_succ_apply', Function.iterate_succ_apply', ih]
    have h0 : fwd 0 B t = 0 := by simp [fwd, parity]
    simpa [fwdMatrix] using columns_basisImages (f := fun c => fwd c B t) h0
      (fun a b ha hb => fwd_xor hB ha hb) B 0 _ (by omega) (iterate_fwd_lt hB hc n)

/-! ## The period of a seed -/

/-- A point of period `P` none of whose prime cofactors is a period has minimal period `P`. -/
theorem minimalPeriod_eq_of_cofactors {f : Nat → Nat} {x P : Nat} (h : f^[P] x = x)
    (hp : ∀ p, p.Prime → p ∣ P → f^[P / p] x ≠ x) : Function.minimalPeriod f x = P := by
  have hd : Function.minimalPeriod f x ∣ P := Function.IsPeriodicPt.minimalPeriod_dvd h
  obtain ⟨k, hk⟩ := hd
  by_contra hne
  have hk1 : k ≠ 1 := fun e => hne (by rw [hk, e, Nat.mul_one])
  have hkp := Nat.minFac_prime hk1
  obtain ⟨q, hq⟩ := Nat.minFac_dvd k
  refine hp _ hkp ⟨Function.minimalPeriod f x * q, ?_⟩ ?_
  · rw [hk]; conv_lhs => rw [hq]
    ring
  · have : P / k.minFac = Function.minimalPeriod f x * q := by
      apply Nat.div_eq_of_eq_mul_left hkp.pos
      rw [hk]; conv_lhs => rw [hq]
      ring
    rw [this]
    exact ((Function.isPeriodicPt_minimalPeriod f x).mul_const q)

/-- The addresses the loop writes are the iterates of `Fwd`, last first. -/
theorem map_fst_tableCells (B taps k n c : Nat) (acc : List (Nat × Word)) :
    (tableCells B taps k n c acc).map (·.1) =
      ((List.range k).map fun i => (fun x => fwd x B taps)^[i] c).reverse ++ acc.map (·.1) := by
  induction k generalizing n c acc with
  | zero => simp [tableCells]
  | succ k ih =>
    simp only [tableCells, ih, List.range_succ_eq_map, List.map_cons, List.map_map, List.reverse_cons,
      List.append_assoc, List.cons_append, List.nil_append]
    rfl

/-- A row whose length does not exceed the period of its seed does not wrap. -/
theorem buildTable_ne_none {m : Memory} (hm : m.wf) {row : TimecodeDef} (hr : RowInRange row)
    (hp : row.length ≤ Function.minimalPeriod (fun x => fwd x row.bits row.taps) row.seed) :
    buildTable m row ≠ none := by
  intro hn
  have hcells := fillTable_cells (B := row.bits) (taps := row.taps) (current := row.seed)
    (m := m.clearBelow (2 ^ (row.bits + 1))) (acc := m.clearBelow (2 ^ (row.bits + 1)))
    (n := 0) (k := row.length) (by have := hr.length; omega) (Memory.clearBelow_wf hm _) (.refl _)
  unfold buildTable at hn
  rw [hn, map_fst_tableCells] at hcells
  refine hcells (List.nodup_append.mpr ⟨?_, ?_, ?_⟩)
  · rw [List.nodup_reverse]
    refine List.Nodup.map_on (fun i hi j hj e => ?_) List.nodup_range
    exact Function.iterate_injOn_Iio_minimalPeriod
      (Set.mem_Iio.mpr (Nat.lt_of_lt_of_le (List.mem_range.mp hi) hp))
      (Set.mem_Iio.mpr (Nat.lt_of_lt_of_le (List.mem_range.mp hj) hp)) e
  · rw [List.Nodup, List.pairwise_map]
    exact (Memory.clearBelow_wf hm _).1.imp fun h => Nat.ne_of_lt h
  · rintro a ha b hb rfl
    simp only [List.mem_reverse, List.mem_map] at ha hb
    obtain ⟨i, _, rfl⟩ := ha
    obtain ⟨c, hc, he⟩ := hb
    have h1 : 2 ^ (row.bits + 1) ≤ c.1 := by simpa [Memory.clearBelow] using (List.mem_filter.mp hc).2
    have h2 := iterate_fwd_lt (t := row.taps) hr.bits.1 hr.seed i
    rw [pow_succ] at h1
    omega

/-- A seed of a 20-bit row, checked at the cofactors of `2^20 − 1 = 3 · 5^2 · 11 · 31 · 41`. -/
def fullPeriod20 (t seed : Nat) : Bool :=
  power 20 (fwdMatrix 20 t) 1048575 seed == seed &&
    [349525, 209715, 95325, 33825, 25575].all fun n => power 20 (fwdMatrix 20 t) n seed != seed

/-- A seed of a 23-bit row, checked at the cofactors of `2^23 − 1 = 47 · 178481`. -/
def fullPeriod23 (t seed : Nat) : Bool :=
  power 23 (fwdMatrix 23 t) 8388607 seed == seed &&
    [178481, 47].all fun n => power 23 (fwdMatrix 23 t) n seed != seed

theorem minimalPeriod_20 {t seed : Nat} (hs : seed < 2 ^ 20) (h : fullPeriod20 t seed = true) :
    Function.minimalPeriod (fun x => fwd x 20 t) seed = 1048575 := by
  simp only [fullPeriod20, Bool.and_eq_true, beq_iff_eq, List.all_cons, List.all_nil, bne_iff_ne,
    and_true] at h
  obtain ⟨hP, h3, h5, h11, h31, h41⟩ := h
  rw [power_fwdMatrix (by decide) hs (by decide)] at hP h3 h5 h11 h31 h41
  refine minimalPeriod_eq_of_cofactors hP fun p hp hd => ?_
  have hf : 1048575 = 3 * (5 * (5 * (11 * (31 * 41)))) := by norm_num
  rw [hf] at hd
  have one : ∀ {q : Nat}, q.Prime → p ∣ q → p = q := fun hq h =>
    (Nat.prime_dvd_prime_iff_eq hp hq).mp h
  rcases (hp.dvd_mul).mp hd with h | hd
  · rw [one (by norm_num) h]; exact h3
  rcases (hp.dvd_mul).mp hd with h | hd
  · rw [one (by norm_num) h]; exact h5
  rcases (hp.dvd_mul).mp hd with h | hd
  · rw [one (by norm_num) h]; exact h5
  rcases (hp.dvd_mul).mp hd with h | hd
  · rw [one (by norm_num) h]; exact h11
  rcases (hp.dvd_mul).mp hd with h | h
  · rw [one (by norm_num) h]; exact h31
  · rw [one (by norm_num) h]; exact h41

theorem minimalPeriod_23 {t seed : Nat} (hs : seed < 2 ^ 23) (h : fullPeriod23 t seed = true) :
    Function.minimalPeriod (fun x => fwd x 23 t) seed = 8388607 := by
  simp only [fullPeriod23, Bool.and_eq_true, beq_iff_eq, List.all_cons, List.all_nil, bne_iff_ne,
    and_true] at h
  obtain ⟨hP, h47, h178481⟩ := h
  rw [power_fwdMatrix (by decide) hs (by decide)] at hP h47 h178481
  refine minimalPeriod_eq_of_cofactors hP fun p hp hd => ?_
  have hf : 8388607 = 47 * 178481 := by norm_num
  rw [hf] at hd
  rcases (hp.dvd_mul).mp hd with h | h
  · rw [(Nat.prime_dvd_prime_iff_eq hp (by norm_num)).mp h]; exact h47
  · rw [(Nat.prime_dvd_prime_iff_eq hp (by norm_num)).mp h]; exact h178481

/-- The full-period checks of the five rows, computed. -/
theorem serato_2a_fullPeriod : fullPeriod20 0x361e4 0x59017 = true := by decide +kernel
theorem serato_2b_fullPeriod : fullPeriod20 0x4f0d8 0x8f3c6 = true := by decide +kernel
theorem serato_cd_fullPeriod : fullPeriod20 0x34d54 0x84c0c = true := by decide +kernel
theorem traktor_a_fullPeriod : fullPeriod23 0x041040 0x134503 = true := by decide +kernel
theorem traktor_b_fullPeriod : fullPeriod23 0x041040 0x32066c = true := by decide +kernel

/-- "none of the five registry variants wraps" (R57). -/
theorem registry_buildTable_ne_none {m : Memory} (hm : m.wf) {row : TimecodeDef}
    (hr : row ∈ registry) (hrange : RowInRange row) : buildTable m row ≠ none := by
  refine buildTable_ne_none hm hrange ?_
  simp only [registry, List.mem_cons, List.not_mem_nil, or_false] at hr
  rcases hr with rfl | rfl | rfl | rfl | rfl
  · rw [minimalPeriod_20 (by decide) serato_2a_fullPeriod]; decide
  · rw [minimalPeriod_20 (by decide) serato_2b_fullPeriod]; decide
  · rw [minimalPeriod_20 (by decide) serato_cd_fullPeriod]; decide
  · rw [minimalPeriod_23 (by decide) traktor_a_fullPeriod]; decide
  · rw [minimalPeriod_23 (by decide) traktor_b_fullPeriod]; decide

end Sys2Proof.Machine
end

