-- ==== Sys2Proof/Laws/Table.lean ====
section
/-! SUPPORT. A memory that lists exactly the cells of a row's cycle holds the table of the row
(spec/10_state.md R19). -/

namespace Sys2Proof.Machine

theorem Memory.read_of_mem {m : Memory} (hm : m.wf) {a : Nat} {v : Word} (h : (a, v) ∈ m) :
    m.read a = v := by
  have hs := hm.1
  clear hm
  induction m with
  | nil => cases h
  | cons c m ih =>
    obtain ⟨b, x⟩ := c
    obtain ⟨hb, hs⟩ := List.pairwise_cons.mp hs
    rcases List.mem_cons.mp h with e | h
    · cases e; simp [Memory.read]
    · simp [Memory.read, Nat.ne_of_lt (hb _ h), ih h hs]

theorem Memory.mem_of_read {m : Memory} {a : Nat} (h : m.read a ≠ Memory.sentinel) :
    (a, m.read a) ∈ m := by
  induction m with
  | nil => exact absurd rfl h
  | cons c m ih =>
    obtain ⟨b, x⟩ := c
    by_cases hb : b = a
    · subst hb; simp [Memory.read]
    · simp only [Memory.read, if_neg hb] at h ⊢
      exact .tail _ (ih h)

/-- The cells of a row's cycle, each with its index. -/
theorem mem_tableCells {B taps k n c : Nat} {acc : List (Nat × Word)} {x : Nat × Word} :
    x ∈ tableCells B taps k n c acc ↔
      x ∈ acc ∨ ∃ i, i < k ∧ x = ((fun y => fwd y B taps)^[i] c, BitVec.ofNat 32 (n + i)) := by
  induction k generalizing n c acc with
  | zero => simp [tableCells]
  | succ k ih =>
    simp only [tableCells, ih, List.mem_cons]
    constructor
    · rintro ((rfl | h) | ⟨i, hi, rfl⟩)
      · exact .inr ⟨0, Nat.succ_pos k, rfl⟩
      · exact .inl h
      · exact .inr ⟨i + 1, by omega, by
          rw [Function.iterate_succ_apply, show n + (i + 1) = n + 1 + i by omega]⟩
    · rintro (h | ⟨i, hi, rfl⟩)
      · exact .inl (.inr h)
      · cases i with
        | zero => exact .inl (.inl rfl)
        | succ i => exact .inr ⟨i, by omega, by
            rw [Function.iterate_succ_apply, show n + (i + 1) = n + 1 + i by omega]⟩

theorem toInt_ofNat_index {n : Nat} (h : n < 2 ^ 31) : (BitVec.ofNat 32 n).toInt = n := by
  rw [BitVec.toInt_eq_toNat_cond, BitVec.toNat_ofNat]
  have : n % 2 ^ 32 = n := Nat.mod_eq_of_lt (by omega)
  rw [this, if_pos (by omega)]

/-- The table of a row, from the list of its cells. -/
theorem tableFor_of_cells {row : TimecodeDef} {m : Memory} (hr : RowInRange row) (hm : m.wf)
    (hp : m.Perm (tableCells row.bits row.taps row.length 0 row.seed [])) : TableFor row m := by
  let f := fun y => fwd y row.bits row.taps
  have hlen := hr.length
  have lt : ∀ n, f^[n] row.seed < 2 ^ row.bits := iterate_fwd_lt hr.bits.1 hr.seed
  have entry : ∀ n, n < row.length → (m.read (f^[n] row.seed)).toInt = n := fun n hn => by
    rw [Memory.read_of_mem hm (hp.mem_iff.mpr (mem_tableCells.mpr (.inr ⟨n, hn, rfl⟩))), Nat.zero_add]
    exact toInt_ofNat_index (by omega)
  have index : ∀ a, (m.read a).toInt ≠ -1 → ∃ n, n < row.length ∧ a = f^[n] row.seed := fun a ha => by
    have hne : m.read a ≠ Memory.sentinel := fun e => ha (by rw [e]; decide)
    rcases mem_tableCells.mp (hp.mem_iff.mp (Memory.mem_of_read hne)) with h | ⟨n, hn, e⟩
    · cases h
    · exact ⟨n, hn, congrArg Prod.fst e⟩
  have inj : ∀ i j, i < row.length → j < row.length → f^[i] row.seed = f^[j] row.seed → i = j :=
    fun i j hi hj e => by
      have h := entry i hi
      rw [e, entry j hj] at h
      omega
  constructor
  · rw [show ((Finset.range (2 ^ row.bits)).filter fun a => 0 ≤ (m.read a).toInt) =
        (Finset.range row.length).image fun n => f^[n] row.seed by
      ext a
      simp only [Finset.mem_filter, Finset.mem_range, Finset.mem_image]
      constructor
      · rintro ⟨_, h⟩
        obtain ⟨n, hn, e⟩ := index a (by omega)
        exact ⟨n, hn, e.symm⟩
      · rintro ⟨n, hn, rfl⟩
        exact ⟨lt n, by rw [entry n hn]; omega⟩]
    rw [Finset.card_image_of_injOn fun i hi j hj e =>
      inj i j (Finset.mem_range.mp hi) (Finset.mem_range.mp hj) e, Finset.card_range]
  · refine fun n hn => ⟨f^[n] row.seed, ⟨lt n, entry n hn⟩, ?_⟩
    rintro a ⟨_, ha⟩
    obtain ⟨k, hk, rfl⟩ := index a (by omega)
    rw [entry k hk] at ha
    rw [show k = n by omega]
  · exact fun h => entry 0 h
  · intro a _ ha
    obtain ⟨n, hn, rfl⟩ := index a ha
    rw [entry n hn]
    exact ⟨lt n, by omega, by omega⟩
  · intro a _ h0 h1
    obtain ⟨n, hn, rfl⟩ := index a (by omega)
    rw [entry n hn] at h1 ⊢
    have h := entry (n + 1) (by omega)
    rw [Function.iterate_succ_apply'] at h
    simpa using h

end Sys2Proof.Machine
end

