-- ==== Sys2Proof/Tests/Slice0.lean ====
section
/-! SUPPORT. Tests whose expected values come from spec/95_test_vectors.md and the rules, and one witness for each
statement that has hypotheses. -/

namespace Sys2Proof.Tests

open Sys2Proof Sys2Proof.Machine

/-! ## Small states -/

/-- A bank in force at 44100 samples per second, as after INIT and RATE. -/
def fresh : Decoder := (Decoder.initial 0).withRate 44100

/-- Slot 0 valid with a variant and a memory, bank 0 as given, bank 1 not live. -/
def stateOf (variant : BitVec 3) (m : Memory) (D : Decoder) : State :=
  (State.reset.setSlot 0 { valid := true, variant := variant, mem := m }).setBank 0 D

/-- Slot 0 for serato_2a with an empty memory, bank 0 ready to sample. -/
def ready : State := stateOf 0 [] fresh

/-- What a result answered. -/
def answerOf : Result → Option ResponseWord
  | .next t => t.responses.head?
  | .fault _ => none
  | .refused _ => none

/-- A field of bank 0 in a result. -/
def bankOf {α : Type} (o : Result) (f : Decoder → α) : Option α :=
  match o with
  | .next t => some (f (t.bank 0))
  | .fault _ => none
  | .refused _ => none

/-- The error flags in a result. -/
def flagsOf : Result → Option (BitVec 9)
  | .next t => some t.errFlags
  | .fault _ => none
  | .refused _ => none

/-! ## Well-formedness -/

theorem test_wellFormed_refuses :
    (Instr.buildLookup 256 0).wellFormed = false ∧ (Instr.buildLookup 0 4294967296).wellFormed = false ∧
      (Instr.freeLookup 256).wellFormed = false ∧ (Instr.init 256 0).wellFormed = false ∧
      (Instr.init 0 256).wellFormed = false ∧ (Instr.clear 256).wellFormed = false ∧
      (Instr.rate 256 0).wellFormed = false ∧ (Instr.rate 0 4294967296).wellFormed = false := by decide

theorem test_wellFormed_refuses_frames_and_queries :
    (Instr.sample 256 0 0).wellFormed = false ∧ (Instr.sample 0 32768 0).wellFormed = false ∧
      (Instr.sample 0 0 (-32769)).wellFormed = false ∧ (Instr.getPitch 256).wellFormed = false ∧
      (Instr.getPosition 256).wellFormed = false ∧ (Instr.getAlive 256).wellFormed = false ∧
      (Instr.getSafe 256).wellFormed = false ∧ (Instr.getResolution 256).wellFormed = false := by decide

/-! ## Decoding: words written out from R40, R44 and the programs of the spec -/

theorem test_decode_buildLookup : decode 0x01000000FFFFFFFF = .ok (.buildLookup 0 4294967295) := by decide
theorem test_decode_freeLookup : decode 0x0201000000000000 = .ok (.freeLookup 1) := by decide
theorem test_decode_init : decode 0x0301020000000000 = .ok (.init 1 2) := by decide
theorem test_decode_clear : decode 0x0401000000000000 = .ok (.clear 1) := by decide
theorem test_decode_rate : decode 0x050000000000AC44 = .ok (.rate 0 44100) := by decide
theorem test_decode_sample : decode 0x06010000FA24FE0C = .ok (.sample 1 (-500) (-1500)) := by decide
theorem test_decode_getPitch : decode 0x0701000000000000 = .ok (.getPitch 1) := by decide
theorem test_decode_getPosition : decode 0x0801000000000000 = .ok (.getPosition 1) := by decide
theorem test_decode_getAlive : decode 0x0901000000000000 = .ok (.getAlive 1) := by decide
theorem test_decode_getSafe : decode 0x0A01000000000000 = .ok (.getSafe 1) := by decide
theorem test_decode_getResolution : decode 0x0B01000000000000 = .ok (.getResolution 1) := by decide
theorem test_decode_getStatus : decode 0x0C00000000000000 = .ok .getStatus := by decide

theorem test_decode_illegal :
    decode 0 = .error .badOpcode ∧ decode 0x0D00000000000000 = .error .badOpcode ∧
      decode 0xFFFFFFFFFFFFFFFF = .error .badOpcode ∧ decode 0x0C00000000000001 = .error .unusedNotZero ∧
      decode 0x0400000100000000 = .error .rsvNotZero ∧ decode 0x050001000000AC44 = .error .unusedNotZero ∧
      decode 0x0700000000000005 = .error .unusedNotZero ∧
      decode 0x0C01000000000000 = .error .unusedNotZero := by decide

theorem test_encode_sample : encode (.sample 0 2047 (-32768)) = 0x06000000800007FF := by decide

theorem test_decodeTableWord :
    decodeTableWord 64 0x0301000000000000 = some (.init 1 0) ∧
      decodeTableWord 64 0x0D00000000000000 = none := by decide

/-! ## Pure functions (section 2.1, 2.4, 2.5, 2.6) -/

theorem test_lfsr :
    parity 0x10005 = 1 ∧ parity 0xFFFFF = 0 ∧ fwd 0x59017 20 0x361E4 = 0xAC80B ∧
      rev 0x59017 20 0x361E4 = 0xB202F ∧ fwd 0x80001 20 0x361E4 = 0xC0000 ∧ rev 3 20 0x361E4 = 7 ∧
      fwd 0x134503 23 0x041040 = 0x49A281 ∧ rev 0x134503 23 0x041040 = 0x268A07 := by decide +kernel

theorem test_channelStep :
    channelStep ⟨0, false, 1⟩ 1000 1453 = (⟨1453000, true, 0⟩, true) ∧
      channelStep ⟨2873785, true, 1⟩ (-32768) 1453 = (⟨-44801834, false, 0⟩, true) ∧
      channelStep ⟨3862926, true, 1⟩ 20 1453 = (⟨3806340, true, 2⟩, false) ∧
      channelStep ⟨0, true, 0⟩ (-128) 0 = (⟨0, true, 1⟩, false) ∧
      channelStep ⟨10, false, 0⟩ 0 1453 = (⟨9, false, 1⟩, false) := by decide

theorem test_coefficients :
    (zeroCoeff 44100, signalCoeff 44100) = (1453, 369) ∧ (zeroCoeff 1, signalCoeff 1) = (65470, 65274) ∧
      (zeroCoeff 16383751, signalCoeff 16383751) = (3, 0) ∧
      (zeroCoeff 65535001, signalCoeff 4294967295) = (0, 0) := by decide

theorem test_flags :
    isHalfCycle false true true = true ∧ isHalfCycle true true true = false ∧
      isHalfCycle true true false = true ∧ bitDecision 60 40 100 = false ∧
      bitDecision 60 41 100 = true ∧ bitDecision 5 5 (-1) = false ∧
      adaptedRef 76899600 190544058 = 79267192 ∧ adaptedRef (-1) 0 = 0 := by decide

/-! ## BUILD_LOOKUP and FREE_LOOKUP (section 2.2, program P5) -/

/-- A row of section 2.2. -/
def toy (length : Nat) : TimecodeDef := ⟨"toy", 4, 1000, true, 1, 0x8, length, 0⟩

theorem test_buildLookup_toy :
    (match buildLookupFrom [toy 5] 32 0 0 State.reset with
      | .next t => some ((t.slot 0).valid, (t.slot 0).mem, t.responses.head?)
      | _ => none) =
      some (true, [(1, 0), (8, 1), (12, 2), (14, 3), (15, 4)], some (responseWord 0 0 0)) := by
  decide +kernel

theorem test_buildLookup_errors :
    answerOf (execBuildLookup 0 7 State.reset) = some (responseWord 0x11 0 0) ∧
      answerOf (execBuildLookup 1 0 State.reset) = some (responseWord 0x14 0 0) ∧
      answerOf (execBuildLookup 0 1 ready) = some (responseWord 0x17 0 0) ∧
      flagsOf (buildLookupFrom [toy 16] 32 0 0 State.reset) = some 0x004 ∧
      flagsOf (buildLookupFrom [toy 5] 31 0 0 State.reset) = some 0x008 := by decide +kernel

theorem test_freeLookup_busy : answerOf (execFreeLookup 0 ready) = some (responseWord 0x17 0 0) := by
  decide

theorem test_freeLookup :
    (match execFreeLookup 0 (stateOf 0 [] Decoder.reset) with
      | .next t => some ((t.slot 0).valid, t.errFlags)
      | _ => none) = some (false, 0) := by decide

/-! ## Lifecycle (program P5) -/

theorem test_init :
    bankOf (execInit 0 0 ready) (fun D => (D.forwards, D.refLevel.toInt, D.rateValid, D.zeroAlpha)) =
      some (true, -1, false, 0) := by decide

theorem test_init_errors :
    answerOf (execInit 0 1 ready) = some (responseWord 0x14 0 0) ∧
      answerOf (execInit 2 0 ready) = some (responseWord 0x14 0 0) ∧
      answerOf (execInit 0 0 State.reset) = some (responseWord 0x16 0 0) := by decide

theorem test_clear : bankOf (execClear 0 ready) (·.live) = some false := by decide

theorem test_clear_not_live : answerOf (execClear 1 ready) = some (responseWord 0x15 0 0) := by decide

/-! ## RATE and SAMPLE (program P2) -/

theorem test_rate :
    bankOf (execRate 0 44000 ready) (fun D => (D.rate, D.zeroAlpha, D.signalAlpha, D.rateValid)) =
      some (44000, 1456, 370, true) := by decide

theorem test_rate_not_live : flagsOf (execRate 0 44100 State.reset) = some 0x020 := by decide

/-- Bank 0 after the sample numbered 4 of program P2. -/
def afterFour : Decoder :=
  { fresh with
    ch0 := ⟨2845459, false, 1⟩, ch1 := ⟨256303, true, 0⟩, mono := ⟨3101763, false, 1⟩
    forwards := false, wavePeak := 3451837, refLevel := 79267192, signalLevel := 2256726
    crossings := -2, pitchTicker := 4, crossTicker := 1, bitstream := 1, timecode := 1
    timecodeTicker := 1 }

/-- The half-cycle crossing of sample 5. -/
theorem test_sample_half_cycle :
    bankOf (execSample 0 (-300) 900 (stateOf 0 [] afterFour)) id =
      some { afterFour with
        ch0 := ⟨2346472, false, 2⟩, ch1 := ⟨1558320, true, 1⟩, mono := ⟨3904793, true, 0⟩
        forwards := true, wavePeak := 0, halfPeak := 35416807, signalLevel := 2443433
        crossings := -1, pitchTicker := 6, crossTicker := 0, timecodeTicker := 2 } := by decide +kernel

/-- The full-cycle crossing of sample 1, from the state after sample 0. -/
theorem test_sample_full_cycle :
    bankOf (execSample 0 1000 200 (stateOf 0 [] (fresh.everySample 0 0))) id =
      some { fresh with
        ch0 := ⟨1453000, true, 0⟩, ch1 := ⟨290600, true, 0⟩, mono := ⟨1743600, true, 0⟩
        forwards := false, refLevel := 76899600, signalLevel := 432982, crossings := -1
        pitchTicker := 2, validCounter := 1 } := by decide +kernel

/-! ## Queries (section 2.7) -/

theorem test_getPitch :
    (match execGetPitch 0 (stateOf 0 [] { fresh with crossings := -3, pitchTicker := 14 }) with
      | .next t => some ((t.bank 0).crossings, (t.bank 0).pitchTicker, t.responses.head?)
      | _ => none) = some (0, 0, some (responseWord 0 0xFFFFFFFD 14)) := by decide

theorem test_getPitch_none :
    (match execGetPitch 0 (stateOf 0 [] { fresh with pitchTicker := 500 }) with
      | .next t => some ((t.bank 0).pitchTicker, t.responses.head?)
      | _ => none) = some (500, some (responseWord 1 0 0)) := by decide

/-- Bank 0 with validated bits, a bitstream and a ticker. -/
def positioned (counter : BitVec 32) (bits : BitVec 23) : Decoder :=
  { fresh with validCounter := counter, bitstream := bits, timecode := bits, timecodeTicker := 7 }

theorem test_getPosition :
    answerOf (execGetPosition 0 (stateOf 0 [(0x59017, 0), (0x93546, 711999)] (positioned 25 0x93546))) =
      some (responseWord 0 711999 7) := by decide

theorem test_getPosition_none :
    answerOf (execGetPosition 0 (stateOf 0 [(0x59017, 0)] (positioned 24 0x59017))) =
        some (responseWord 1 0 0) ∧
      answerOf (execGetPosition 0 (stateOf 0 [(0x59017, 0)] (positioned 30 0))) =
        some (responseWord 1 0 0) := by decide

theorem test_getAlive :
    answerOf (execGetAlive 0 (stateOf 0 [] { fresh with signalLevel := 16777216 })) =
        some (responseWord 0 1 0) ∧
      answerOf (execGetAlive 0 (stateOf 0 [] { fresh with signalLevel := 16777215 })) =
        some (responseWord 0 0 0) := by decide

theorem test_getSafe : answerOf (execGetSafe 0 (stateOf 3 [] fresh)) = some (responseWord 0 1480000 0) := by
  decide

theorem test_getResolution :
    answerOf (execGetResolution 0 (stateOf 3 [] fresh)) = some (responseWord 0 2000 0) := by decide

theorem test_getStatus :
    answerOf (execGetStatus { ready with errFlags := 0x1F3 }) = some (responseWord 0 499 0) := by decide

/-! ## The host's side -/

theorem test_pitchValue : pitchValue 44100 (-3) 14 1000 = some (-189 / 40) := by
  norm_num [pitchValue]

theorem test_elapsedSeconds : elapsedSeconds 38 44000 = some (19 / 22000) := by
  norm_num [elapsedSeconds]

theorem test_assemble :
    assemble ["BUILD_LOOKUP 0, \"serato_2a\" ; comment", "", "SUBMIT 0, 44100, (1000, 200)"] =
      .ok [0x0100000000000000, 0x050000000000AC44, 0x0600000000C803E8] := by decide +kernel

theorem test_assemble_unknown_name :
    assemble ["BUILD_LOOKUP 0, \"nosuch\""] = .ok [0x01000000FFFFFFFF] := by decide +kernel

/-! ## Witnesses: concrete inputs that meet the hypotheses of each statement -/

theorem bank_stateOf_zero (v : BitVec 3) (m : Memory) (D : Decoder) : (stateOf v m D).bank 0 = D := rfl

theorem bank_stateOf_one (v : BitVec 3) (m : Memory) (D : Decoder) :
    (stateOf v m D).bank 1 = Decoder.reset := rfl

theorem slot_stateOf (v : BitVec 3) (m : Memory) (D : Decoder) (h : Fin Config.nLut) :
    (stateOf v m D).slot h = { valid := true, variant := v, mem := m } := by
  obtain rfl : h = 0 := Subsingleton.elim _ _
  rfl

theorem bank_cases (d : Fin Config.nDec) : d = 0 ∨ d = 1 := by revert d; decide

theorem slotRow_serato (m : Memory) :
    slotRow { valid := true, variant := 0, mem := m } =
      .ok ⟨"serato_2a", 20, 1000, true, 0x59017, 0x361e4, 712000, 707000⟩ := rfl

theorem boundSlot_of_zero {D : Decoder} (h : D.handle = 0) : boundSlot D = .ok 0 := by
  simp [boundSlot, h]

theorem banksBound_stateOf (m : Memory) {D : Decoder} (hD : D.handle = 0) : BanksBound (stateOf 0 m D) := by
  refine ⟨fun h _ => ⟨_, by rw [slot_stateOf]; exact slotRow_serato m⟩, fun d hd => ?_⟩
  rcases bank_cases d with rfl | rfl
  · exact ⟨0, boundSlot_of_zero hD, by rw [slot_stateOf]⟩
  · rw [bank_stateOf_one] at hd; cases hd

theorem streamsInRange_stateOf (m : Memory) {D : Decoder} (hD : D.handle = 0)
    (hb : D.bitstream.toNat < 2 ^ 20) (ht : D.timecode.toNat < 2 ^ 20) :
    StreamsInRange (stateOf 0 m D) := by
  intro d row hd hr
  rcases bank_cases d with rfl | rfl
  · rw [bank_stateOf_zero, bankRow, boundSlot_of_zero hD] at hr
    simp only [slot_stateOf, slotRow_serato] at hr
    cases hr
    exact ⟨hb, ht⟩
  · rw [bank_stateOf_one] at hd; cases hd

/-- The first row of the registry. -/
def serato : TimecodeDef := ⟨"serato_2a", 20, 1000, true, 0x59017, 0x361e4, 712000, 707000⟩

theorem serato_inRange : RowInRange serato := ⟨by decide, by decide, by decide, by decide⟩

/-- The table of a row. -/
def tableOf (row : TimecodeDef) : Memory := (buildTable [] row).getD []

/-- A table built from the empty memory lists the cells of the row's cycle. -/
theorem tableOf_cells {row : TimecodeDef} (hr : RowInRange row) (hn : buildTable [] row ≠ none) :
    (tableOf row).wf ∧
      (tableOf row).Perm (tableCells row.bits row.taps row.length 0 row.seed []) := by
  obtain ⟨m, hm⟩ := Option.ne_none_iff_exists'.mp hn
  have hcells := fillTable_cells (B := row.bits) (taps := row.taps) (current := row.seed)
    (k := row.length) (n := 0) (m := []) (acc := []) (by have := hr.length; omega) Memory.nil_wf (.refl _)
  rw [show fillTable row.bits row.taps row.length 0 row.seed [] = some m from hm] at hcells
  rw [tableOf, hm, Option.getD_some]
  exact hcells

/-- Its addresses are below `2^B`. -/
theorem tableOf_address {row : TimecodeDef} (hr : RowInRange row) (hn : buildTable [] row ≠ none) :
    ∀ c ∈ tableOf row, c.1 < 2 ^ row.bits := by
  intro c hc
  rcases mem_tableCells.mp ((tableOf_cells hr hn).2.mem_iff.mp hc) with h | ⟨i, _, e⟩
  · cases h
  · rw [e]
    exact iterate_fwd_lt hr.bits.1 hr.seed i

theorem serato_builds : buildTable [] serato ≠ none :=
  registry_buildTable_ne_none Memory.nil_wf (.head _) serato_inRange

/-- The table of serato_2a. -/
@[irreducible] def seratoTable : Memory := tableOf serato

theorem seratoTable_spec : seratoTable.wf ∧ TableFor serato seratoTable := by
  have h := tableOf_cells serato_inRange serato_builds
  unfold seratoTable
  exact ⟨h.1, tableFor_of_cells serato_inRange h.1 h.2⟩

theorem seratoTable_address : ∀ c ∈ seratoTable, c.1 < Config.lutDepth := by
  unfold seratoTable
  exact fun c hc => Nat.lt_trans (tableOf_address serato_inRange serato_builds c hc) (by decide)

/-- A valid slot with its table, and a bank that has read 25 bits and stands at the seed. -/
def built : State := stateOf 0 seratoTable (positioned 25 0x59017)

theorem witness_DecodeOfEncodeIsIdentity :
    (Instr.sample 255 (-32768) 32767).wellFormed = true ∧
      (Instr.buildLookup 255 4294967295).wellFormed = true := by decide

theorem witness_EncodeOfDecodeIsIdentity :
    decode 0x06FF00007FFF8000 = .ok (.sample 255 (-32768) 32767) := by decide

theorem witness_StepRunsTheDecodedCommand :
    ({ ready with port := [.command 0x0900000000000000] } : State).port =
        .command 0x0900000000000000 :: [] ∧ decode 0x0900000000000000 = .ok (.getAlive 0) := by decide

theorem witness_IllegalWordRaisesIllegal :
    ({ ready with port := [.command 0x0D00000000000000] } : State).port =
        .command 0x0D00000000000000 :: [] ∧ IllegalWord 0x0D00000000000000 ∧
      IllegalWord 0x0C01000000000000 ∧ IllegalWord 0x0700000000000005 := by
  unfold IllegalWord; decide

theorem witness_StepWithoutInputKeepsTheState : ready.port = [] := by decide

theorem witness_HardwareResetClearsTheFlags :
    ({ ready with port := [.reset] } : State).port = .reset :: [] := by decide

theorem witness_LfsrStepsStayInRange :
    (1 ≤ 1 ∧ 1 ≤ 23 ∧ 1 < 2 ^ 1 ∧ 1 < 2 ^ 1) ∧
      (1 ≤ 23 ∧ 23 ≤ 23 ∧ 0x7FFFFF < 2 ^ 23 ∧ 0x041040 < 2 ^ 23) := by decide

theorem witness_LfsrStepsInvertEachOther :
    (1 ≤ 1 ∧ 1 ≤ 23 ∧ 1 < 2 ^ 1) ∧ (1 ≤ 23 ∧ 23 ≤ 23 ∧ 0x7FFFFF < 2 ^ 23) := by decide

theorem witness_LutReadSeesTheLatestWrite : Memory.wf [(5, 7), (9, 0)] := by decide

theorem toy_inRange {n : Nat} (h : n < 2 ^ 31) : RowInRange (toy n) :=
  ⟨by show 1 ≤ 4 ∧ 4 ≤ 23; decide, by show 1 < 2 ^ 4; decide, by show 8 < 2 ^ 4; decide, h⟩

theorem witness_BuildTableHoldsTheCycle :
    Memory.wf [] ∧ RowInRange (toy 3) ∧ buildTable [] (toy 3) = some [(1, 0), (8, 1), (12, 2)] :=
  ⟨Memory.nil_wf, toy_inRange (by decide), by decide +kernel⟩

theorem witness_BuildTableWrapsBeyondThePeriod :
    Memory.wf [] ∧ RowInRange (toy 16) ∧ buildTable [] (toy 16) = none :=
  ⟨Memory.nil_wf, toy_inRange (by decide), by decide +kernel⟩

theorem reset_memories : MemoriesCanonical State.reset := by unfold MemoriesCanonical; decide

theorem witness_BuildLookupBuildsTheVariant :
    MemoriesCanonical State.reset ∧ (State.reset.slot 0).valid = false ∧ 4 < 5 :=
  ⟨reset_memories, rfl, by decide⟩

theorem witness_BuildLookupRaisesItsErrors :
    Config.nLut ≤ 1 ∧ (ready.slot 0).valid = true ∧ (State.reset.slot 0).valid = false ∧ 5 ≤ 5 := by decide

theorem witness_BuildLookupRaisesParameterErrors :
    (State.reset.slot 0).valid = false ∧ [toy 16][0]? = some (toy 16) ∧ 31 < 2 ^ ((toy 16).bits + 1) ∧
      2 ^ ((toy 16).bits + 1) ≤ 32 ∧ buildTable (State.reset.slot 0).mem (toy 16) = none := by
  decide +kernel

theorem witness_FreeLookupInvalidatesTheSlot :
    Config.nLut ≤ 1 ∧ (State.reset.slot 0).valid = false ∧
      ((ready.slot 0).valid = true ∧ ∃ d, (ready.bank d).live = true ∧ (ready.bank d).handle.toNat = 0) ∧
      ((stateOf 0 [] Decoder.reset).slot 0).valid = true ∧
      ∀ d, ((stateOf 0 [] Decoder.reset).bank d).live = true →
        ((stateOf 0 [] Decoder.reset).bank d).handle.toNat ≠ 0 := by decide

theorem witness_InitSetsTheStartState :
    Config.nDec ≤ 2 ∧ (1 < Config.nDec ∧ Config.nLut ≤ 1) ∧ (State.reset.slot 0).valid = false ∧
      (ready.slot 0).valid = true := by decide

theorem witness_ClearReleasesTheBank :
    Config.nDec ≤ 2 ∧ (ready.bank 1).live = false ∧ (ready.bank 0).live = true := by decide

theorem witness_CoefficientsAreTheRoundedFormula :
    0 < 1 ∧ 65535000 < 65535001 ∧ 16383750 < 16383751 := by decide

theorem witness_RateSetsTheCoefficients :
    (Instr.rate 2 0).wellFormed = true ∧ Config.nDec ≤ 2 ∧ (Instr.rate 1 0).wellFormed = true ∧
      (ready.bank 1).live = false ∧ (Instr.rate 0 4294967295).wellFormed = true ∧
      (ready.bank 0).live = true := by decide

theorem ready_coefficients : CoefficientsFollowRate ready := by unfold CoefficientsFollowRate; decide

theorem witness_RateInForceChangesNothing :
    CoefficientsFollowRate ready ∧ (ready.bank 0).live = true ∧ (ready.bank 0).rateValid = true :=
  ⟨ready_coefficients, rfl, rfl⟩

theorem witness_ChannelStepIsExact :
    -65536 ≤ (-65536 : Int) ∧ (65534 : Int) ≤ 65534 ∧ (65536 : BitVec 17).toNat ≤ 65536 ∧
      (channelStep ⟨0, false, 3⟩ 65534 65536).2 = true ∧ (channelStep ⟨0, true, 3⟩ (-65536) 65536).2 = true ∧
      (channelStep ⟨0, true, 4294967295⟩ 65534 0).2 = false := by decide

theorem witness_EstimateMovesTowardsTheSample :
    (0 : BitVec 33).toInt ≤ (65534 : Int) * 65536 ∧ ((-65536 : Int) * 65536 < (0 : BitVec 33).toInt ∧
      0 < (1 : BitVec 17).toNat) ∧ (0 : BitVec 17).toNat = 0 ∧ (65536 : BitVec 17).toNat = 65536 := by decide

theorem witness_SampleRaisesItsErrors :
    Config.nDec ≤ 2 ∧ (ready.bank 1).live = false ∧
      ((stateOf 0 [] (Decoder.initial 0)).bank 0).live = true ∧
      ((stateOf 0 [] (Decoder.initial 0)).bank 0).rateValid = false := by decide

theorem witness_SampleWithoutCrossing :
    (Instr.sample 0 127 0).wellFormed = true ∧ (ready.bank 0).live = true ∧
      (ready.bank 0).rateValid = true ∧ (ready.bank 0).coefficientsInRange ∧
      (channelStep (ready.bank 0).mono (127 + 0) (ready.bank 0).zeroAlpha).2 = false := by
  unfold Decoder.coefficientsInRange; decide

theorem witness_SampleAtHalfCycle :
    let s := stateOf 0 [] { fresh with forwards := false }
    (Instr.sample 0 128 0).wellFormed = true ∧ (s.bank 0).live = true ∧ (s.bank 0).rateValid = true ∧
      (s.bank 0).coefficientsInRange ∧ bankRow s (s.bank 0) = .ok serato ∧
      (channelStep (s.bank 0).mono (128 + 0) (s.bank 0).zeroAlpha).2 = true ∧
      (channelStep (s.bank 0).mono (128 + 0) (s.bank 0).zeroAlpha).1.positive =
        (serato.polarity ^^ (s.bank 0).forwards) := by
  unfold Decoder.coefficientsInRange; decide

theorem witness_SampleAtFullCycle :
    let s := stateOf 0 [] { fresh with forwards := true }
    (Instr.sample 0 128 0).wellFormed = true ∧ (s.bank 0).live = true ∧ (s.bank 0).rateValid = true ∧
      (s.bank 0).coefficientsInRange ∧ bankRow s (s.bank 0) = .ok serato ∧
      (channelStep (s.bank 0).mono (128 + 0) (s.bank 0).zeroAlpha).2 = true ∧
      (channelStep (s.bank 0).mono (128 + 0) (s.bank 0).zeroAlpha).1.positive ≠
        (serato.polarity ^^ (s.bank 0).forwards) := by
  unfold Decoder.coefficientsInRange; decide

theorem witness_ValidCounterRisesByOneOrRestarts : ∃ t, exec (.sample 0 128 0) ready = .next t :=
  ⟨_, rfl⟩

theorem witness_SilenceMovesOnlyTheTickers :
    (ready.bank 0).live = true ∧ (ready.bank 0).rateValid = true ∧
      (∀ ch ∈ [(ready.bank 0).ch0, (ready.bank 0).ch1, (ready.bank 0).mono],
        ch.zero = 0 ∧ ch.positive = false) ∧
      (ready.bank 0).wavePeak = 0 ∧ (ready.bank 0).signalLevel = 0 := by decide

theorem ready_banksBound : BanksBound ready := banksBound_stateOf [] rfl

theorem witness_SplitSubmitEqualsWholeSubmit : BanksBound ready ∧ (ready.bank 0).live = true :=
  ⟨ready_banksBound, rfl⟩

theorem witness_GetPositionAnswersTheEntry :
    Config.nDec ≤ 2 ∧ (ready.bank 1).live = false ∧
      (((stateOf 0 [] (positioned 24 0)).bank 0).live = true ∧
        ((stateOf 0 [] (positioned 24 0)).bank 0).validCounter.toNat ≤ 24) ∧
      (let s := stateOf 0 [(0x59017, 0)] (positioned 25 0)
       boundSlot (s.bank 0) = .ok 0 ∧ 24 < (s.bank 0).validCounter.toNat ∧
         ((s.slot 0).mem.read (s.bank 0).bitstream.toNat).toInt = -1) ∧
      (let s := stateOf 0 [(0x59017, 0)] (positioned 25 0x59017)
       boundSlot (s.bank 0) = .ok 0 ∧ 24 < (s.bank 0).validCounter.toNat ∧
         ((s.slot 0).mem.read (s.bank 0).bitstream.toNat).toInt ≠ -1) := by decide

theorem built_slots : SlotsBuilt built := fun h _ =>
  ⟨serato, by rw [built, slot_stateOf]; exact slotRow_serato _,
    by rw [built, slot_stateOf]; exact seratoTable_spec.2⟩

theorem witness_PositionCountsLfsrSteps :
    SlotsBuilt built ∧ BanksBound built ∧ StreamsInRange built ∧ (built.bank 0).live = true ∧
      24 < (built.bank 0).validCounter.toNat ∧ boundSlot (built.bank 0) = .ok 0 ∧
      slotRow (built.slot 0) = .ok serato ∧
      ((built.slot 0).mem.read (built.bank 0).bitstream.toNat).toInt ≠ -1 := by
  refine ⟨built_slots, banksBound_stateOf _ rfl, streamsInRange_stateOf _ rfl (by decide) (by decide), rfl,
    by decide, rfl, by rw [built, slot_stateOf]; exact slotRow_serato _, ?_⟩
  have h := seratoTable_spec.2.first (by decide)
  have hm : (built.slot 0).mem = seratoTable := by rw [built, slot_stateOf]
  have hb : (built.bank 0).bitstream.toNat = serato.seed := by rw [built, bank_stateOf_zero]; rfl
  rw [hm, hb, h]
  decide

theorem witness_GetPitchReadsAndClears :
    Config.nDec ≤ 2 ∧ (ready.bank 1).live = false ∧
      ((ready.bank 0).live = true ∧ (ready.bank 0).crossings = 0) ∧
      ((stateOf 0 [] afterFour).bank 0).live = true ∧
      ((stateOf 0 [] afterFour).bank 0).crossings ≠ 0 := by decide

theorem witness_GetAliveComparesTheLevel :
    Config.nDec ≤ 2 ∧ (ready.bank 1).live = false ∧ (ready.bank 0).live = true ∧
      256 * 65536 ≤ ((stateOf 0 [] { fresh with signalLevel := 16777216 }).bank 0).signalLevel.toNat ∧
      ((stateOf 0 [] { fresh with signalLevel := 16777215 }).bank 0).signalLevel.toNat < 256 * 65536 := by
  decide

theorem witness_GetSafeAnswersTheVariant :
    Config.nDec ≤ 2 ∧ (ready.bank 1).live = false ∧ (ready.bank 0).live = true ∧
      (ready.bank 0).handle.toNat = Fin.val (0 : Fin Config.nLut) ∧
      registry[(ready.slot 0).variant.toNat]? = some serato := by decide

theorem witness_GetResolutionAnswersTheVariant :
    Config.nDec ≤ 2 ∧ (ready.bank 1).live = false ∧
      ((stateOf 4 [] fresh).bank 0).live = true ∧
      ((stateOf 4 [] fresh).bank 0).handle.toNat = Fin.val (0 : Fin Config.nLut) ∧
      (registry[((stateOf 4 [] fresh).slot 0).variant.toNat]?).map (·.resolution) = some 2000 := by decide

theorem witness_HostQuotientsAreExact : 0 < 1 ∧ (0 < 4294967295 ∧ 4294967295 < 2 ^ 32) := by decide

/-- A state whose next input is a word. -/
def pending (s : State) (w : CommandWord) : State := { s with port := [.command w] }

theorem witness_EveryCommandAnswersOnce :
    (pending ready 0x0900000000000000).port = .command 0x0900000000000000 :: [] ∧
      ∃ t, step (pending ready 0x0900000000000000) = .next t := ⟨rfl, _, rfl⟩

theorem witness_ErrorFlagsAreSticky :
    (∃ t, step (pending { ready with errFlags := 1 } 0x0400000000000000) = .next t) ∧
      (∀ rest, (pending { ready with errFlags := 1 } 0x0400000000000000).port ≠ .reset :: rest) ∧
      ({ ready with errFlags := 1 } : State).errFlags.getLsbD 0 = true :=
  ⟨⟨_, rfl⟩, by simp [pending], rfl⟩

theorem witness_FlagsChangeOnlyByTheirCommands :
    ∃ t, step (pending ready 0x0400000000000000) = .next t ∧ (ready.bank 0).live = true ∧
      (t.bank 0).live = false := ⟨_, rfl, rfl, rfl⟩

theorem witness_ValidSlotIsImmutable :
    ∃ t, step (pending ready 0x0100000000000001) = .next t ∧
      ((pending ready 0x0100000000000001).slot 0).valid = true ∧ (t.slot 0).valid = true :=
  ⟨_, rfl, rfl, rfl⟩

theorem witness_CommandWritesOnlyItsUnit :
    (∃ t, exec (.clear 0) ready = .next t) ∧ decoderOf (.clear 0) = some 0 ∧
      (∃ t, exec .getStatus ready = .next t) ∧ decoderOf .getStatus = none :=
  ⟨⟨_, rfl⟩, rfl, ⟨_, rfl⟩, rfl⟩

theorem witness_CommandsToDifferentBanksCommute :
    BanksBound ready ∧ decoderOf (.sample 0 128 0) = some 0 ∧ decoderOf (.init 1 0) = some 1 ∧ 0 ≠ 1 :=
  ⟨ready_banksBound, rfl, rfl, by decide⟩

theorem witness_StepKeepsMemoriesCanonical :
    MemoriesCanonical (pending State.reset 0x0400000000000000) ∧
      ∃ t, step (pending State.reset 0x0400000000000000) = .next t := ⟨reset_memories, _, rfl⟩

theorem built_memories : MemoriesCanonical built := by
  intro h
  rw [built, slot_stateOf]
  exact ⟨seratoTable_spec.1, seratoTable_address⟩

theorem witness_StepKeepsSlotsBuilt :
    MemoriesCanonical (pending built 0x0900000000000000) ∧ SlotsBuilt (pending built 0x0900000000000000) ∧
      ∃ t, step (pending built 0x0900000000000000) = .next t := ⟨built_memories, built_slots, _, rfl⟩

theorem witness_StepKeepsBanksBound :
    BanksBound (pending ready 0x0600000000C803E8) ∧
      ∃ t, step (pending ready 0x0600000000C803E8) = .next t := ⟨ready_banksBound, _, rfl⟩

theorem ready_streams : StreamsInRange ready := streamsInRange_stateOf [] rfl (by decide) (by decide)

theorem witness_StepKeepsStreamsInRange :
    BanksBound (pending ready 0x0600000000C803E8) ∧ StreamsInRange (pending ready 0x0600000000C803E8) ∧
      ∃ t, step (pending ready 0x0600000000C803E8) = .next t := ⟨ready_banksBound, ready_streams, _, rfl⟩

theorem ready_levels : LevelsInRange ready := by
  unfold LevelsInRange Decoder.zerosInRange Decoder.levelsInRange Decoder.coefficientsInRange; decide

theorem witness_StepKeepsLevelsInRange :
    LevelsInRange (pending ready 0x0600000000C803E8) ∧
      ∃ t, step (pending ready 0x0600000000C803E8) = .next t := ⟨ready_levels, _, rfl⟩

theorem ready_counters : CountersAgree ready := by unfold CountersAgree; decide

theorem witness_StepKeepsCountersAndCoefficients :
    CoefficientsFollowRate (pending ready 0x0600000000C803E8) ∧
      CountersAgree (pending ready 0x0600000000C803E8) ∧
      ∃ t, step (pending ready 0x0600000000C803E8) = .next t := ⟨ready_coefficients, ready_counters, _, rfl⟩

theorem witness_BoundStatesAreSafe : BanksBound (pending ready 0x0600000000C803E8) := ready_banksBound

theorem ready_memories : MemoriesCanonical ready := by unfold MemoriesCanonical; decide

/-- Two states that differ in what the spec leaves unspecified of bank 1. -/
theorem witness_UnspecifiedStateIsUnobservable :
    let s := pending ready 0x0600000000C803E8
    let t := s.setBank 1 { Decoder.reset with crossings := 5 }
    s ≠ t ∧ MemoriesCanonical s ∧ MemoriesCanonical t ∧ BanksBound s ∧ StreamsInRange s ∧
      StatesAlike s t ∧ ∃ s', step s = .next s' := by
  refine ⟨by decide, ready_memories, ready_memories, ready_banksBound, ready_streams, ?_, _, rfl⟩
  refine ⟨fun h => ⟨rfl, fun _ => ⟨rfl, fun _ _ _ _ => rfl⟩⟩, fun d => ?_, rfl, rfl, rfl⟩
  rcases bank_cases d with rfl | rfl
  · exact ⟨rfl, fun _ => rfl⟩
  · exact ⟨rfl, fun h => by cases h⟩

/-- A live bank with a handle that names no slot, and one bound to a slot without a registry row. -/
theorem witness_UnboundBanksStopByName :
    (let s := stateOf 0 [] { positioned 25 0 with handle := 1 }
     (s.bank 0).live = true ∧ Config.nLut ≤ (s.bank 0).handle.toNat ∧
       24 < (s.bank 0).validCounter.toNat ∧ (s.bank 0).rateValid = true ∧
       (channelStep (s.bank 0).mono (128 + 0) (s.bank 0).zeroAlpha).2 = true) ∧
      (let s := stateOf 5 [] fresh
       (s.bank 0).live = true ∧ (s.bank 0).handle.toNat = Fin.val (0 : Fin Config.nLut) ∧
         registry[(s.slot 0).variant.toNat]? = none ∧ (s.bank 0).rateValid = true ∧
         (channelStep (s.bank 0).mono (128 + 0) (s.bank 0).zeroAlpha).2 = true) := by decide

end Sys2Proof.Tests
end

section
/-! SUPPORT. How a command word is taken and answered: the step on a command word, and the three ways a command
ends (spec/00_scope.md R4, spec/30_encoding.md R42, R43, spec/60_exceptions.md R101). -/

namespace Sys2Proof.Machine

/-! ## The step on a command word -/

theorem step_of_decode_ok {s : State} {w : CommandWord} {rest : List HostInput} {i : Instr}
    (hp : s.port = .command w :: rest) (hd : decode w = .ok i) :
    step s = exec i { s with port := rest } := by
  simp only [step, hp, hd]

theorem step_of_decode_error {s : State} {w : CommandWord} {rest : List HostInput} {e : Illegal}
    (hp : s.port = .command w :: rest) (hd : decode w = .error e) :
    step s = .next (raise .illegal { s with port := rest }) := by
  simp only [step, hp, hd]

/-- Settles O6: the step's arm for a word that decodes. -/
theorem stepRunsTheDecodedCommand : Obligations.StepRunsTheDecodedCommand :=
  fun _ _ _ _ hp hd => step_of_decode_ok hp hd

/-! ## How a command ends -/

/-- `u` has the ports and the error flags of `s`: what holds of a command's writes to banks and slots. -/
structure SamePorts (s u : State) : Prop where
  port : u.port = s.port
  responses : u.responses = s.responses
  errFlags : u.errFlags = s.errFlags

theorem SamePorts.refl (s : State) : SamePorts s s := ⟨rfl, rfl, rfl⟩

theorem SamePorts.setBank (s : State) (d : Fin Config.nDec) (x : Decoder) : SamePorts s (s.setBank d x) :=
  ⟨rfl, rfl, rfl⟩

theorem SamePorts.setSlot (s : State) (h : Fin Config.nLut) (x : Slot) : SamePorts s (s.setSlot h x) :=
  ⟨rfl, rfl, rfl⟩

theorem SamePorts.releaseBank (s : State) (d : Fin Config.nDec) : SamePorts s (s.releaseBank d) :=
  ⟨rfl, rfl, rfl⟩

theorem SamePorts.releaseSlot (s : State) (h : Fin Config.nLut) : SamePorts s (s.releaseSlot h) :=
  ⟨rfl, rfl, rfl⟩

theorem SamePorts.scrambleMemory (s : State) (h : Fin Config.nLut) : SamePorts s (s.scrambleMemory h) :=
  ⟨rfl, rfl, rfl⟩

/-- A command from `s` ends in one response, after writes that leave the ports and the error flags: an error
raised (R101), `NONE` without data, or `OK` (R43). -/
inductive Answered (s : State) : State → Prop
  | raised {u : State} (e : ErrorCode) (hu : SamePorts s u) : Answered s (raise e u)
  | none {u : State} (hu : SamePorts s u) : Answered s (respond statusNone 0 0 u)
  | ok {u : State} (data0 data1 : Word) (hu : SamePorts s u) : Answered s (respond statusOk data0 data1 u)

theorem finishBuild_answered (i : Fin Config.nLut) (v : Nat) (built : Option Memory) (s : State) :
    Answered s (finishBuild i v built s) := by
  cases built with
  | none => exact .raised _ (.scrambleMemory s i)
  | some m => exact .ok _ _ (.setSlot s i _)

theorem positionAnswer_answered (D : Decoder) (m : Memory) (s : State) :
    Answered s (positionAnswer D m s) := by
  unfold positionAnswer
  split
  · exact .none (.refl s)
  · exact .ok _ _ (.refl s)

section
variable {s t : State} {d h : Nat}

theorem execBuildLookup_answered {v : Nat} (hx : execBuildLookup h v s = .next t) : Answered s t := by
  obtain ⟨e, -, rfl⟩ | ⟨i, -, ⟨e, -, rfl⟩ | ⟨row, -, rfl⟩⟩ := execBuildLookup_next hx
  · exact .raised e (.refl s)
  · exact .raised e (.refl s)
  · exact finishBuild_answered i v _ s

theorem execFreeLookup_answered (hx : execFreeLookup h s = .next t) : Answered s t := by
  obtain ⟨e, -, rfl⟩ | ⟨i, -, ⟨-, rfl⟩ | ⟨-, rfl⟩⟩ := execFreeLookup_next hx
  · exact .raised e (.refl s)
  · exact .raised .busy (.refl s)
  · exact .ok _ _ (.releaseSlot s i)

theorem execInit_answered (hx : execInit d h s = .next t) : Answered s t := by
  obtain ⟨e, -, rfl⟩ | ⟨i, k, -, -, rfl⟩ := execInit_next hx
  · exact .raised e (.refl s)
  · exact .ok _ _ (.setBank s i _)

theorem execClear_answered (hx : execClear d s = .next t) : Answered s t := by
  obtain ⟨e, -, rfl⟩ | ⟨i, -, rfl⟩ := execClear_next hx
  · exact .raised e (.refl s)
  · exact .ok _ _ (.releaseBank s i)

theorem execRate_answered {r : Nat} (hx : execRate d r s = .next t) : Answered s t := by
  obtain ⟨e, -, rfl⟩ | ⟨i, -, rfl⟩ := execRate_next hx
  · exact .raised e (.refl s)
  · exact .ok _ _ (.setBank s i _)

theorem execSample_answered {l r : Int} (hx : execSample d l r s = .next t) : Answered s t := by
  obtain ⟨e, -, rfl⟩ | ⟨i, -, ⟨-, rfl⟩ | ⟨-, -, rfl⟩ | ⟨-, -, row, -, rfl⟩⟩ := execSample_next hx
  · exact .raised e (.refl s)
  · exact .raised .noRate (.refl s)
  · exact .ok _ _ (.setBank s i _)
  · exact .ok _ _ (.setBank s i _)

theorem execGetPitch_answered (hx : execGetPitch d s = .next t) : Answered s t := by
  obtain ⟨e, -, rfl⟩ | ⟨i, -, ⟨-, rfl⟩ | ⟨-, rfl⟩⟩ := execGetPitch_next hx
  · exact .raised e (.refl s)
  · exact .none (.refl s)
  · exact .ok _ _ (.setBank s i _)

theorem execGetPosition_answered (hx : execGetPosition d s = .next t) : Answered s t := by
  obtain ⟨e, -, rfl⟩ | ⟨i, -, rfl | ⟨k, -, rfl⟩⟩ := execGetPosition_next hx
  · exact .raised e (.refl s)
  · exact .none (.refl s)
  · exact positionAnswer_answered _ _ s

theorem execGetAlive_answered (hx : execGetAlive d s = .next t) : Answered s t := by
  obtain ⟨e, -, rfl⟩ | ⟨i, -, rfl⟩ := execGetAlive_next hx
  · exact .raised e (.refl s)
  · exact .ok _ _ (.refl s)

theorem execGetSafe_answered (hx : execGetSafe d s = .next t) : Answered s t := by
  obtain ⟨e, -, rfl⟩ | ⟨i, row, -, -, rfl⟩ := execGetSafe_next hx
  · exact .raised e (.refl s)
  · exact .ok _ _ (.refl s)

theorem execGetResolution_answered (hx : execGetResolution d s = .next t) : Answered s t := by
  obtain ⟨e, -, rfl⟩ | ⟨i, row, -, -, rfl⟩ := execGetResolution_next hx
  · exact .raised e (.refl s)
  · exact .ok _ _ (.refl s)

theorem execGetStatus_answered (hx : execGetStatus s = .next t) : Answered s t := by
  obtain rfl := execGetStatus_next hx
  exact .ok _ _ (.refl s)

/-- Every command ends in one of the three ways. -/
theorem exec_answered {i : Instr} (hx : exec i s = .next t) : Answered s t := by
  cases i with
  | buildLookup h v => exact execBuildLookup_answered hx
  | freeLookup h => exact execFreeLookup_answered hx
  | init d h => exact execInit_answered hx
  | clear d => exact execClear_answered hx
  | rate d r => exact execRate_answered hx
  | sample d l r => exact execSample_answered hx
  | getPitch d => exact execGetPitch_answered hx
  | getPosition d => exact execGetPosition_answered hx
  | getAlive d => exact execGetAlive_answered hx
  | getSafe d => exact execGetSafe_answered hx
  | getResolution d => exact execGetResolution_answered hx
  | getStatus => exact execGetStatus_answered hx

/-- So does a step on a command word, legal or not (R103). -/
theorem step_command_answered {w : CommandWord} {rest : List HostInput}
    (hp : s.port = .command w :: rest) (hx : step s = .next t) : Answered { s with port := rest } t := by
  cases hd : decode w with
  | ok i =>
    rw [step_of_decode_ok hp hd] at hx
    exact exec_answered hx
  | error e =>
    rw [step_of_decode_error hp hd] at hx
    cases hx
    exact .raised .illegal (.refl _)

/-! ## What an answer leaves on the ports -/

theorem Answered.port (h : Answered s t) : t.port = s.port := by
  cases h with
  | raised e hu => exact hu.port
  | none hu => exact hu.port
  | ok a b hu => exact hu.port

/-- One response: an error code without data, `NONE` without data, or `OK` (R43). -/
theorem Answered.responses (h : Answered s t) :
    ∃ st a b, t.responses = responseWord st a b :: s.responses ∧
      (((∃ e : ErrorCode, st = e.status) ∨ st = statusNone) ∧ a = 0 ∧ b = 0 ∨ st = statusOk) := by
  cases h with
  | raised e hu => exact ⟨e.status, 0, 0, by simp [hu.responses], .inl ⟨.inl ⟨e, rfl⟩, rfl, rfl⟩⟩
  | none hu => exact ⟨statusNone, 0, 0, by simp [hu.responses], .inl ⟨.inr rfl, rfl, rfl⟩⟩
  | ok a b hu => exact ⟨statusOk, a, b, by simp [hu.responses], .inr rfl⟩

end

/-- The error codes are `0x10 .. 0x18` (R43, R100). -/
theorem ErrorCode.status_range (e : ErrorCode) : 0x10 ≤ e.status.toNat ∧ e.status.toNat ≤ 0x18 := by
  cases e <;> decide

/-- Settles O44, from the three ways a command ends. -/
theorem everyCommandAnswersOnce : Obligations.EveryCommandAnswersOnce := by
  intro s t w rest hp hx
  have hans := step_command_answered hp hx
  obtain ⟨st, a, b, hr, hst⟩ := hans.responses
  refine ⟨hans.port, responseWord st a b, hr, ?_⟩
  simp only [responseStatus_responseWord, responseData0_responseWord, responseData1_responseWord]
  obtain ⟨⟨e, rfl⟩ | rfl, rfl, rfl⟩ | rfl := hst
  · exact ⟨.inr (.inr e.status_range), fun _ => ⟨rfl, rfl⟩⟩
  · exact ⟨.inr (.inl rfl), fun _ => ⟨rfl, rfl⟩⟩
  · exact ⟨.inl rfl, fun hne => absurd rfl hne⟩

end Sys2Proof.Machine
end

section
/-! SUPPORT. What the builder's loop does to the words of a memory, and what a table says of its addresses
(spec/10_state.md R18, R19, spec/20_memory.md R31, R32, spec/41_lookup.md R56). -/

namespace Sys2Proof.Machine

/-! ## Reads after writes -/

theorem Memory.read_of_lt {m : Memory} {a : Nat} (h : ∀ c ∈ m, a < c.1) : m.read a = Memory.sentinel := by
  by_contra hne
  exact Nat.lt_irrefl a (h _ (Memory.mem_of_read hne))

/-- The listing of one word reads as that word, the memory behind it elsewhere. -/
theorem Memory.read_cell_append {m : Memory} {a : Nat} (v : Word) (b : Nat) (h : ∀ c ∈ m, a < c.1) :
    (Memory.cell a v ++ m).read b = if b = a then v else m.read b := by
  unfold Memory.cell
  split
  · next hv =>
    split
    · next hb => rw [hb, hv]; exact Memory.read_of_lt h
    · rfl
  · simp only [List.cons_append, List.nil_append, Memory.read, eq_comm]

/-- A canonical memory reads back the latest write (R31, R32). -/
theorem Memory.read_write {m : Memory} (hm : m.wf) (a b : Nat) (v : Word) :
    (m.write a v).read b = if b = a then v else m.read b := by
  induction m with
  | nil => simpa [Memory.write] using Memory.read_cell_append (m := []) (a := a) v b (by simp)
  | cons c m ih =>
    obtain ⟨x, w⟩ := c
    obtain ⟨hx, hs⟩ := List.pairwise_cons.mp hm.1
    have hrest : Memory.wf m := ⟨hs, fun c hc => hm.2 c (.tail _ hc)⟩
    simp only [Memory.write]
    split
    · next hlt =>
      refine Memory.read_cell_append v b fun c hc => ?_
      rcases List.mem_cons.mp hc with rfl | hc
      · exact hlt
      · exact hlt.trans (hx c hc)
    · split
      · next _ heq =>
        subst heq
        rw [Memory.read_cell_append v b hx]
        simp only [Memory.read]
        split
        · rfl
        · next hb => rw [if_neg (Ne.symm hb)]
      · next _ hne =>
        simp only [Memory.read, ih hrest]
        split
        · next hb => rw [if_neg (fun e => hne (e.symm.trans hb.symm))]
        · rfl

/-! ## The loop over two memories -/

/-- From memories that read alike below `N`, where all its addresses lie, the loop answers alike there; it
leaves every word from `N` on. -/
theorem fillTable_alike {B taps N : Nat} (hB : 1 ≤ B) (hN : 2 ^ B ≤ N) {k n c : Nat} {x y x' : Memory}
    (hx : x.wf) (hy : y.wf) (hc : c < 2 ^ B) (hxy : ∀ a, a < N → x.read a = y.read a)
    (h : fillTable B taps k n c x = some x') :
    ∃ y', fillTable B taps k n c y = some y' ∧ (∀ a, a < N → x'.read a = y'.read a) ∧
      ∀ a, N ≤ a → x'.read a = x.read a := by
  induction k generalizing n c x y with
  | zero =>
    simp only [fillTable, Option.some.injEq] at h
    subst h
    exact ⟨y, rfl, hxy, fun _ _ => rfl⟩
  | succ k ih =>
    simp only [fillTable] at h ⊢
    rw [← hxy c (by omega)]
    split at h
    · next hfree =>
      rw [if_pos hfree]
      obtain ⟨y', hy', hlow, hhigh⟩ := ih (Memory.write_wf hx _ _) (Memory.write_wf hy _ _) (fwd_lt hB hc)
        (fun a ha => by rw [Memory.read_write hx, Memory.read_write hy, hxy a ha]) h
      refine ⟨y', hy', hlow, fun a ha => ?_⟩
      rw [hhigh a ha, Memory.read_write hx, if_neg (by omega)]
    · cases h

/-- A build reads below `2^(B+1)` as the build of an empty memory, and above as the memory did. -/
theorem buildTable_eq_build_nil {m m' : Memory} {row : TimecodeDef} (hm : m.wf) (hr : RowInRange row)
    (h : buildTable m row = some m') :
    ∃ n, buildTable [] row = some n ∧ (∀ a, a < 2 ^ (row.bits + 1) → m'.read a = n.read a) ∧
      ∀ a, 2 ^ (row.bits + 1) ≤ a → m'.read a = m.read a := by
  obtain ⟨n, hn, hlow, hhigh⟩ := fillTable_alike hr.bits.1 (N := 2 ^ (row.bits + 1))
    (Nat.pow_le_pow_right (by decide) (by omega)) (Memory.clearBelow_wf hm _) Memory.nil_wf hr.seed
    (fun a ha => by rw [Memory.read_clearBelow, if_pos ha, Memory.read_nil]) h
  refine ⟨n, hn, hlow, fun a ha => ?_⟩
  rw [hhigh a ha, Memory.read_clearBelow, if_neg (by omega)]

/-! ## Tables -/

/-- Whether a memory holds a row's table is a matter of its words below `2^(B+1)`. -/
theorem TableFor.congr {row : TimecodeDef} {m n : Memory} (hB : 1 ≤ row.bits)
    (h : ∀ a, a < 2 ^ (row.bits + 1) → m.read a = n.read a) (ht : TableFor row n)
    (hs : row.seed < 2 ^ row.bits) : TableFor row m := by
  have low : ∀ a, a < 2 ^ row.bits → m.read a = n.read a := fun a ha =>
    h a (ha.trans_le (Nat.pow_le_pow_right (by decide) (by omega)))
  constructor
  · rw [← ht.count]
    refine congrArg Finset.card (Finset.filter_congr fun a ha => ?_)
    rw [low a (Finset.mem_range.mp ha)]
  · intro i hi
    obtain ⟨a, ⟨ha, hai⟩, huniq⟩ := ht.values i hi
    exact ⟨a, ⟨ha, by rw [low a ha, hai]⟩, fun b ⟨hb, hbi⟩ => huniq b ⟨hb, by rw [← low b hb, hbi]⟩⟩
  · intro hpos
    rw [low _ hs]
    exact ht.first hpos
  · intro a ha
    rw [h a ha]
    exact ht.rest a ha
  · intro a ha
    rw [low a ha, low _ (fwd_lt hB ha)]
    exact ht.next a ha

/-- The build of an empty memory holds the row's table: it lists the cells of the cycle. -/
theorem tableFor_build_nil {row : TimecodeDef} {n : Memory} (hr : RowInRange row)
    (h : buildTable [] row = some n) : TableFor row n := by
  have hcells := fillTable_cells (B := row.bits) (taps := row.taps) (current := row.seed) (k := row.length)
    (n := 0) (m := []) (acc := []) (by have := hr.length; omega) Memory.nil_wf (.refl _)
  rw [show fillTable row.bits row.taps row.length 0 row.seed [] = some n from h] at hcells
  exact tableFor_of_cells hr hcells.1 hcells.2

/-- Settles O16: a build reads as one from an empty memory, which lists the cells of the cycle. -/
theorem buildTableHoldsTheCycle : Obligations.BuildTableHoldsTheCycle := by
  intro m m' row hm hr h
  obtain ⟨n, hn, hlow, hhigh⟩ := buildTable_eq_build_nil hm hr h
  exact ⟨(tableFor_build_nil hr hn).congr hr.bits.1 hlow hr.seed, hhigh⟩

/-- A table numbers the iterates of `Fwd` from the seed. -/
theorem TableFor.read_iterate {row : TimecodeDef} {m : Memory} (ht : TableFor row m) (hr : RowInRange row)
    {n : Nat} (hn : n < row.length) :
    (m.read ((fun c => fwd c row.bits row.taps)^[n] row.seed)).toInt = n := by
  induction n with
  | zero => exact ht.first hn
  | succ n ih =>
    have hcur := ih (by omega)
    rw [Function.iterate_succ_apply', ht.next _ (iterate_fwd_lt hr.bits.1 hr.seed n) (by omega) (by omega),
      hcur]
    exact (Int.natCast_succ n).symm

/-- An entry of a table is the number of steps of `Fwd` from the seed to its address. -/
theorem TableFor.iterate_of_entry {row : TimecodeDef} {m : Memory} (ht : TableFor row m) (hr : RowInRange row)
    {a : Nat} (ha : a < 2 ^ (row.bits + 1)) (hne : (m.read a).toInt ≠ -1) :
    ∃ n, n < row.length ∧ (fun c => fwd c row.bits row.taps)^[n] row.seed = a ∧
      m.read a = BitVec.ofNat 32 n := by
  obtain ⟨hlow, h0, hlt⟩ := ht.rest a ha hne
  obtain ⟨n, hn⟩ := Int.eq_ofNat_of_zero_le h0
  have hnl : n < row.length := by omega
  refine ⟨n, hnl, ?_, ?_⟩
  · exact (ht.values n hnl).unique ⟨iterate_fwd_lt hr.bits.1 hr.seed n, ht.read_iterate hr hnl⟩ ⟨hlow, hn⟩
  · exact BitVec.eq_of_toInt_eq (by rw [hn, toInt_ofNat_index (by have := hr.length; omega)])

/-- A word of a lookup memory that is no entry is the sentinel. -/
theorem read_toInt_eq_neg_one_iff {m : Memory} {a : Nat} :
    (m.read a).toInt = -1 ↔ m.read a = Memory.sentinel :=
  ⟨fun h => BitVec.eq_of_toInt_eq (h.trans (by decide)), fun h => by rw [h]; decide⟩

end Sys2Proof.Machine
end

section
/-! SUPPORT. The registry and the slot a bank is bound to: what a query or a SAMPLE reads through them, and where
it stops (spec/10_state.md R10, R16, R18, spec/44_queries.md R80, R85, R86; logs 12, 13). -/

namespace Sys2Proof.Machine

/-! ## The registry -/

/-- Settles O15: each of the five rows, by its numbers. -/
theorem registryRowsAreInRange : Obligations.RegistryRowsAreInRange := by
  refine ⟨rfl, fun row hrow => ?_⟩
  simp only [registry, List.mem_cons, List.not_mem_nil, or_false] at hrow
  rcases hrow with rfl | rfl | rfl | rfl | rfl
  all_goals exact ⟨⟨by decide, by decide, by decide, by decide⟩, by decide, rfl, by decide⟩

theorem rowInRange_of_mem_registry {row : TimecodeDef} (h : row ∈ registry) : RowInRange row :=
  (registryRowsAreInRange.2 row h).1

theorem mem_registry_of_slotRow {sl : Slot} {row : TimecodeDef} (h : slotRow sl = .ok row) : row ∈ registry :=
  List.mem_of_getElem? (slotRow_ok h)

theorem rowInRange_of_slotRow {sl : Slot} {row : TimecodeDef} (h : slotRow sl = .ok row) : RowInRange row :=
  rowInRange_of_mem_registry (mem_registry_of_slotRow h)

theorem slotRow_of_variant {sl : Slot} {row : TimecodeDef} (h : registry[sl.variant.toNat]? = some row) :
    slotRow sl = .ok row := by
  simp only [slotRow, variantRow, h]

theorem slotRow_of_no_variant {sl : Slot} (h : registry[sl.variant.toNat]? = none) :
    slotRow sl = .error .noSuchVariant := by
  simp only [slotRow, variantRow, h]

/-! ## Banks and the slots they are bound to -/

theorem boundSlot_of_handle {D : Decoder} {h : Fin Config.nLut} (hh : D.handle.toNat = h.val) :
    boundSlot D = .ok h := by
  unfold boundSlot
  rw [dif_pos (by rw [hh]; exact h.isLt)]
  exact congrArg Except.ok (Fin.ext hh)

theorem boundSlot_of_le {D : Decoder} (h : Config.nLut ≤ D.handle.toNat) :
    boundSlot D = .error .noSuchSlot := dif_neg (Nat.not_lt.mpr h)

theorem bankRow_of_boundSlot {s : State} {D : Decoder} {h : Fin Config.nLut} (hb : boundSlot D = .ok h) :
    bankRow s D = slotRow (s.slot h) := by
  simp only [bankRow, hb]

theorem bankRow_of_unbound {s : State} {D : Decoder} {f : Fault} (hb : boundSlot D = .error f) :
    bankRow s D = .error f := by
  simp only [bankRow, hb]

/-! ## GET_POSITION -/

/-- GET_POSITION on a live, validated and bound bank. -/
theorem execGetPosition_of_bound {s : State} {d : Fin Config.nDec} {h : Fin Config.nLut}
    (hl : (s.bank d).live = true) (hv : 24 < (s.bank d).validCounter.toNat)
    (hb : boundSlot (s.bank d) = .ok h) :
    execGetPosition d.val s = .next (positionAnswer (s.bank d) (s.slot h).mem s) := by
  rw [execGetPosition, checkLive_of_live d hl, orRaise_ok, if_neg (Nat.not_le.mpr hv), hb, orFault_ok]

theorem positionAnswer_of_entry {D : Decoder} {m : Memory} {s : State}
    (h : m.read D.bitstream.toNat ≠ Memory.sentinel) :
    positionAnswer D m s = respond statusOk (m.read D.bitstream.toNat) D.timecodeTicker s := by
  simp only [positionAnswer, lookup, if_neg h]

/-- A response changes nothing but the list of responses. -/
theorem answers_respond (st : Status) (a b : Word) (s : State) : Answers (.next (respond st a b s)) s st a b :=
  ⟨_, rfl, rfl, rfl, rfl, rfl, rfl, rfl, rfl⟩

/-- Settles O37: the bitstream's entry in the table numbers the steps from the seed. -/
theorem positionCountsLfsrSteps : Obligations.PositionCountsLfsrSteps := by
  intro s d h row hslots hbound hstreams hl hv hb hrow hne
  obtain ⟨k, hk, hvalid⟩ := hbound.2 d hl
  obtain rfl : k = h := Except.ok.inj (hk.symm.trans hb)
  obtain ⟨row', hrow', ht⟩ := hslots k hvalid
  obtain rfl : row' = row := Except.ok.inj (hrow'.symm.trans hrow)
  have hbits : (s.bank d).bitstream.toNat < 2 ^ row'.bits :=
    (hstreams d row' hl ((bankRow_of_boundSlot hb).trans hrow)).1
  obtain ⟨n, hn, hiter, hread⟩ := ht.iterate_of_entry (rowInRange_of_slotRow hrow)
    (hbits.trans_le (Nat.pow_le_pow_right (by decide) (by omega))) hne
  refine ⟨n, hn, hiter, ?_⟩
  rw [exec, execGetPosition_of_bound hl hv hb,
    positionAnswer_of_entry fun e => hne (read_toInt_eq_neg_one_iff.mpr e), hread]
  exact answers_respond _ _ _ _

/-! ## The stops by name -/

theorem execGetSafe_of_row_error {s : State} {d : Fin Config.nDec} {f : Fault} (hl : (s.bank d).live = true)
    (hr : bankRow s (s.bank d) = .error f) : execGetSafe d.val s = .fault f := by
  rw [execGetSafe, checkLive_of_live d hl, orRaise_ok, hr, orFault_error]

theorem execGetResolution_of_row_error {s : State} {d : Fin Config.nDec} {f : Fault}
    (hl : (s.bank d).live = true) (hr : bankRow s (s.bank d) = .error f) :
    execGetResolution d.val s = .fault f := by
  rw [execGetResolution, checkLive_of_live d hl, orRaise_ok, hr, orFault_error]

theorem execGetPosition_of_unbound {s : State} {d : Fin Config.nDec} {f : Fault} (hl : (s.bank d).live = true)
    (hv : 24 < (s.bank d).validCounter.toNat) (hb : boundSlot (s.bank d) = .error f) :
    execGetPosition d.val s = .fault f := by
  rw [execGetPosition, checkLive_of_live d hl, orRaise_ok, if_neg (Nat.not_le.mpr hv), hb, orFault_error]

theorem execSample_of_row_error {s : State} {d : Fin Config.nDec} {l r : Int} {f : Fault}
    (hl : (s.bank d).live = true) (hv : (s.bank d).rateValid = true) (hs : (s.bank d).swapped l r = true)
    (hr : bankRow s (s.bank d) = .error f) : execSample d.val l r s = .fault f := by
  rw [execSample, checkLive_of_live d hl, orRaise_ok, if_pos hv, if_pos hs, hr, orFault_error]

/-- Settles O58: each reading of an unbound bank stops with its fault. -/
theorem unboundBanksStopByName : Obligations.UnboundBanksStopByName := by
  intro s d l r hl
  refine ⟨fun hle => ?_, fun h hh hnone => ?_⟩
  · have hb := boundSlot_of_le hle
    have hr := bankRow_of_unbound (s := s) hb
    exact ⟨execGetSafe_of_row_error hl hr, execGetResolution_of_row_error hl hr,
      fun hv => execGetPosition_of_unbound hl hv hb, fun hv hs => execSample_of_row_error hl hv hs hr⟩
  · have hr := (bankRow_of_boundSlot (s := s) (boundSlot_of_handle hh)).trans (slotRow_of_no_variant hnone)
    exact ⟨execGetSafe_of_row_error hl hr, execGetResolution_of_row_error hl hr,
      fun hv hs => execSample_of_row_error hl hv hs hr⟩

end Sys2Proof.Machine
end

section
/-! SUPPORT. What a whole SAMPLE leaves of a bank: the registers each of its two parts keeps
(spec/43_sample.md R70 to R78). -/

namespace Sys2Proof.Machine

/-! ## The parts every sample executes -/

section
variable (D : Decoder) (l r : Int)

@[simp] theorem Decoder.everySample_live : (D.everySample l r).live = D.live := by simp [everySample]
@[simp] theorem Decoder.everySample_handle : (D.everySample l r).handle = D.handle := by
  simp [everySample]
@[simp] theorem Decoder.everySample_rateValid : (D.everySample l r).rateValid = D.rateValid := by
  simp [everySample]
@[simp] theorem Decoder.everySample_rate : (D.everySample l r).rate = D.rate := by simp [everySample]
@[simp] theorem Decoder.everySample_zeroAlpha : (D.everySample l r).zeroAlpha = D.zeroAlpha := by
  simp [everySample]
@[simp] theorem Decoder.everySample_signalAlpha : (D.everySample l r).signalAlpha = D.signalAlpha := by
  simp [everySample]
@[simp] theorem Decoder.everySample_ch0 :
    (D.everySample l r).ch0 = (channelStep D.ch0 l D.zeroAlpha).1 := by simp [everySample]
@[simp] theorem Decoder.everySample_ch1 :
    (D.everySample l r).ch1 = (channelStep D.ch1 r D.zeroAlpha).1 := by simp [everySample]
@[simp] theorem Decoder.everySample_mono :
    (D.everySample l r).mono = (channelStep D.mono (l + r) D.zeroAlpha).1 := by simp [everySample]
@[simp] theorem Decoder.everySample_wavePeak :
    (D.everySample l r).wavePeak = BitVec.ofNat 33 (max D.wavePeak.toNat
      (amplitude (l + r) (channelStep D.mono (l + r) D.zeroAlpha).1.zero)) := by simp [everySample]
@[simp] theorem Decoder.everySample_halfPeak : (D.everySample l r).halfPeak = D.halfPeak := by
  simp [everySample]
@[simp] theorem Decoder.everySample_refLevel : (D.everySample l r).refLevel = D.refLevel := by
  simp [everySample]
@[simp] theorem Decoder.everySample_signalLevel :
    (D.everySample l r).signalLevel = BitVec.ofInt 33 (smoothed D.signalLevel
      (amplitude (l + r) (channelStep D.mono (l + r) D.zeroAlpha).1.zero) D.signalAlpha) := by simp [everySample]
@[simp] theorem Decoder.everySample_crossTicker :
    (D.everySample l r).crossTicker = D.crossTicker + 1 := by simp [everySample]
@[simp] theorem Decoder.everySample_forwards : (D.everySample l r).forwards = D.forwards := by
  simp [everySample]
@[simp] theorem Decoder.everySample_crossings : (D.everySample l r).crossings = D.crossings := by
  simp [everySample]
@[simp] theorem Decoder.everySample_pitchTicker : (D.everySample l r).pitchTicker = D.pitchTicker := by
  simp [everySample]
@[simp] theorem Decoder.everySample_timecodeTicker :
    (D.everySample l r).timecodeTicker = D.timecodeTicker + 1 := by simp [everySample]
@[simp] theorem Decoder.everySample_bitstream : (D.everySample l r).bitstream = D.bitstream := by
  simp [everySample]
@[simp] theorem Decoder.everySample_timecode : (D.everySample l r).timecode = D.timecode := by
  simp [everySample]
@[simp] theorem Decoder.everySample_validCounter :
    (D.everySample l r).validCounter = D.validCounter := by simp [everySample]

end

/-! ## The crossing actions -/

/-- A mono crossing is a half-cycle one, or a full-cycle one that emits a bit (R70, R73). -/
theorem Decoder.crossing_cases (D : Decoder) (row : TimecodeDef) :
    D.crossing row = D.saveHalfPeak.directionAndPitch ∨
      D.crossing row = (D.emitBit row).directionAndPitch := by
  unfold Decoder.crossing
  split
  · exact .inl rfl
  · exact .inr rfl

section
variable (D : Decoder) (row : TimecodeDef)

/-- A register that neither crossing writes is kept (R73 to R78). -/
theorem Decoder.crossing_keeps {α : Type} {f : Decoder → α} (hhalf : f D.saveHalfPeak.directionAndPitch = f D)
    (hfull : f (D.emitBit row).directionAndPitch = f D) : f (D.crossing row) = f D := by
  rcases D.crossing_cases row with h | h
  · rw [h, hhalf]
  · rw [h, hfull]

@[simp] theorem Decoder.crossing_live : (D.crossing row).live = D.live :=
  D.crossing_keeps row (f := Decoder.live) (by simp) (by simp [emitBit])
@[simp] theorem Decoder.crossing_handle : (D.crossing row).handle = D.handle :=
  D.crossing_keeps row (f := Decoder.handle) (by simp) (by simp [emitBit])
@[simp] theorem Decoder.crossing_rateValid : (D.crossing row).rateValid = D.rateValid :=
  D.crossing_keeps row (f := Decoder.rateValid) (by simp) (by simp [emitBit])
@[simp] theorem Decoder.crossing_rate : (D.crossing row).rate = D.rate :=
  D.crossing_keeps row (f := Decoder.rate) (by simp) (by simp [emitBit])
@[simp] theorem Decoder.crossing_zeroAlpha : (D.crossing row).zeroAlpha = D.zeroAlpha :=
  D.crossing_keeps row (f := Decoder.zeroAlpha) (by simp) (by simp [emitBit])
@[simp] theorem Decoder.crossing_signalAlpha : (D.crossing row).signalAlpha = D.signalAlpha :=
  D.crossing_keeps row (f := Decoder.signalAlpha) (by simp) (by simp [emitBit])
@[simp] theorem Decoder.crossing_ch0 : (D.crossing row).ch0 = D.ch0 :=
  D.crossing_keeps row (f := Decoder.ch0) (by simp) (by simp [emitBit])
@[simp] theorem Decoder.crossing_ch1 : (D.crossing row).ch1 = D.ch1 :=
  D.crossing_keeps row (f := Decoder.ch1) (by simp) (by simp [emitBit])
@[simp] theorem Decoder.crossing_mono : (D.crossing row).mono = D.mono :=
  D.crossing_keeps row (f := Decoder.mono) (by simp) (by simp [emitBit])
@[simp] theorem Decoder.crossing_signalLevel : (D.crossing row).signalLevel = D.signalLevel :=
  D.crossing_keeps row (f := Decoder.signalLevel) (by simp) (by simp [emitBit])

@[simp] theorem Decoder.crossing_crossTicker : (D.crossing row).crossTicker = 0 := rfl
@[simp] theorem Decoder.crossing_wavePeak : (D.crossing row).wavePeak = 0 := rfl

/-- The stream registers at a crossing: all kept, or a bit emitted and validated (R75, R76). -/
theorem Decoder.crossing_stream :
    ((D.crossing row).bitstream = D.bitstream ∧ (D.crossing row).timecode = D.timecode ∧
        (D.crossing row).validCounter = D.validCounter) ∨
      ((∃ b, (D.crossing row).bitstream = (D.shiftAndPredict row b).bitstream) ∧
        (D.crossing row).timecode = (D.crossing row).bitstream ∧ (D.crossing row).timecodeTicker = 0 ∧
        ((D.crossing row).validCounter = saturatingSucc D.validCounter ∨
          (D.crossing row).validCounter = 0)) := by
  rcases D.crossing_cases row with h | h
  · rw [h]
    exact .inl ⟨rfl, rfl, rfl⟩
  · rw [h]
    refine .inr ⟨⟨bitDecision D.wavePeak D.halfPeak D.refLevel, by simp [emitBit]⟩, by simp [emitBit],
      by simp [emitBit], ?_⟩
    simp only [directionAndPitch_validCounter, emitBit, refAdapt_validCounter, validate_validCounter,
      shiftAndPredict_validCounter]
    exact (em _).imp (if_pos ·) (if_neg ·)

end

theorem toNat_saturatingSucc (x : BitVec 32) : (saturatingSucc x).toNat = min (x.toNat + 1) (2 ^ 32 - 1) := by
  unfold saturatingSucc
  split
  · next h => rw [h]; decide
  · next h =>
    have hne : x.toNat ≠ 2 ^ 32 - 1 := fun e => h (BitVec.eq_of_toNat_eq (e.trans (by decide)))
    have hlt := x.isLt
    have hsucc : (x + 1).toNat = x.toNat + 1 := by bv_omega
    omega

end Sys2Proof.Machine
end

section
/-! SUPPORT. What one command leaves in each bank and in each slot, and what one step can be: the invariants
and the flags of spec/10_state.md R14 to R23 are read off these. -/

namespace Sys2Proof.Machine

/-! ## Effects on a bank and on a slot -/

/-- What command `i` can leave in bank `d` of a state `s`. -/
inductive BankEffect (s : State) (d : Fin Config.nDec) : Instr → Decoder → Prop
  | kept (i : Instr) : BankEffect s d i (s.bank d)
  | init {h : Nat} {k : Fin Config.nLut} (hk : checkValid h s = .ok k) :
    BankEffect s d (.init d.val h) (Decoder.initial h)
  | clear (hl : (s.bank d).live = true) :
    BankEffect s d (.clear d.val) (freeDecoder d.val (s.bankDraw d))
  | rate (r : Nat) (hl : (s.bank d).live = true) : BankEffect s d (.rate d.val r) ((s.bank d).withRate r)
  | sample {l r : Int} (hl : (s.bank d).live = true) (hv : (s.bank d).rateValid = true)
    (hs : (s.bank d).swapped l r = false) :
    BankEffect s d (.sample d.val l r) ((s.bank d).everySample l r)
  | crossing {l r : Int} {row : TimecodeDef} (hl : (s.bank d).live = true)
    (hv : (s.bank d).rateValid = true) (hs : (s.bank d).swapped l r = true)
    (hr : bankRow s (s.bank d) = .ok row) :
    BankEffect s d (.sample d.val l r) (((s.bank d).everySample l r).crossing row)
  | getPitch (hl : (s.bank d).live = true) : BankEffect s d (.getPitch d.val) (s.bank d).pitchRead

/-- What command `i` can leave in slot `h` of a state `s`. -/
inductive SlotEffect (s : State) (h : Fin Config.nLut) : Instr → Slot → Prop
  | kept (i : Instr) : SlotEffect s h i (s.slot h)
  | build {v : Nat} {row : TimecodeDef} {m : Memory} (hv : (s.slot h).valid = false)
    (hr : registry[v]? = some row) (hm : buildTable (s.slot h).mem row = some m) :
    SlotEffect s h (.buildLookup h.val v) { valid := true, variant := BitVec.ofNat 3 v, mem := m }
  | wrapped {v : Nat} {row : TimecodeDef} (hv : (s.slot h).valid = false)
    (hr : registry[v]? = some row) (hm : buildTable (s.slot h).mem row = none) :
    SlotEffect s h (.buildLookup h.val v) { s.slot h with mem := freeMemory h.val (s.slotDraw h) }
  | free (hv : (s.slot h).valid = true) (hu : slotInUse s h.val = false) :
    SlotEffect s h (.freeLookup h.val) (freeSlot h.val (s.slotDraw h))

section
variable {s t : State} {d : Fin Config.nDec} {h : Fin Config.nLut} {i : Instr}

/-- A command that writes one bank has its effect there and none on another. -/
theorem bankEffect_ite {j : Fin Config.nDec} {x : Decoder} (he : BankEffect s j i x) :
    BankEffect s d i (if d = j then x else s.bank d) := by
  split
  · next hd => rw [hd]; exact he
  · exact .kept i

/-- A command that writes one slot has its effect there and none on another. -/
theorem slotEffect_ite {k : Fin Config.nLut} {x : Slot} (he : SlotEffect s k i x) :
    SlotEffect s h i (if h = k then x else s.slot h) := by
  split
  · next hk => rw [hk]; exact he
  · exact .kept i

theorem finishBuild_bank {k : Fin Config.nLut} {v : Nat} {built : Option Memory} :
    (finishBuild k v built s).bank d = s.bank d := by
  cases built <;> rfl

theorem positionAnswer_bank {D : Decoder} {m : Memory} : (positionAnswer D m s).bank d = s.bank d := by
  unfold positionAnswer
  split <;> rfl

theorem positionAnswer_slot {D : Decoder} {m : Memory} : (positionAnswer D m s).slot h = s.slot h := by
  unfold positionAnswer
  split <;> rfl

theorem exec_bankEffect (hx : exec i s = .next t) (d : Fin Config.nDec) : BankEffect s d i (t.bank d) := by
  cases i with
  | buildLookup n v =>
    obtain ⟨e, -, rfl⟩ | ⟨k, -, ⟨e, -, rfl⟩ | ⟨row, -, rfl⟩⟩ := execBuildLookup_next hx
    · exact .kept _
    · exact .kept _
    · rw [finishBuild_bank]; exact .kept _
  | freeLookup n =>
    obtain ⟨e, -, rfl⟩ | ⟨k, -, ⟨-, rfl⟩ | ⟨-, rfl⟩⟩ := execFreeLookup_next hx <;> exact .kept _
  | init n h =>
    obtain ⟨e, -, rfl⟩ | ⟨j, k, hj, hk, rfl⟩ := execInit_next hx
    · exact .kept _
    · obtain rfl := bankIndex_ok hj
      rw [bank_respond, State.bank_setBank]; exact bankEffect_ite (.init hk)
  | clear n =>
    obtain ⟨e, -, rfl⟩ | ⟨j, hj, rfl⟩ := execClear_next hx
    · exact .kept _
    · obtain ⟨rfl, hl⟩ := checkLive_ok hj
      rw [bank_respond, State.bank_releaseBank]; exact bankEffect_ite (.clear hl)
  | rate n r =>
    obtain ⟨e, -, rfl⟩ | ⟨j, hj, rfl⟩ := execRate_next hx
    · exact .kept _
    · obtain ⟨rfl, hl⟩ := checkLive_ok hj
      rw [bank_respond, State.bank_setBank]; exact bankEffect_ite (.rate r hl)
  | sample n l r =>
    obtain ⟨e, -, rfl⟩ | ⟨j, hj, ⟨-, rfl⟩ | ⟨hv, hs, rfl⟩ | ⟨hv, hs, row, hr, rfl⟩⟩ := execSample_next hx
    · exact .kept _
    · exact .kept _
    · obtain ⟨rfl, hl⟩ := checkLive_ok hj
      rw [bank_respond, State.bank_setBank]; exact bankEffect_ite (.sample hl hv hs)
    · obtain ⟨rfl, hl⟩ := checkLive_ok hj
      rw [bank_respond, State.bank_setBank]; exact bankEffect_ite (.crossing hl hv hs hr)
  | getPitch n =>
    obtain ⟨e, -, rfl⟩ | ⟨j, hj, ⟨-, rfl⟩ | ⟨-, rfl⟩⟩ := execGetPitch_next hx
    · exact .kept _
    · exact .kept _
    · obtain ⟨rfl, hl⟩ := checkLive_ok hj
      rw [bank_respond, State.bank_setBank]; exact bankEffect_ite (.getPitch hl)
  | getPosition n =>
    obtain ⟨e, -, rfl⟩ | ⟨j, -, rfl | ⟨k, -, rfl⟩⟩ := execGetPosition_next hx
    · exact .kept _
    · exact .kept _
    · rw [positionAnswer_bank]; exact .kept _
  | getAlive n => obtain ⟨e, -, rfl⟩ | ⟨j, -, rfl⟩ := execGetAlive_next hx <;> exact .kept _
  | getSafe n => obtain ⟨e, -, rfl⟩ | ⟨j, row, -, -, rfl⟩ := execGetSafe_next hx <;> exact .kept _
  | getResolution n =>
    obtain ⟨e, -, rfl⟩ | ⟨j, row, -, -, rfl⟩ := execGetResolution_next hx <;> exact .kept _
  | getStatus => obtain rfl := execGetStatus_next hx; exact .kept _

/-- What the end of BUILD_LOOKUP leaves in a slot. -/
theorem finishBuild_slotEffect {k : Fin Config.nLut} {v : Nat} {row : TimecodeDef}
    (hv : (s.slot k).valid = false) (hr : registry[v]? = some row) :
    SlotEffect s h (.buildLookup k.val v)
      ((finishBuild k v (buildTable (s.slot k).mem row) s).slot h) := by
  cases hm : buildTable (s.slot k).mem row with
  | none =>
    simp only [finishBuild, slot_raise, State.slot_scrambleMemory]
    exact slotEffect_ite (.wrapped hv hr hm)
  | some m =>
    simp only [finishBuild, slot_respond, State.slot_setSlot]
    exact slotEffect_ite (.build hv hr hm)

theorem exec_slotEffect (hx : exec i s = .next t) (h : Fin Config.nLut) : SlotEffect s h i (t.slot h) := by
  cases i with
  | buildLookup n v =>
    obtain ⟨e, -, rfl⟩ | ⟨k, hk, ⟨e, -, rfl⟩ | ⟨row, hr, rfl⟩⟩ := execBuildLookup_next hx
    · exact .kept _
    · exact .kept _
    · obtain ⟨rfl, hv⟩ := checkVacant_ok hk
      exact finishBuild_slotEffect hv (checkBuildable_ok hr).1
  | freeLookup n =>
    obtain ⟨e, -, rfl⟩ | ⟨k, hk, ⟨-, rfl⟩ | ⟨hu, rfl⟩⟩ := execFreeLookup_next hx
    · exact .kept _
    · exact .kept _
    · obtain ⟨rfl, hv⟩ := checkValid_ok hk
      rw [slot_respond, State.slot_releaseSlot]
      exact slotEffect_ite (.free hv hu)
  | init n h => obtain ⟨e, -, rfl⟩ | ⟨j, k, -, -, rfl⟩ := execInit_next hx <;> exact .kept _
  | clear n => obtain ⟨e, -, rfl⟩ | ⟨j, -, rfl⟩ := execClear_next hx <;> exact .kept _
  | rate n r => obtain ⟨e, -, rfl⟩ | ⟨j, -, rfl⟩ := execRate_next hx <;> exact .kept _
  | sample n l r =>
    obtain ⟨e, -, rfl⟩ | ⟨j, -, ⟨-, rfl⟩ | ⟨-, -, rfl⟩ | ⟨-, -, row, -, rfl⟩⟩ := execSample_next hx <;>
      exact .kept _
  | getPitch n =>
    obtain ⟨e, -, rfl⟩ | ⟨j, -, ⟨-, rfl⟩ | ⟨-, rfl⟩⟩ := execGetPitch_next hx <;> exact .kept _
  | getPosition n =>
    obtain ⟨e, -, rfl⟩ | ⟨j, -, rfl | ⟨k, -, rfl⟩⟩ := execGetPosition_next hx
    · exact .kept _
    · exact .kept _
    · rw [positionAnswer_slot]; exact .kept _
  | getAlive n => obtain ⟨e, -, rfl⟩ | ⟨j, -, rfl⟩ := execGetAlive_next hx <;> exact .kept _
  | getSafe n => obtain ⟨e, -, rfl⟩ | ⟨j, row, -, -, rfl⟩ := execGetSafe_next hx <;> exact .kept _
  | getResolution n =>
    obtain ⟨e, -, rfl⟩ | ⟨j, row, -, -, rfl⟩ := execGetResolution_next hx <;> exact .kept _
  | getStatus => obtain rfl := execGetStatus_next hx; exact .kept _

/-! ## What an effect says of the flags -/

theorem BankEffect.live_rises {D : Decoder} (he : BankEffect s d i D) (h0 : (s.bank d).live = false)
    (h1 : D.live = true) : ∃ h, i = .init d.val h := by
  cases he with
  | kept => rw [h0] at h1; cases h1
  | init => exact ⟨_, rfl⟩
  | clear hl => rw [h0] at hl; cases hl
  | rate r hl => rw [h0] at hl; cases hl
  | sample hl => rw [h0] at hl; cases hl
  | crossing hl => rw [h0] at hl; cases hl
  | getPitch hl => rw [h0] at hl; cases hl

theorem BankEffect.live_falls {D : Decoder} (he : BankEffect s d i D) (h0 : (s.bank d).live = true)
    (h1 : D.live = false) : i = .clear d.val := by
  cases he with
  | clear => rfl
  | init => cases h1
  | kept | rate | sample | crossing | getPitch => simp [h0] at h1

theorem BankEffect.rateValid_rises {D : Decoder} (he : BankEffect s d i D) (hl : D.live = true)
    (h0 : (s.bank d).rateValid = false) (h1 : D.rateValid = true) : ∃ r, i = .rate d.val r := by
  cases he with
  | rate => exact ⟨_, rfl⟩
  | init => cases h1
  | clear => cases hl
  | kept | sample | crossing | getPitch => simp [h0] at h1

theorem BankEffect.rateValid_falls {D : Decoder} (he : BankEffect s d i D) (hl : D.live = true)
    (h0 : (s.bank d).rateValid = true) (h1 : D.rateValid = false) : ∃ h, i = .init d.val h := by
  cases he with
  | init => exact ⟨_, rfl⟩
  | rate => cases h1
  | clear => cases hl
  | kept | sample | crossing | getPitch => simp [h0] at h1

theorem SlotEffect.valid_rises {x : Slot} (he : SlotEffect s h i x) (h0 : (s.slot h).valid = false)
    (h1 : x.valid = true) : ∃ v, i = .buildLookup h.val v := by
  cases he with
  | kept => rw [h0] at h1; cases h1
  | build => exact ⟨_, rfl⟩
  | wrapped => exact ⟨_, rfl⟩
  | free => cases h1

theorem SlotEffect.valid_falls {x : Slot} (he : SlotEffect s h i x) (h0 : (s.slot h).valid = true)
    (h1 : x.valid = false) : i = .freeLookup h.val := by
  cases he with
  | kept => rw [h0] at h1; cases h1
  | build => cases h1
  | wrapped hv => rw [h0] at hv; cases hv
  | free => rfl

/-- A slot that stays valid is not written. -/
theorem SlotEffect.eq_of_valid {x : Slot} (he : SlotEffect s h i x) (h0 : (s.slot h).valid = true)
    (h1 : x.valid = true) : x = s.slot h := by
  cases he with
  | kept => rfl
  | build hv => rw [h0] at hv; cases hv
  | wrapped hv => rw [h0] at hv; cases hv
  | free => cases h1

/-! ## What a step can be -/

/-- A step is a reset, or a command, or it writes no bank and no slot (R4, R101, R112, R120). -/
theorem step_units (hx : step s = .next t) :
    (∃ rest, s.port = .reset :: rest ∧ t = hardwareReset { s with port := rest }) ∨
      (∃ w rest i, s.port = .command w :: rest ∧ decode w = .ok i ∧
        exec i { s with port := rest } = .next t) ∨
      ((∀ d, t.bank d = s.bank d) ∧ ∀ h, t.slot h = s.slot h) := by
  obtain ⟨-, rfl⟩ | hr | hc | ⟨w, rest, e, -, -, rfl⟩ := step_next hx
  · exact .inr (.inr ⟨fun _ => rfl, fun _ => rfl⟩)
  · exact .inl hr
  · exact .inr (.inl hc)
  · exact .inr (.inr ⟨fun _ => rfl, fun _ => rfl⟩)

/-- A slot that is valid before and after a step is the same slot. -/
theorem step_slot_eq (hx : step s = .next t) (h0 : (s.slot h).valid = true) (h1 : (t.slot h).valid = true) :
    t.slot h = s.slot h := by
  obtain ⟨rest, -, rfl⟩ | ⟨w, rest, i, -, -, hc⟩ | ⟨-, hs⟩ := step_units hx
  · rw [slot_hardwareReset] at h1; cases h1
  · exact (exec_slotEffect hc h).eq_of_valid h0 h1
  · exact hs h

end

/-! ## The flags -/

/-- Settles O47: the only command that keeps a valid slot valid is one that does not write it. -/
theorem validSlotIsImmutable : Obligations.ValidSlotIsImmutable :=
  fun _ _ _ hx h0 h1 => step_slot_eq hx h0 h1

/-- Settles O46, from what a command leaves in each bank and slot. -/
theorem flagsChangeOnlyByTheirCommands : Obligations.FlagsChangeOnlyByTheirCommands := by
  intro s t hx takes resets
  obtain ⟨rest, hp, rfl⟩ | ⟨w, rest, i, hp, hd, hc⟩ | ⟨hb, hs⟩ := step_units hx
  · have hr : resets := ⟨rest, hp⟩
    simp [hr]
  · have taken : ∀ {j}, i = j → takes j := fun e => ⟨w, rest, hp, e ▸ hd⟩
    refine ⟨fun d h0 h1 => ?_, fun d h0 h1 => ?_, fun h h0 h1 => ?_, fun h h0 h1 => ?_,
      fun d _ h1 => ⟨fun r0 r1 => ?_, fun r0 r1 => ?_⟩⟩
    · exact ((exec_bankEffect hc d).live_rises h0 h1).imp fun _ => taken
    · exact .inl (taken ((exec_bankEffect hc d).live_falls h0 h1))
    · exact ((exec_slotEffect hc h).valid_rises h0 h1).imp fun _ => taken
    · exact .inl (taken ((exec_slotEffect hc h).valid_falls h0 h1))
    · exact ((exec_bankEffect hc d).rateValid_rises h1 r0 r1).imp fun _ => taken
    · exact ((exec_bankEffect hc d).rateValid_falls h1 r0 r1).imp fun _ => taken
  · simp +contextual [hb, hs]

/-- Settles O33: the counter and the streams at a crossing, and without one. -/
theorem validCounterRisesByOneOrRestarts : Obligations.ValidCounterRisesByOneOrRestarts := by
  intro s t d l r hx
  have he := exec_bankEffect hx d
  generalize t.bank d = D at he ⊢
  cases he with
  | kept => exact .inl ⟨rfl, rfl, rfl⟩
  | sample => exact .inl (by simp)
  | @crossing _ _ row =>
    have hstream := ((s.bank d).everySample l r).crossing_stream row
    simp only [Decoder.everySample_bitstream, Decoder.everySample_timecode,
      Decoder.everySample_validCounter] at hstream
    obtain ⟨hb, ht, hv⟩ | ⟨-, ht, hz, hv⟩ := hstream
    · exact .inl ⟨hv, hb, ht⟩
    · exact .inr ⟨ht, hz, hv.imp_left fun e => by rw [e, toNat_saturatingSucc]⟩

/-- The bits of `err_flags` after an error (R101). -/
theorem getLsbD_setErrorFlag (flags : BitVec 9) (e : ErrorCode) {i : Nat} (hi : i < 9) :
    (setErrorFlag flags e).getLsbD i = (flags.getLsbD i || decide (i = e.bit)) := by
  simp only [setErrorFlag, BitVec.getLsbD_or, BitVec.getLsbD_shiftLeft, BitVec.getLsbD_one]
  congr 1
  by_cases h : i = e.bit
  · simp [h, h ▸ hi]
  · have : ¬ (i - e.bit = 0 ∧ ¬ i < e.bit) := by omega
    simp [h]; omega

theorem ErrorCode.status_eq (e : ErrorCode) : e.status = BitVec.ofNat 8 (0x10 + e.bit) := by
  cases e <;> rfl

/-- A command's answer keeps the error bits, but for the bit of the error it answers (R14, R101). -/
theorem Answered.errFlags {s t : State} (h : Answered s t) {i : Nat} (hi : i < 9) :
    (s.errFlags.getLsbD i = true → t.errFlags.getLsbD i = true) ∧
      (t.errFlags.getLsbD i = true → s.errFlags.getLsbD i = true ∨
        t.responses = responseWord (BitVec.ofNat 8 (0x10 + i)) 0 0 :: s.responses) := by
  cases h with
  | none hu => simp only [respond_errFlags, hu.errFlags]; exact ⟨id, .inl⟩
  | ok a b hu => simp only [respond_errFlags, hu.errFlags]; exact ⟨id, .inl⟩
  | raised e hu =>
    simp only [raise_errFlags, getLsbD_setErrorFlag _ _ hi, hu.errFlags, raise_responses, hu.responses,
      Bool.or_eq_true, decide_eq_true_eq]
    exact ⟨.inl, Or.imp_right fun h => by rw [h, e.status_eq]⟩

/-- Settles O45: only an error's answer writes the flags. -/
theorem errorFlagsAreSticky : Obligations.ErrorFlagsAreSticky := by
  intro s t hx hreset i hi
  cases hp : s.port with
  | nil =>
    obtain rfl : s = t := by simpa [step, hp] using hx
    exact ⟨id, .inl⟩
  | cons input rest =>
    cases input with
    | reset => exact absurd hp (hreset rest)
    | command w => exact (step_command_answered hp hx).errFlags hi

end Sys2Proof.Machine
end

section
/-! SUPPORT. Invariants of the whole state: how a step leads from one to another, and that live banks stay bound,
valid slots keep their tables and the streams stay below `2^B` (spec/10_state.md R16, R17, R19). -/

namespace Sys2Proof

/-! ## A decoded command is well-formed -/

theorem fitsPcm_sext16 {n : Nat} (h : n < 65536) : fitsPcm (sext16 n) = true := by
  have h1 : -32768 ≤ sext16 n ∧ sext16 n ≤ 32767 := by
    unfold sext16
    split <;> omega
  simpa [fitsPcm] using h1

/-- Fields in their widths assemble to a command a word can carry (R40, R41). -/
theorem Opcode.assemble_wellFormed (o : Opcode) {f : Fields} (hu : f.unit < 256) (ha : f.aux < 256)
    (ho : f.operand < 4294967296) : (o.assemble f).wellFormed = true := by
  have hl := fitsPcm_sext16 (Nat.mod_lt f.operand (by decide : 0 < 65536))
  have hr := fitsPcm_sext16 (n := f.operand / 65536) (by omega)
  cases o <;> simp [Opcode.assemble, Instr.wellFormed, fitsUnit, fitsOperand, hu, ha, ho, hl, hr]

theorem decode_wellFormed {w : CommandWord} {i : Instr} (h : decode w = .ok i) : i.wellFormed = true := by
  simp only [decode] at h
  split at h
  · cases h
  · next o _ =>
    split at h
    · split at h
      · cases h
        exact o.assemble_wellFormed (BitVec.isLt _) (BitVec.isLt _) (BitVec.isLt _)
      · cases h
    · cases h

end Sys2Proof

namespace Sys2Proof.Machine

/-! ## Invariants of the whole state -/

/-- A step leads from `P` to `Q` when a reset leads to `Q`, every command does, and neither looks at the input
port or the answer to an illegal word. -/
theorem step_leads {P Q : State → Prop} (hport : ∀ x rest, P x → P { x with port := rest })
    (hidle : ∀ x, P x → Q x) (hillegal : ∀ x, Q x → Q (raise .illegal x)) (hreset : ∀ x, Q (hardwareReset x))
    (hexec : ∀ {i x y}, i.wellFormed = true → P x → exec i x = .next y → Q y) {s t : State} (hs : P s)
    (hx : step s = .next t) : Q t := by
  obtain ⟨-, rfl⟩ | ⟨rest, -, rfl⟩ | ⟨w, rest, i, -, hd, hc⟩ | ⟨w, rest, e, -, -, rfl⟩ := step_next hx
  · exact hidle _ hs
  · exact hreset _
  · exact hexec (decode_wellFormed hd) (hport _ _ hs) hc
  · exact hillegal _ (hidle _ (hport _ _ hs))

/-- A reset leaves no live bank. -/
theorem not_live_hardwareReset {s : State} {d : Fin Config.nDec} : ¬ ((hardwareReset s).bank d).live = true := by
  simp

/-- A reset leaves no valid slot. -/
theorem not_valid_hardwareReset {s : State} {h : Fin Config.nLut} :
    ¬ ((hardwareReset s).slot h).valid = true := by simp

/-! ## Every live bank stays bound -/

section
variable {s t : State} {d : Fin Config.nDec} {h : Fin Config.nLut} {i : Instr}

theorem slotInUse_of_bound (hl : (s.bank d).live = true) (hb : boundSlot (s.bank d) = .ok h) :
    slotInUse s h.val = true := slotInUse_iff.mpr ⟨d, hl, boundSlot_ok hb⟩

/-- A valid slot with a live bank bound to it stays as it is: FREE_LOOKUP answers busy (R58). -/
theorem SlotEffect.eq_of_bound {x : Slot} (he : SlotEffect s h i x) (hv : (s.slot h).valid = true)
    (hl : (s.bank d).live = true) (hb : boundSlot (s.bank d) = .ok h) : x = s.slot h := by
  cases he with
  | kept => rfl
  | build hv' => rw [hv] at hv'; cases hv'
  | wrapped hv' => rw [hv] at hv'; cases hv'
  | free _ hu => rw [slotInUse_of_bound hl hb] at hu; cases hu

/-- INIT writes no slot. -/
theorem SlotEffect.eq_of_init {x : Slot} {n k : Nat} (he : SlotEffect s h (.init n k) x) : x = s.slot h := by
  cases he
  rfl

theorem boundSlot_initial (k : Fin Config.nLut) : boundSlot (Decoder.initial k.val) = .ok k := by
  revert k
  decide

/-- A bank that is live after a command was live before and keeps its handle, or INIT has just bound it to a
valid slot. -/
theorem BankEffect.handle_cases {D : Decoder} (he : BankEffect s d i D) (hl : D.live = true) :
    ((s.bank d).live = true ∧ D.handle = (s.bank d).handle) ∨
      ∃ k, i = .init d.val k.val ∧ D = Decoder.initial k.val ∧ (s.slot k).valid = true := by
  cases he with
  | kept => exact .inl ⟨hl, rfl⟩
  | init hk =>
    obtain ⟨rfl, hv⟩ := checkValid_ok hk
    exact .inr ⟨_, rfl, rfl, hv⟩
  | clear => cases hl
  | rate _ h | sample h | crossing h | getPitch h => exact .inl ⟨h, by simp⟩

theorem boundSlot_congr {D E : Decoder} (h : D.handle = E.handle) : boundSlot D = boundSlot E := by
  simp only [boundSlot, h]

theorem bankRow_congr {D E : Decoder} (h : D.handle = E.handle) : bankRow s D = bankRow s E := by
  simp only [bankRow, boundSlot_congr h]

/-- A variant of the registry fits the slot's variant register. -/
theorem slotRow_built {v : Nat} {row : TimecodeDef} {m : Memory} (hr : registry[v]? = some row) :
    slotRow { valid := true, variant := BitVec.ofNat 3 v, mem := m } = .ok row := by
  refine slotRow_of_variant ?_
  have hv : v < registry.length := (List.getElem?_eq_some_iff.mp hr).1
  rw [registryRowsAreInRange.1] at hv
  rw [BitVec.toNat_ofNat, Nat.mod_eq_of_lt (by omega), hr]

theorem exec_banksBound (hs : BanksBound s) (hx : exec i s = .next t) : BanksBound t := by
  refine ⟨fun h hv => ?_, fun d hl => ?_⟩
  · have he := exec_slotEffect hx h
    generalize t.slot h = x at he hv ⊢
    cases he with
    | kept => exact hs.1 h hv
    | build _ hr => exact ⟨_, slotRow_built hr⟩
    | wrapped h0 => rw [h0] at hv; cases hv
    | free => cases hv
  · obtain ⟨h0, hh⟩ | ⟨k, rfl, hD, hv⟩ := (exec_bankEffect hx d).handle_cases hl
    · obtain ⟨h, hb, hv⟩ := hs.2 d h0
      exact ⟨h, (boundSlot_congr hh).trans hb, by rw [(exec_slotEffect hx h).eq_of_bound hv h0 hb, hv]⟩
    · exact ⟨k, by rw [hD, boundSlot_initial], by rw [(exec_slotEffect hx k).eq_of_init, hv]⟩

/-- A bank that stays live with its handle keeps its variant. -/
theorem exec_bankRow (hs : BanksBound s) (hx : exec i s = .next t) (hl : (s.bank d).live = true)
    (hh : (t.bank d).handle = (s.bank d).handle) : bankRow t (t.bank d) = bankRow s (s.bank d) := by
  obtain ⟨h, hb, hv⟩ := hs.2 d hl
  rw [bankRow_of_boundSlot ((boundSlot_congr hh).trans hb), bankRow_of_boundSlot hb,
    (exec_slotEffect hx h).eq_of_bound hv hl hb]

end

theorem banksBound_hardwareReset (s : State) : BanksBound (hardwareReset s) :=
  ⟨fun _ hv => absurd hv not_valid_hardwareReset, fun _ hl => absurd hl not_live_hardwareReset⟩

/-- Settles O52: a slot with a live bank bound to it is never freed, and INIT binds to a valid slot. -/
theorem stepKeepsBanksBound : Obligations.StepKeepsBanksBound :=
  fun _ _ hs hx => step_leads (fun _ _ h => h) (fun _ h => h) (fun _ h => h) banksBound_hardwareReset
    (fun _ => exec_banksBound) hs hx

/-! ## Every valid slot holds its variant's table -/

theorem exec_slotsBuilt {s t : State} {i : Instr} (hm : MemoriesCanonical s) (hs : SlotsBuilt s)
    (hx : exec i s = .next t) : SlotsBuilt t := by
  intro h hv
  have he := exec_slotEffect hx h
  generalize t.slot h = x at he hv ⊢
  cases he with
  | kept => exact hs h hv
  | build _ hr hb =>
    have hrow := rowInRange_of_mem_registry (List.mem_of_getElem? hr)
    exact ⟨_, slotRow_built hr, (buildTableHoldsTheCycle _ _ _ (hm h).1 hrow hb).1⟩
  | wrapped h0 => rw [h0] at hv; cases hv
  | free => cases hv

/-- Settles O51: a slot becomes valid by a build alone, which leaves the table of O16. -/
theorem stepKeepsSlotsBuilt : Obligations.StepKeepsSlotsBuilt := fun _ _ hm hs hx =>
  step_leads (P := fun s => MemoriesCanonical s ∧ SlotsBuilt s) (Q := SlotsBuilt) (fun _ _ h => h)
    (fun _ h => h.2) (fun _ h => h) (fun _ _ hv => absurd hv not_valid_hardwareReset)
    (fun _ h hx => exec_slotsBuilt h.1 h.2 hx) ⟨hm, hs⟩ hx

/-! ## The stream registers stay below `2^B` -/

theorem shiftForward_lt {x B : Nat} {b : Bool} (hB : 1 ≤ B) (hx : x < 2 ^ B) : shiftForward x B b < 2 ^ B := by
  refine Nat.or_lt_two_pow (Nat.lt_of_le_of_lt (Nat.shiftRight_le _ _) hx) ?_
  rw [Nat.shiftLeft_eq]
  calc b.toNat * 2 ^ (B - 1) ≤ 1 * 2 ^ (B - 1) := Nat.mul_le_mul_right _ (Bool.toNat_le b)
    _ < 2 ^ B := by rw [Nat.one_mul]; exact Nat.pow_lt_pow_right (by decide) (by omega)

theorem shiftBackward_lt {x B : Nat} {b : Bool} (hB : 1 ≤ B) : shiftBackward x B b < 2 ^ B := by
  have hmask : mask B < 2 ^ B := Nat.sub_lt (Nat.two_pow_pos B) Nat.one_pos
  refine Nat.or_lt_two_pow (Nat.lt_of_le_of_lt Nat.and_le_right hmask) ?_
  exact Nat.lt_of_le_of_lt (Bool.toNat_le b) (Nat.one_lt_two_pow (by omega))

theorem Decoder.shiftAndPredict_bitstream_lt {D : Decoder} {row : TimecodeDef} (b : Bool) (hB : 1 ≤ row.bits)
    (hD : D.bitstream.toNat < 2 ^ row.bits) : (D.shiftAndPredict row b).bitstream.toNat < 2 ^ row.bits := by
  rw [shiftAndPredict_bitstream, BitVec.toNat_ofNat]
  refine Nat.lt_of_le_of_lt (Nat.mod_le _ _) ?_
  split
  · exact shiftForward_lt hB hD
  · exact shiftBackward_lt hB

/-- The streams of a bank fit the width of a row. -/
def Decoder.streamsBelow (D : Decoder) (B : Nat) : Prop := D.bitstream.toNat < 2 ^ B ∧ D.timecode.toNat < 2 ^ B

theorem Decoder.crossing_streamsBelow {D : Decoder} {row : TimecodeDef} (hB : 1 ≤ row.bits)
    (hD : D.streamsBelow row.bits) : (D.crossing row).streamsBelow row.bits := by
  unfold streamsBelow
  obtain ⟨hb, ht, -⟩ | ⟨⟨b, hb⟩, ht, -⟩ := D.crossing_stream row
  · rw [hb, ht]; exact hD
  · rw [ht, hb]
    have hlt := shiftAndPredict_bitstream_lt b hB hD.1
    exact ⟨hlt, hlt⟩

theorem BankEffect.streamsBelow {s : State} {d : Fin Config.nDec} {i : Instr} {D : Decoder} {row : TimecodeDef}
    (he : BankEffect s d i D) (hr : bankRow s (s.bank d) = .ok row) (hl : D.live = true)
    (hD : (s.bank d).streamsBelow row.bits) : D.streamsBelow row.bits := by
  cases he with
  | init => exact ⟨Nat.two_pow_pos _, Nat.two_pow_pos _⟩
  | clear => cases hl
  | crossing _ _ _ hr' =>
    obtain rfl := Except.ok.inj (hr.symm.trans hr')
    obtain ⟨k, -, hk⟩ := bankRow_ok hr
    exact Decoder.crossing_streamsBelow (rowInRange_of_slotRow hk).bits.1
      (by simpa [Decoder.streamsBelow] using hD)
  | kept | rate | sample | getPitch => simpa [Decoder.streamsBelow] using hD

theorem exec_streamsInRange {s t : State} {i : Instr} (hb : BanksBound s) (hs : StreamsInRange s)
    (hx : exec i s = .next t) : StreamsInRange t := by
  intro d row hl hr
  have he := exec_bankEffect hx d
  obtain ⟨h0, hh⟩ | ⟨k, -, hD, -⟩ := he.handle_cases hl
  · rw [exec_bankRow hb hx h0 hh] at hr
    exact he.streamsBelow hr hl (hs d row h0 hr)
  · rw [hD]
    exact ⟨Nat.two_pow_pos _, Nat.two_pow_pos _⟩

/-- Settles O53: a bank keeps its variant while it is live, and a shift by a bit stays below `2^B`. -/
theorem stepKeepsStreamsInRange : Obligations.StepKeepsStreamsInRange := fun _ _ hb hs hx =>
  step_leads (P := fun s => BanksBound s ∧ StreamsInRange s) (Q := StreamsInRange) (fun _ _ h => h)
    (fun _ h => h.2) (fun _ h => h) (fun _ _ _ hl => absurd hl not_live_hardwareReset)
    (fun _ h hx => exec_streamsInRange h.1 h.2 hx) ⟨hb, hs⟩ hx

end Sys2Proof.Machine
end

section
/-! SUPPORT. Invariants of each live bank: what INIT establishes and every command keeps. The coefficients and
counters of spec/10_state.md R16, R21, R23, and the level quantities of R20 (spec/42_tracker_and_rate.md R65). -/

namespace Sys2Proof.Machine

/-! ## Invariants of a bank -/

/-- A property that a bank has after INIT and that every command keeps. -/
structure BankInvariant (I : Decoder → Prop) : Prop where
  initial : ∀ h, I (Decoder.initial h)
  withRate : ∀ {D r}, fitsOperand r = true → I D → I (D.withRate r)
  everySample : ∀ {D l r}, fitsPcm l = true → fitsPcm r = true → D.swapped l r = false → I D →
    I (D.everySample l r)
  crossing : ∀ {D l r} row, fitsPcm l = true → fitsPcm r = true → D.swapped l r = true → I D →
    I ((D.everySample l r).crossing row)
  pitchRead : ∀ {D}, I D → I D.pitchRead

theorem BankInvariant.effect {I : Decoder → Prop} (hI : BankInvariant I) {s : State} {d : Fin Config.nDec}
    {i : Instr} {D : Decoder} (hw : i.wellFormed = true) (hs : (s.bank d).live = true → I (s.bank d))
    (he : BankEffect s d i D) (hl : D.live = true) : I D := by
  cases he with
  | kept => exact hs hl
  | init => exact hI.initial _
  | clear => cases hl
  | rate r h =>
    simp only [Instr.wellFormed, Bool.and_eq_true] at hw
    exact hI.withRate hw.2 (hs h)
  | sample h _ hc =>
    simp only [Instr.wellFormed, Bool.and_eq_true] at hw
    exact hI.everySample hw.1.2 hw.2 hc (hs h)
  | crossing h _ hc =>
    simp only [Instr.wellFormed, Bool.and_eq_true] at hw
    exact hI.crossing _ hw.1.2 hw.2 hc (hs h)
  | getPitch h => exact hI.pitchRead (hs h)

/-- Every step keeps a bank invariant in every live bank. -/
theorem BankInvariant.step {I : Decoder → Prop} (hI : BankInvariant I) {s t : State}
    (hs : ∀ d, (s.bank d).live = true → I (s.bank d)) (hx : Machine.step s = .next t) :
    ∀ d, (t.bank d).live = true → I (t.bank d) := by
  let P : State → Prop := fun s => ∀ d, (s.bank d).live = true → I (s.bank d)
  exact step_leads (P := P) (Q := P) (fun _ _ h => h) (fun _ h => h) (fun _ h => h)
    (fun _ _ hl => absurd hl not_live_hardwareReset)
    (fun hw h hc d => hI.effect hw (h d) (exec_bankEffect hc d)) hs hx

/-! ## Coefficients and counters -/

theorem zeroCoeff_le (r : Nat) : zeroCoeff r ≤ 65536 := by
  unfold zeroCoeff
  exact Nat.div_le_of_le_mul (by omega)

theorem signalCoeff_le (r : Nat) : signalCoeff r ≤ 65536 := by
  unfold signalCoeff
  exact Nat.div_le_of_le_mul (by omega)

theorem Decoder.withRate_zeroAlpha_toNat (D : Decoder) (r : Nat) :
    (D.withRate r).zeroAlpha.toNat = zeroCoeff r := by
  rw [withRate_zeroAlpha, BitVec.toNat_ofNat, Nat.mod_eq_of_lt (by have := zeroCoeff_le r; omega)]

theorem Decoder.withRate_signalAlpha_toNat (D : Decoder) (r : Nat) :
    (D.withRate r).signalAlpha.toNat = signalCoeff r := by
  rw [withRate_signalAlpha, BitVec.toNat_ofNat, Nat.mod_eq_of_lt (by have := signalCoeff_le r; omega)]

/-- The coefficients of a bank are those of its rate, once it has one (10_state.md R16). -/
def Decoder.coefficientsFollow (D : Decoder) : Prop :=
  D.rateValid = true →
    D.zeroAlpha.toNat = zeroCoeff D.rate.toNat ∧ D.signalAlpha.toNat = signalCoeff D.rate.toNat

theorem coefficientsFollow_invariant : BankInvariant Decoder.coefficientsFollow where
  initial _ hv := by cases hv
  withRate {D r} hr _ _ := by
    have hrate : (D.withRate r).rate.toNat = r := by
      simpa [fitsOperand, Nat.mod_eq_of_lt] using hr
    rw [hrate, D.withRate_zeroAlpha_toNat, D.withRate_signalAlpha_toNat]
    exact ⟨rfl, rfl⟩
  everySample _ _ _ h := h
  crossing _ _ _ _ h := by simpa [Decoder.coefficientsFollow] using h
  pitchRead h := h

/-- Prediction and observation agree in a bank, and so do its counters of samples since a mono crossing. -/
def Decoder.countersAgree (D : Decoder) : Prop :=
  D.timecode = D.bitstream ∧ D.crossTicker = D.mono.crossingTicker

theorem channelStep_crossingTicker (ch : ChannelState) (v : Int) (a : BitVec 17) :
    (channelStep ch v a).1.crossingTicker =
      if (channelStep ch v a).2 = true then 0 else ch.crossingTicker + 1 := rfl

theorem countersAgree_invariant : BankInvariant Decoder.countersAgree where
  initial _ := ⟨rfl, rfl⟩
  withRate _ h := h
  everySample _ _ hs h := by
    refine ⟨h.1, ?_⟩
    rw [Decoder.everySample_mono, channelStep_crossingTicker, if_neg (Bool.not_eq_true _ ▸ hs), ← h.2]
    rfl
  crossing {D l r} row _ _ hs h := by
    constructor
    · obtain ⟨hb, ht, -⟩ | ⟨-, ht, -⟩ := (D.everySample l r).crossing_stream row
      · rw [hb, ht]; exact h.1
      · exact ht
    · rw [Decoder.crossing_crossTicker, Decoder.crossing_mono, Decoder.everySample_mono,
        channelStep_crossingTicker]
      exact (if_pos hs).symm
  pitchRead h := h

/-- Settles O55: the two bank invariants. -/
theorem stepKeepsCountersAndCoefficients : Obligations.StepKeepsCountersAndCoefficients :=
  fun _ _ hc ha hx => ⟨coefficientsFollow_invariant.step hc hx, countersAgree_invariant.step ha hx⟩

/-! ## The level quantities -/

/-- A low-pass with a coefficient at most 1.0 stays between the old value and the new one (R65). -/
theorem lowPass_bounds {lo hi x y : Int} {a : BitVec 17} (ha : a.toNat ≤ 65536) (hx : lo ≤ x ∧ x ≤ hi)
    (hy : lo ≤ y ∧ y ≤ hi) : lo ≤ x + scaledProduct a (y - x) ∧ x + scaledProduct a (y - x) ≤ hi := by
  have hcoeff : (a.toNat : Int) ≤ 65536 := by exact_mod_cast ha
  have hnonneg : (0 : Int) ≤ a.toNat := Int.natCast_nonneg _
  have hlow : lo - x ≤ scaledProduct a (y - x) := Int.le_ediv_of_mul_le (by decide) <| calc
    (lo - x) * 65536 ≤ (lo - x) * a.toNat := mul_le_mul_of_nonpos_left hcoeff (by omega)
    _ = a.toNat * (lo - x) := mul_comm _ _
    _ ≤ a.toNat * (y - x) := mul_le_mul_of_nonneg_left (by omega) hnonneg
  have hhigh : scaledProduct a (y - x) ≤ hi - x := Int.ediv_le_of_le_mul (by decide) <| calc
    a.toNat * (y - x) ≤ a.toNat * (hi - x) := mul_le_mul_of_nonneg_left (by omega) hnonneg
    _ = (hi - x) * a.toNat := mul_comm _ _
    _ ≤ (hi - x) * 65536 := mul_le_mul_of_nonneg_left hcoeff (by omega)
  omega

theorem levelOf_eq (v : Int) : levelOf v = v * 65536 := rfl

theorem fitsPcm_bounds {v : Int} (h : fitsPcm v = true) : -32768 ≤ v ∧ v ≤ 32767 := by
  simpa [fitsPcm] using h

/-- A tracker whose estimate and sample are in a range of the register keeps the estimate there (R64, R65). -/
theorem channelStep_zero_bounds {ch : ChannelState} {v lo hi : Int} {a : BitVec 17} (hlo : -65536 ≤ lo)
    (hhi : hi ≤ 65534) (ha : a.toNat ≤ 65536) (hv : lo ≤ v ∧ v ≤ hi)
    (hz : lo * 65536 ≤ ch.zero.toInt ∧ ch.zero.toInt ≤ hi * 65536) :
    lo * 65536 ≤ (channelStep ch v a).1.zero.toInt ∧ (channelStep ch v a).1.zero.toInt ≤ hi * 65536 := by
  have hb := lowPass_bounds ha hz (y := levelOf v) (by rw [levelOf_eq]; omega)
  rw [show (channelStep ch v a).1.zero = BitVec.ofInt 33 (trackedZero ch.zero.toInt (levelOf v) a) from rfl,
    trackedZero, BitVec.toInt_ofInt_eq_self (by decide) (by norm_num; omega) (by norm_num; omega)]
  exact hb

theorem amplitude_le {g : Int} {zero : BitVec 33} (hg : -65536 ≤ g ∧ g ≤ 65534)
    (hz : -65536 * 65536 ≤ zero.toInt ∧ zero.toInt ≤ 65534 * 65536) : amplitude g zero ≤ 131070 * 65536 := by
  rw [amplitude, levelOf_eq]
  omega

/-- The low-pass of the signal level stays in the range of the amplitudes (R71). -/
theorem smoothed_toNat_le {level : BitVec 33} {w : Nat} {a : BitVec 17} (ha : a.toNat ≤ 65536)
    (hl : level.toNat ≤ 131070 * 65536) (hw : w ≤ 131070 * 65536) :
    (BitVec.ofInt 33 (smoothed level w a)).toNat ≤ 131070 * 65536 := by
  have hb : (0 : Int) ≤ smoothed level w a ∧ smoothed level w a ≤ 131070 * 65536 :=
    lowPass_bounds ha (by omega) (by omega)
  rw [BitVec.toNat_ofInt]
  norm_num
  omega

/-- The reference level stays unset or in the range of a sum of two peaks (R78). -/
theorem adaptedRef_bounds {ref sum : Int} (hr : ref = -1 ∨ 0 ≤ ref) (hhi : ref ≤ 262140 * 65536)
    (hs : 0 ≤ sum ∧ sum ≤ 262140 * 65536) :
    0 ≤ adaptedRef ref sum ∧ adaptedRef ref sum ≤ 262140 * 65536 := by
  unfold adaptedRef
  split
  · exact hs
  · simp only [Config.refPeaksAvg]
    omega

/-- The bounds of R20 and R12 on a bank. -/
def Decoder.inRange (D : Decoder) : Prop := D.zerosInRange ∧ D.levelsInRange ∧ D.coefficientsInRange

/-- The bounds do not read the handle, so INIT to slot 0 shows them. -/
theorem Decoder.initial_inRange (h : Nat) : (Decoder.initial h).inRange := by
  show (Decoder.initial 0).inRange
  unfold inRange zerosInRange levelsInRange coefficientsInRange
  decide

theorem Decoder.withRate_inRange {D : Decoder} (r : Nat) (hD : D.inRange) : (D.withRate r).inRange := by
  refine ⟨hD.1, hD.2.1, ?_, ?_⟩
  · rw [withRate_zeroAlpha_toNat]; exact zeroCoeff_le r
  · rw [withRate_signalAlpha_toNat]; exact signalCoeff_le r

theorem Decoder.everySample_inRange {D : Decoder} {l r : Int} (hl : fitsPcm l = true) (hr : fitsPcm r = true)
    (hD : D.inRange) : (D.everySample l r).inRange := by
  obtain ⟨⟨hm, h0, h1⟩, ⟨hwave, hhalf, hsignal, href⟩, hzero, halpha⟩ := hD
  have hl := fitsPcm_bounds hl
  have hr := fitsPcm_bounds hr
  have hm' := channelStep_zero_bounds (v := l + r) (a := D.zeroAlpha) (lo := -65536) (hi := 65534) (by decide)
    (by decide) hzero (by omega) hm
  have hamp := amplitude_le (g := l + r) (by omega) hm'
  refine ⟨⟨hm', ?_, ?_⟩, ⟨?_, hhalf, ?_, href⟩, hzero, halpha⟩
  · exact channelStep_zero_bounds (by decide) (by decide) hzero hl h0
  · exact channelStep_zero_bounds (by decide) (by decide) hzero hr h1
  · rw [everySample_wavePeak, BitVec.toNat_ofNat]
    exact (Nat.mod_le _ _).trans (max_le hwave hamp)
  · rw [everySample_signalLevel]
    exact smoothed_toNat_le halpha hsignal hamp

theorem Decoder.saveHalfPeak_inRange {D : Decoder} (hD : D.inRange) : D.saveHalfPeak.inRange := by
  obtain ⟨hzeros, ⟨hwave, -, hsignal, href⟩, hcoeff⟩ := hD
  exact ⟨hzeros, ⟨hwave, hwave, hsignal, href⟩, hcoeff⟩

theorem Decoder.refAdapt_inRange {D : Decoder} (hD : D.inRange) : D.refAdapt.inRange := by
  obtain ⟨hzeros, ⟨hwave, hhalf, hsignal, href⟩, hcoeff⟩ := hD
  have hb := adaptedRef_bounds href.1 href.2 (sum := (D.halfPeak.toNat : Int) + D.wavePeak.toNat) (by omega)
  refine ⟨hzeros, ⟨hwave, hhalf, hsignal, ?_⟩, hcoeff⟩
  rw [refAdapt_refLevel, BitVec.toInt_ofInt_eq_self (by decide) (by norm_num; omega) (by norm_num; omega)]
  exact ⟨.inr hb.1, hb.2⟩

theorem Decoder.directionAndPitch_inRange {D : Decoder} (hD : D.inRange) : D.directionAndPitch.inRange := by
  obtain ⟨hzeros, ⟨-, hhalf, hsignal, href⟩, hcoeff⟩ := hD
  exact ⟨hzeros, ⟨Nat.zero_le _, hhalf, hsignal, href⟩, hcoeff⟩

theorem Decoder.crossing_inRange {D : Decoder} (row : TimecodeDef) (hD : D.inRange) :
    (D.crossing row).inRange := by
  obtain h | h := D.crossing_cases row
  · rw [h]
    exact directionAndPitch_inRange (saveHalfPeak_inRange hD)
  · rw [h]
    exact directionAndPitch_inRange (refAdapt_inRange hD)

theorem inRange_invariant : BankInvariant Decoder.inRange where
  initial := Decoder.initial_inRange
  withRate _ h := Decoder.withRate_inRange _ h
  everySample hl hr _ h := Decoder.everySample_inRange hl hr h
  crossing row hl hr _ h := Decoder.crossing_inRange row (Decoder.everySample_inRange hl hr h)
  pitchRead h := h

/-- Settles O54: the bounds are a bank invariant. -/
theorem stepKeepsLevelsInRange : Obligations.StepKeepsLevelsInRange :=
  fun _ _ hs hx => inRange_invariant.step hs hx

end Sys2Proof.Machine
end

section
/-! SUPPORT. States alike in everything specified step to states alike (spec/10_state.md R11, R12,
spec/70_reset_and_hazards.md R120, spec/93_implementation_defined.md U5, U6): what alike states agree on, which
operations keep them alike, and each command run from both. -/

namespace Sys2Proof.Machine

section
variable {s t : State}

/-! ## What alike states agree on -/

theorem StatesAlike.slots (hst : StatesAlike s t) (h : Fin Config.nLut) : SlotsAlike (s.slot h) (t.slot h) :=
  hst.1 h

theorem StatesAlike.banks (hst : StatesAlike s t) (d : Fin Config.nDec) : BanksAlike (s.bank d) (t.bank d) :=
  hst.2.1 d

theorem StatesAlike.ports (hst : StatesAlike s t) :
    s.errFlags = t.errFlags ∧ s.port = t.port ∧ s.responses = t.responses := hst.2.2

theorem StatesAlike.valid_eq (hst : StatesAlike s t) (h : Fin Config.nLut) :
    (s.slot h).valid = (t.slot h).valid := (hst.slots h).1

theorem StatesAlike.live_eq (hst : StatesAlike s t) (d : Fin Config.nDec) :
    (s.bank d).live = (t.bank d).live := (hst.banks d).1

theorem StatesAlike.bank_eq (hst : StatesAlike s t) {d : Fin Config.nDec} (hl : (s.bank d).live = true) :
    s.bank d = t.bank d := (hst.banks d).2 hl

theorem StatesAlike.slotRow_eq (hst : StatesAlike s t) {h : Fin Config.nLut} (hv : (s.slot h).valid = true) :
    slotRow (s.slot h) = slotRow (t.slot h) := by
  unfold slotRow
  rw [((hst.slots h).2 hv).1]

theorem StatesAlike.read_eq (hst : StatesAlike s t) {h : Fin Config.nLut} (hv : (s.slot h).valid = true)
    {row : TimecodeDef} (hr : slotRow (s.slot h) = .ok row) {a : Nat} (ha : a < 2 ^ (row.bits + 1)) :
    (s.slot h).mem.read a = (t.slot h).mem.read a := ((hst.slots h).2 hv).2 row hr a ha

theorem StatesAlike.checkLive_eq (hst : StatesAlike s t) (n : Nat) : checkLive n s = checkLive n t := by
  unfold checkLive
  cases bankIndex n with
  | error e => rfl
  | ok d => simp only [hst.live_eq d]

theorem StatesAlike.checkValid_eq (hst : StatesAlike s t) (n : Nat) : checkValid n s = checkValid n t := by
  unfold checkValid
  cases slotIndex n with
  | error e => rfl
  | ok h => simp only [hst.valid_eq h]

theorem StatesAlike.checkVacant_eq (hst : StatesAlike s t) (n : Nat) : checkVacant n s = checkVacant n t := by
  unfold checkVacant
  cases slotIndex n with
  | error e => rfl
  | ok h => simp only [hst.valid_eq h]

theorem StatesAlike.slotInUse_eq (hst : StatesAlike s t) (n : Nat) : slotInUse s n = slotInUse t n := by
  rw [Bool.eq_iff_iff, slotInUse_iff, slotInUse_iff]
  refine exists_congr fun d => ⟨fun ⟨hl, hh⟩ => ?_, fun ⟨hl, hh⟩ => ?_⟩
  · rw [← hst.bank_eq hl]
    exact ⟨hl, hh⟩
  · rw [hst.bank_eq (by rw [hst.live_eq d, hl])]
    exact ⟨hl, hh⟩

/-- `def(d)` of a live bank, which is bound to a valid slot. -/
theorem StatesAlike.bankRow_eq (hst : StatesAlike s t) (hb : BanksBound s) {d : Fin Config.nDec}
    (hl : (s.bank d).live = true) : bankRow s (s.bank d) = bankRow t (s.bank d) := by
  obtain ⟨h, hbs, hv⟩ := hb.2 d hl
  rw [bankRow_of_boundSlot hbs, bankRow_of_boundSlot hbs, hst.slotRow_eq hv]

/-! ## Operations that keep states alike -/

theorem SlotsAlike.of_not_valid {x y : Slot} (hx : x.valid = false) (hy : y.valid = false) : SlotsAlike x y :=
  ⟨by rw [hx, hy], fun h => by rw [hx] at h; cases h⟩

theorem BanksAlike.of_not_live {x y : Decoder} (hx : x.live = false) (hy : y.live = false) : BanksAlike x y :=
  ⟨by rw [hx, hy], fun h => by rw [hx] at h; cases h⟩

theorem BanksAlike.refl (x : Decoder) : BanksAlike x x := ⟨rfl, fun _ => rfl⟩

theorem StatesAlike.withPort (hst : StatesAlike s t) (rest : List HostInput) :
    StatesAlike { s with port := rest } { t with port := rest } :=
  let ⟨he, _, hr⟩ := hst.ports
  ⟨hst.slots, hst.banks, he, rfl, hr⟩

theorem StatesAlike.respond (hst : StatesAlike s t) (st : Status) (a b : Word) :
    StatesAlike (respond st a b s) (respond st a b t) :=
  let ⟨he, hp, hr⟩ := hst.ports
  ⟨hst.slots, hst.banks, he, hp, congrArg (responseWord st a b :: ·) hr⟩

theorem StatesAlike.raise (hst : StatesAlike s t) (e : ErrorCode) : StatesAlike (raise e s) (raise e t) :=
  let ⟨he, hp, hr⟩ := hst.ports
  ⟨hst.slots, hst.banks, congrArg (setErrorFlag · e) he, hp, congrArg (responseWord e.status 0 0 :: ·) hr⟩

theorem StatesAlike.setBank (hst : StatesAlike s t) (d : Fin Config.nDec) (x : Decoder) :
    StatesAlike (s.setBank d x) (t.setBank d x) := by
  refine ⟨hst.slots, fun e => ?_, hst.ports⟩
  rw [State.bank_setBank, State.bank_setBank]
  split
  · exact .refl x
  · exact hst.banks e

theorem StatesAlike.setSlot (hst : StatesAlike s t) (h : Fin Config.nLut) {x y : Slot} (hxy : SlotsAlike x y) :
    StatesAlike (s.setSlot h x) (t.setSlot h y) := by
  refine ⟨fun k => ?_, hst.banks, hst.ports⟩
  rw [State.slot_setSlot, State.slot_setSlot]
  split
  · exact hxy
  · exact hst.slots k

theorem StatesAlike.releaseBank (hst : StatesAlike s t) (d : Fin Config.nDec) :
    StatesAlike (s.releaseBank d) (t.releaseBank d) := by
  refine ⟨hst.slots, fun e => ?_, hst.ports⟩
  rw [State.bank_releaseBank, State.bank_releaseBank]
  split
  · exact .of_not_live rfl rfl
  · exact hst.banks e

theorem StatesAlike.releaseSlot (hst : StatesAlike s t) (h : Fin Config.nLut) :
    StatesAlike (s.releaseSlot h) (t.releaseSlot h) := by
  refine ⟨fun k => ?_, hst.banks, hst.ports⟩
  rw [State.slot_releaseSlot, State.slot_releaseSlot]
  split
  · exact .of_not_valid rfl rfl
  · exact hst.slots k

theorem StatesAlike.hardwareReset (hst : StatesAlike s t) :
    StatesAlike (hardwareReset s) (hardwareReset t) :=
  let ⟨_, hp, hr⟩ := hst.ports
  ⟨fun h => .of_not_valid (by simp) (by simp), fun d => .of_not_live (by simp) (by simp), rfl, hp, hr⟩

/-! ## Results alike -/

/-- Where `o` goes on, `p` goes on to a state alike. -/
def ResultsAlike (o p : Result) : Prop := ∀ s', o = .next s' → ∃ t', p = .next t' ∧ StatesAlike s' t'

theorem StatesAlike.next (hst : StatesAlike s t) : ResultsAlike (.next s) (.next t) :=
  fun _ h => ⟨t, rfl, by cases h; exact hst⟩

theorem StatesAlike.orRaise {α : Type} (hst : StatesAlike s t) {c : Except ErrorCode α} {k k' : α → Result}
    (hk : ∀ x, c = .ok x → ResultsAlike (k x) (k' x)) : ResultsAlike (orRaise c s k) (orRaise c t k') := by
  cases c with
  | error e => exact (hst.raise e).next
  | ok x => exact hk x rfl

theorem ResultsAlike.orFault {α : Type} {r : Except Fault α} {k k' : α → Result}
    (hk : ∀ x, r = .ok x → ResultsAlike (k x) (k' x)) : ResultsAlike (orFault r k) (orFault r k') := by
  cases r with
  | error f => intro s' h; cases h
  | ok x => exact hk x rfl

/-- A command on a live bank finds the same bank in both states. -/
theorem StatesAlike.onLive (hst : StatesAlike s t) {n : Nat} {k k' : Fin Config.nDec → Result}
    (hk : ∀ d, (s.bank d).live = true → s.bank d = t.bank d → ResultsAlike (k d) (k' d)) :
    ResultsAlike (Machine.orRaise (checkLive n s) s k) (Machine.orRaise (checkLive n t) t k') := by
  rw [← hst.checkLive_eq n]
  refine hst.orRaise fun d hd => ?_
  have hl := (checkLive_ok hd).2
  exact hk d hl (hst.bank_eq hl)

/-! ## The commands -/

/-- Builds of one row from two canonical memories read alike below `2^(B+1)`. -/
theorem buildTable_read_eq {m m' n n' : Memory} {row : TimecodeDef} (hm : m.wf) (hn : n.wf)
    (hr : RowInRange row) (hm' : buildTable m row = some m') (hn' : buildTable n row = some n') {a : Nat}
    (ha : a < 2 ^ (row.bits + 1)) : m'.read a = n'.read a := by
  obtain ⟨x, hx, hmx, -⟩ := buildTable_eq_build_nil hm hr hm'
  obtain ⟨y, hy, hny, -⟩ := buildTable_eq_build_nil hn hr hn'
  obtain rfl : x = y := Option.some.inj (hx.symm.trans hy)
  rw [hmx a ha, hny a ha]

theorem finishBuild_alike (hst : StatesAlike s t) (hs : MemoriesCanonical s) (ht : MemoriesCanonical t)
    {v : Nat} {row : TimecodeDef} (hrow : registry[v]? = some row) (h : Fin Config.nLut) :
    StatesAlike (finishBuild h v (buildTable (s.slot h).mem row) s)
      (finishBuild h v (buildTable (t.slot h).mem row) t) := by
  have hmem := List.mem_of_getElem? hrow
  have hr := rowInRange_of_mem_registry hmem
  obtain ⟨m, hm⟩ := Option.ne_none_iff_exists'.mp (registry_buildTable_ne_none (hs h).1 hmem hr)
  obtain ⟨n, hn⟩ := Option.ne_none_iff_exists'.mp (registry_buildTable_ne_none (ht h).1 hmem hr)
  have hslots : SlotsAlike { valid := true, variant := BitVec.ofNat 3 v, mem := m }
      { valid := true, variant := BitVec.ofNat 3 v, mem := n } := by
    refine ⟨rfl, fun _ => ⟨rfl, fun row' hrow' a ha => ?_⟩⟩
    obtain rfl : row = row' := Except.ok.inj ((slotRow_built hrow).symm.trans hrow')
    exact buildTable_read_eq (hs h).1 (ht h).1 hr hm hn ha
  rw [hm, hn]
  exact (hst.setSlot h hslots).respond _ _ _

theorem execBuildLookup_alike (hst : StatesAlike s t) (hs : MemoriesCanonical s) (ht : MemoriesCanonical t)
    (n v : Nat) : ResultsAlike (execBuildLookup n v s) (execBuildLookup n v t) := by
  unfold execBuildLookup buildLookupFrom
  rw [← hst.checkVacant_eq n]
  refine hst.orRaise fun h _ => hst.orRaise fun row hrow => ?_
  exact (finishBuild_alike hst hs ht (checkBuildable_ok hrow).1 h).next

theorem execFreeLookup_alike (hst : StatesAlike s t) (n : Nat) :
    ResultsAlike (execFreeLookup n s) (execFreeLookup n t) := by
  unfold execFreeLookup
  rw [← hst.checkValid_eq n, ← hst.slotInUse_eq n]
  refine hst.orRaise fun h _ => ?_
  split
  · exact (hst.raise .busy).next
  · exact ((hst.releaseSlot h).respond _ _ _).next

theorem execInit_alike (hst : StatesAlike s t) (n k : Nat) : ResultsAlike (execInit n k s) (execInit n k t) := by
  unfold execInit
  rw [← hst.checkValid_eq k]
  exact hst.orRaise fun d _ => hst.orRaise fun _ _ => ((hst.setBank d _).respond _ _ _).next

theorem execClear_alike (hst : StatesAlike s t) (n : Nat) : ResultsAlike (execClear n s) (execClear n t) :=
  hst.onLive fun d _ _ => ((hst.releaseBank d).respond _ _ _).next

theorem execRate_alike (hst : StatesAlike s t) (n r : Nat) : ResultsAlike (execRate n r s) (execRate n r t) :=
  hst.onLive fun d _ hD => by
    rw [← hD]
    exact ((hst.setBank d _).respond _ _ _).next

theorem execSample_alike (hst : StatesAlike s t) (hb : BanksBound s) (n : Nat) (l r : Int) :
    ResultsAlike (execSample n l r s) (execSample n l r t) :=
  hst.onLive fun d hl hD => by
    rw [← hD]
    split
    · split
      · rw [← hst.bankRow_eq hb hl]
        exact .orFault fun row _ => ((hst.setBank d _).respond _ _ _).next
      · exact ((hst.setBank d _).respond _ _ _).next
    · exact (hst.raise .noRate).next

theorem execGetPitch_alike (hst : StatesAlike s t) (n : Nat) :
    ResultsAlike (execGetPitch n s) (execGetPitch n t) :=
  hst.onLive fun d _ hD => by
    rw [← hD]
    split
    · exact (hst.respond _ _ _).next
    · exact ((hst.setBank d _).respond _ _ _).next

theorem positionAnswer_alike (hst : StatesAlike s t) {D : Decoder} {m n : Memory}
    (hread : m.read D.bitstream.toNat = n.read D.bitstream.toNat) :
    StatesAlike (positionAnswer D m s) (positionAnswer D n t) := by
  unfold positionAnswer lookup
  rw [hread]
  split
  · exact hst.respond _ _ _
  · exact hst.respond _ _ _

theorem execGetPosition_alike (hst : StatesAlike s t) (hb : BanksBound s) (hs : StreamsInRange s) (n : Nat) :
    ResultsAlike (execGetPosition n s) (execGetPosition n t) :=
  hst.onLive fun d hl hD => by
    rw [← hD]
    split
    · exact (hst.respond _ _ _).next
    · obtain ⟨k, hk, hv⟩ := hb.2 d hl
      obtain ⟨row, hrow⟩ := hb.1 k hv
      have hbits := (hs d row hl ((bankRow_of_boundSlot hk).trans hrow)).1
      rw [hk]
      exact (positionAnswer_alike hst (hst.read_eq hv hrow
        (hbits.trans_le (Nat.pow_le_pow_right (by decide) (by omega))))).next

theorem execGetAlive_alike (hst : StatesAlike s t) (n : Nat) :
    ResultsAlike (execGetAlive n s) (execGetAlive n t) :=
  hst.onLive fun d _ hD => by
    rw [← hD]
    exact (hst.respond _ _ _).next

theorem execGetSafe_alike (hst : StatesAlike s t) (hb : BanksBound s) (n : Nat) :
    ResultsAlike (execGetSafe n s) (execGetSafe n t) :=
  hst.onLive fun d hl hD => by
    rw [← hD, ← hst.bankRow_eq hb hl]
    exact .orFault fun row _ => (hst.respond _ _ _).next

theorem execGetResolution_alike (hst : StatesAlike s t) (hb : BanksBound s) (n : Nat) :
    ResultsAlike (execGetResolution n s) (execGetResolution n t) :=
  hst.onLive fun d hl hD => by
    rw [← hD, ← hst.bankRow_eq hb hl]
    exact .orFault fun row _ => (hst.respond _ _ _).next

theorem execGetStatus_alike (hst : StatesAlike s t) : ResultsAlike (execGetStatus s) (execGetStatus t) := by
  unfold execGetStatus
  rw [hst.ports.1]
  exact (hst.respond _ _ _).next

theorem exec_alike (hs : MemoriesCanonical s) (ht : MemoriesCanonical t) (hb : BanksBound s)
    (hstreams : StreamsInRange s) (hst : StatesAlike s t) (i : Instr) : ResultsAlike (exec i s) (exec i t) := by
  cases i with
  | buildLookup n v => exact execBuildLookup_alike hst hs ht n v
  | freeLookup n => exact execFreeLookup_alike hst n
  | init n k => exact execInit_alike hst n k
  | clear n => exact execClear_alike hst n
  | rate n r => exact execRate_alike hst n r
  | sample n l r => exact execSample_alike hst hb n l r
  | getPitch n => exact execGetPitch_alike hst n
  | getPosition n => exact execGetPosition_alike hst hb hstreams n
  | getAlive n => exact execGetAlive_alike hst n
  | getSafe n => exact execGetSafe_alike hst hb n
  | getResolution n => exact execGetResolution_alike hst hb n
  | getStatus => exact execGetStatus_alike hst

end

/-- Settles O57: both states take the same input, and each command run from both keeps them alike. -/
theorem unspecifiedStateIsUnobservable : Obligations.UnspecifiedStateIsUnobservable := by
  intro s t s' hs ht hb hstreams hst hx
  have hport := hst.ports.2.1
  obtain ⟨hp, rfl⟩ | ⟨rest, hp, rfl⟩ | ⟨w, rest, i, hp, hd, hc⟩ | ⟨w, rest, e, hp, hd, rfl⟩ := step_next hx
  · exact ⟨t, by simp only [step, ← hport, hp], hst⟩
  · exact ⟨_, by simp only [step, ← hport, hp], (hst.withPort rest).hardwareReset⟩
  · rw [step_of_decode_ok (hport ▸ hp) hd]
    exact exec_alike (s := { s with port := rest }) (t := { t with port := rest }) hs ht hb hstreams
      (hst.withPort rest) i s' hc
  · exact ⟨_, step_of_decode_error (hport ▸ hp) hd, (hst.withPort rest).raise .illegal⟩

end Sys2Proof.Machine
end

section
/-! SUPPORT. The statements about the lookup memory: reads after a write, and the canonical form with all addresses
inside `LUT_DEPTH`, which a build and a loss of contents keep (spec/20_memory.md R30 to R35). -/

namespace Sys2Proof.Machine

/-- Settles O14, by induction on the listed words (`Memory.read_write`). -/
theorem lutReadSeesTheLatestWrite : Obligations.LutReadSeesTheLatestWrite := fun _ a b v hm =>
  Memory.read_write hm a b v

/-! ## Addresses of a built table -/

/-- The loop writes states of the LFSR alone, all below `2^B`. -/
theorem fillTable_address {B taps N k n current : Nat} {m m' : Memory} (hB : 1 ≤ B) (hN : 2 ^ B ≤ N)
    (hc : current < 2 ^ B) (hm : ∀ c ∈ m, c.1 < N) (h : fillTable B taps k n current m = some m') :
    ∀ c ∈ m', c.1 < N := by
  induction k generalizing n current m with
  | zero =>
    obtain rfl : m = m' := Option.some.inj h
    exact hm
  | succ k ih =>
    simp only [fillTable] at h
    split at h
    · exact ih (fwd_lt hB hc) (Memory.address_write (hc.trans_le hN) hm) h
    · cases h

theorem Memory.clearBelow_address {m : Memory} {N : Nat} (hm : ∀ c ∈ m, c.1 < N) (n : Nat) :
    ∀ c ∈ m.clearBelow n, c.1 < N := fun c hc => hm c (List.mem_of_mem_filter hc)

/-- A build of a row whose table fits in `N` words stays inside them. -/
theorem buildTable_address {m m' : Memory} {row : TimecodeDef} {N : Nat} (hr : RowInRange row)
    (hN : 2 ^ (row.bits + 1) ≤ N) (hm : ∀ c ∈ m, c.1 < N) (h : buildTable m row = some m') :
    ∀ c ∈ m', c.1 < N :=
  fillTable_address hr.bits.1 ((Nat.pow_le_pow_right (by decide) (Nat.le_succ _)).trans hN) hr.seed
    (Memory.clearBelow_address hm _) h

/-! ## Every step keeps the memories canonical -/

/-- A command leaves each slot's memory kept, built, or lost to free contents inside the slot. -/
theorem SlotEffect.memory_canonical {s : State} {h : Fin Config.nLut} {i : Instr} {x : Slot}
    (he : SlotEffect s h i x) (hs : MemoriesCanonical s) :
    x.mem.wf ∧ ∀ c ∈ x.mem, c.1 < Config.lutDepth := by
  obtain ⟨hwf, haddr⟩ := hs h
  cases he with
  | kept => exact ⟨hwf, haddr⟩
  | build _ hr hm =>
    obtain ⟨hrow, hfits, -⟩ := registryRowsAreInRange.2 _ (List.mem_of_getElem? hr)
    exact ⟨buildTable_wf hwf hm, buildTable_address hrow hfits haddr hm⟩
  | wrapped | free => exact ⟨freeMemory_wf _ _, freeMemory_address _ _⟩

theorem exec_memoriesCanonical {s t : State} {i : Instr} (hs : MemoriesCanonical s)
    (hx : exec i s = .next t) : MemoriesCanonical t := fun h =>
  (exec_slotEffect hx h).memory_canonical hs

theorem memoriesCanonical_hardwareReset (s : State) : MemoriesCanonical (hardwareReset s) := fun h => by
  rw [slot_hardwareReset]
  exact ⟨freeMemory_wf _ _, freeMemory_address _ _⟩

/-- Settles O50: a command keeps a memory, builds a registered row in it, or loses it to free contents; a reset
loses all of them. -/
theorem stepKeepsMemoriesCanonical : Obligations.StepKeepsMemoriesCanonical := fun _ _ hs hx =>
  step_leads (fun _ _ h => h) (fun _ h => h) (fun _ h => h) memoriesCanonical_hardwareReset
    (fun _ => exec_memoriesCanonical) hs hx

end Sys2Proof.Machine
end

section
/-! SUPPORT. The statements about the encoding: a command word is the number its five fields make up, a decoded word
is one whose fields an opcode accepts, and a row of the opcode table selects the same words (spec/30_encoding.md
R40, R41, R44, R45, R46, R48). -/

namespace Sys2Proof

/-! ## A word and its fields -/

/-- The number with these fields (R40). -/
def Fields.value (f : Fields) : Nat :=
  f.op * 2 ^ 56 + f.unit * 2 ^ 48 + f.aux * 2 ^ 40 + f.rsv * 2 ^ 32 + f.operand

/-- Every field is in its width (R40). -/
structure Fields.Fit (f : Fields) : Prop where
  op : f.op < 256
  unit : f.unit < 256
  aux : f.aux < 256
  rsv : f.rsv < 256
  operand : f.operand < 4294967296

theorem fields_fit (w : CommandWord) : (fields w).Fit :=
  ⟨BitVec.isLt _, BitVec.isLt _, BitVec.isLt _, BitVec.isLt _, BitVec.isLt _⟩

/-- The fields of a word, by division of its value. -/
theorem fields_eq (w : CommandWord) :
    fields w = ⟨w.toNat / 2 ^ 56, w.toNat / 2 ^ 48 % 256, w.toNat / 2 ^ 40 % 256, w.toNat / 2 ^ 32 % 256,
      w.toNat % 2 ^ 32⟩ := by
  simp only [fields, BitVec.extractLsb'_toNat, Nat.shiftRight_eq_div_pow, Fields.mk.injEq, true_and]
  omega

theorem fields_value (w : CommandWord) : (fields w).value = w.toNat := by
  simp only [fields_eq, Fields.value]
  omega

theorem fields_injective : Function.Injective fields := fun v w h =>
  BitVec.eq_of_toNat_eq (by rw [← fields_value v, ← fields_value w, h])

theorem fields_ofNat_value {f : Fields} (hf : f.Fit) : fields (BitVec.ofNat 64 f.value) = f := by
  obtain ⟨op, unit, aux, rsv, operand⟩ := f
  obtain ⟨hop, hunit, haux, hrsv, hoperand⟩ := hf
  simp only [fields_eq, Fields.value, BitVec.toNat_ofNat, Fields.mk.injEq] at *
  omega

/-! ## The encoder writes the fields of the command -/

theorem encode_eq_ofNat_value {i : Instr} (hf : i.fieldsOf.Fit) :
    encode i = BitVec.ofNat 64 i.fieldsOf.value := by
  obtain ⟨-, hunit, haux, -, hoperand⟩ := hf
  simp only [Instr.fieldsOf] at hunit haux hoperand
  have hlow : i.auxField <<< 40 + i.operandField < 2 ^ 48 := by omega
  have hmid : i.unitField <<< 48 + (i.auxField <<< 40 + i.operandField) < 2 ^ 56 := by omega
  unfold encode
  rw [Nat.or_assoc, Nat.or_assoc,
    ← Nat.shiftLeft_add_eq_or_of_lt (show i.operandField < 2 ^ 40 by omega),
    ← Nat.shiftLeft_add_eq_or_of_lt hlow, ← Nat.shiftLeft_add_eq_or_of_lt hmid]
  simp only [Fields.value, Instr.fieldsOf, Nat.shiftLeft_eq]
  exact congrArg _ (by omega)

/-- The round trip of the fields, for every command (Laws/PerInstr.lean). -/
theorem fieldsOf_roundTrip : (i : Instr) → Laws.FieldsRoundTrip.Statement i
  | .buildLookup h v => Laws.FieldsRoundTrip.buildLookup h v
  | .freeLookup h => Laws.FieldsRoundTrip.freeLookup h
  | .init d h => Laws.FieldsRoundTrip.init d h
  | .clear d => Laws.FieldsRoundTrip.clear d
  | .rate d r => Laws.FieldsRoundTrip.rate d r
  | .sample d l r => Laws.FieldsRoundTrip.sample d l r
  | .getPitch d => Laws.FieldsRoundTrip.getPitch d
  | .getPosition d => Laws.FieldsRoundTrip.getPosition d
  | .getAlive d => Laws.FieldsRoundTrip.getAlive d
  | .getSafe d => Laws.FieldsRoundTrip.getSafe d
  | .getResolution d => Laws.FieldsRoundTrip.getResolution d
  | .getStatus => Laws.FieldsRoundTrip.getStatus

/-! ## The fields of a legal word -/

theorem Opcode.ofNumber_number (o : Opcode) : Opcode.ofNumber o.number = some o := by
  cases o <;> rfl

theorem Opcode.number_injective {o p : Opcode} (h : o.number = p.number) : o = p :=
  Option.some.inj (by rw [← o.ofNumber_number, h, p.ofNumber_number])

theorem Opcode.ofNumber_eq_some_iff {n : Nat} {o : Opcode} : Opcode.ofNumber n = some o ↔ n = o.number := by
  refine ⟨fun h => ?_, fun h => h ▸ o.ofNumber_number⟩
  unfold Opcode.ofNumber at h
  split at h <;> cases h <;> rfl

/-- The opcodes are numbered without gaps from 1 to 0x0C (R44). -/
theorem Opcode.exists_number_eq {n : Nat} (h0 : n ≠ 0) (h : n < 0x0D) : ∃ o : Opcode, n = o.number := by
  have hall : ∀ n < 0x0D, n ≠ 0 → (Opcode.ofNumber n).isSome = true := by decide
  obtain ⟨o, ho⟩ := Option.isSome_iff_exists.mp (hall n h h0)
  exact ⟨o, Opcode.ofNumber_eq_some_iff.mp ho⟩

/-- The fields are those of a legal word of opcode `o` (R40, R45). -/
structure Fields.Legal (f : Fields) (o : Opcode) : Prop where
  op : f.op = o.number
  rsv : f.rsv = 0
  unused : o.format.unusedZero f = true

theorem Fields.legal_iff {f : Fields} {o : Opcode} :
    f.Legal o ↔ f.op = o.number ∧ f.rsv = 0 ∧ o.format.unusedZero f = true :=
  ⟨fun h => ⟨h.op, h.rsv, h.unused⟩, fun ⟨hop, hrsv, hunused⟩ => ⟨hop, hrsv, hunused⟩⟩

/-- The decoder answers a command exactly for the legal words, and the one their opcode assembles. -/
theorem decode_eq_ok_iff {w : CommandWord} {i : Instr} :
    decode w = .ok i ↔ ∃ o, (fields w).Legal o ∧ o.assemble (fields w) = i := by
  constructor
  · intro h
    simp only [decode] at h
    split at h
    · cases h
    next o ho =>
      split at h
      next hrsv =>
        split at h
        next hunused =>
          exact ⟨o, ⟨Opcode.ofNumber_eq_some_iff.mp ho, hrsv, hunused⟩, Except.ok.inj h⟩
        next => cases h
      next => cases h
  · rintro ⟨o, ⟨hop, hrsv, hunused⟩, rfl⟩
    simp only [decode, hop, o.ofNumber_number, hrsv, hunused, if_true]

theorem decode_eq_error_iff {w : CommandWord} :
    (∃ e, decode w = .error e) ↔ ∀ o, ¬ (fields w).Legal o := by
  constructor
  · rintro ⟨e, he⟩ o ho
    cases he.symm.trans (decode_eq_ok_iff.mpr ⟨o, ho, rfl⟩)
  · intro h
    cases hd : decode w with
    | error e => exact ⟨e, rfl⟩
    | ok i =>
      obtain ⟨o, ho, -⟩ := decode_eq_ok_iff.mp hd
      exact absurd ho (h o)

@[simp] theorem Opcode.opcode_assemble (o : Opcode) (f : Fields) : (o.assemble f).opcode = o := by
  cases o <;> rfl

/-! ## Decoding and encoding are inverse -/

/-- Settles O1: the encoder writes the fields of the command, which are legal and assemble to it. -/
theorem decodeOfEncodeIsIdentity : Obligations.DecodeOfEncodeIsIdentity := by
  intro i hi
  obtain ⟨hop, hunused, hassemble, hop_lt, hunit, haux, hoperand⟩ := fieldsOf_roundTrip i hi
  have hfit : i.fieldsOf.Fit := ⟨hop_lt, hunit, haux, Nat.succ_pos _, hoperand⟩
  have hfields : fields (encode i) = i.fieldsOf := by
    rw [encode_eq_ofNat_value hfit, fields_ofNat_value hfit]
  rw [decode_eq_ok_iff, hfields]
  exact ⟨i.opcode, ⟨Opcode.ofNumber_eq_some_iff.mp hop, rfl, hunused⟩, hassemble⟩

/-- `mod 2^16` undoes `sext_16` on a 16-bit value. -/
theorem sext16_emod_toNat {n : Nat} (h : n < 65536) : (sext16 n % 65536).toNat = n := by
  unfold sext16
  split <;> omega

/-- A frame is put together from the halves SAMPLE reads (R41, R46). -/
theorem frame_sext16 {n : Nat} (h : n < 4294967296) :
    frame (sext16 (n % 65536)) (sext16 (n / 65536)) = n := by
  rw [frame_eq, sext16_emod_toNat (by omega), sext16_emod_toNat (by omega)]
  omega

/-- A command assembled from legal fields has those fields: the ones it does not carry are zero. -/
theorem fieldsOf_assemble {f : Fields} {o : Opcode} (hf : f.Fit) (hl : f.Legal o) :
    (o.assemble f).fieldsOf = f := by
  obtain ⟨op, unit, aux, rsv, operand⟩ := f
  obtain ⟨rfl, rfl, hunused⟩ := hl
  have hframe := frame_sext16 hf.operand
  cases o <;>
    simp_all [Opcode.format, Format.unusedZero, Opcode.assemble, Instr.fieldsOf, Instr.opcode,
      Instr.unitField, Instr.auxField, Instr.operandField]

/-- Settles O2: the decoded command has the fields of the word, and they make up the word. -/
theorem encodeOfDecodeIsIdentity : Obligations.EncodeOfDecodeIsIdentity := by
  intro w i h
  refine ⟨decode_wellFormed h, ?_⟩
  obtain ⟨o, ho, rfl⟩ := decode_eq_ok_iff.mp h
  have hfields : (o.assemble (fields w)).fieldsOf = fields w := fieldsOf_assemble (fields_fit w) ho
  rw [encode_eq_ofNat_value (by rw [hfields]; exact fields_fit w), hfields, fields_value,
    BitVec.ofNat_toNat, BitVec.setWidth_eq]

/-! ## The illegal words -/

/-- Which fields a format leaves unused, by the number of the opcode (R40, R44). -/
theorem Opcode.unusedZero_iff {o : Opcode} {f : Fields} :
    o.format.unusedZero f = true ↔
      (f.unit = 0 ∨ o.number ≠ 0x0C) ∧ (f.aux = 0 ∨ o.number = 0x03) ∧
        (f.operand = 0 ∨ o.number = 0x01 ∨ o.number = 0x05 ∨ o.number = 0x06) := by
  cases o <;> simp [Opcode.format, Format.unusedZero, Opcode.number, and_assoc]

/-- The fields of the legal words: those R45 does not list. -/
theorem Fields.exists_legal_iff {f : Fields} :
    (∃ o, f.Legal o) ↔ f.op ≠ 0 ∧ f.op < 0x0D ∧ f.rsv = 0 ∧ (f.unit = 0 ∨ f.op ≠ 0x0C) ∧
      (f.aux = 0 ∨ f.op = 0x03) ∧ (f.operand = 0 ∨ f.op = 0x01 ∨ f.op = 0x05 ∨ f.op = 0x06) := by
  constructor
  · rintro ⟨o, hop, hrsv, hunused⟩
    have hnumber : o.number ≠ 0 ∧ o.number < 0x0D := by cases o <;> decide
    rw [Opcode.unusedZero_iff, ← hop] at hunused
    rw [← hop] at hnumber
    exact ⟨hnumber.1, hnumber.2, hrsv, hunused⟩
  · rintro ⟨h0, hlt, hrsv, hunused⟩
    obtain ⟨o, ho⟩ := Opcode.exists_number_eq h0 hlt
    exact ⟨o, ho, hrsv, Opcode.unusedZero_iff.mpr (ho ▸ hunused)⟩

/-- Settles O3: the decoder rejects the words with fields of no legal word. -/
theorem illegalWordsAreTheReservedOnes : Obligations.IllegalWordsAreTheReservedOnes := by
  intro w
  rw [decode_eq_error_iff, ← not_exists, Fields.exists_legal_iff, fields_eq]
  simp only [Machine.IllegalWord]
  omega

/-! ## The rows of the opcode table -/

/-- The bits a row of the format compares: all of `op`, of `rsv` and of the fields it does not use (R40, R44). -/
def Format.compared : Format → Fields
  | .z => ⟨0xFF, 0xFF, 0xFF, 0xFF, 0xFFFFFFFF⟩
  | .d | .h => ⟨0xFF, 0, 0xFF, 0xFF, 0xFFFFFFFF⟩
  | .dh => ⟨0xFF, 0, 0, 0xFF, 0xFFFFFFFF⟩
  | .dOp | .hOp => ⟨0xFF, 0, 0xFF, 0xFF, 0⟩

theorem fields_mask : ∀ r ∈ opcodeTable, fields r.mask = r.opcode.format.compared := by decide

theorem fields_pattern : ∀ r ∈ opcodeTable, fields r.pattern = ⟨r.opcode.number, 0, 0, 0, 0⟩ := by decide

theorem fields_and (v w : CommandWord) :
    fields (v &&& w) = ⟨(fields v).op &&& (fields w).op, (fields v).unit &&& (fields w).unit,
      (fields v).aux &&& (fields w).aux, (fields v).rsv &&& (fields w).rsv,
      (fields v).operand &&& (fields w).operand⟩ := by
  simp only [fields, BitVec.extractLsb'_and, BitVec.toNat_and]

/-- A row selects exactly the legal words of its opcode. -/
theorem selects_iff {r : TableRow} (hr : r ∈ opcodeTable) (w : CommandWord) :
    r.selects w = true ↔ (fields w).Legal r.opcode := by
  have hbyte {n : Nat} (h : n < 256) : n &&& 0xFF = n := by
    rw [Nat.and_two_pow_sub_one_eq_mod n 8, Nat.mod_eq_of_lt h]
  have hword {n : Nat} (h : n < 4294967296) : n &&& 0xFFFFFFFF = n := by
    rw [Nat.and_two_pow_sub_one_eq_mod n 32, Nat.mod_eq_of_lt h]
  obtain ⟨hop, hunit, haux, hrsv, hoperand⟩ := fields_fit w
  calc r.selects w = true
      ↔ fields (w &&& r.mask) = fields r.pattern := by
        rw [TableRow.selects, beq_iff_eq, fields_injective.eq_iff]
    _ ↔ (fields w).op = r.opcode.number ∧ (fields w).rsv = 0 ∧
          r.opcode.format.unusedZero (fields w) = true := by
        rw [fields_and, fields_mask r hr, fields_pattern r hr]
        cases r.opcode.format <;>
          simp [Format.compared, Format.unusedZero, hbyte, hword, hop, hunit, haux, hrsv, hoperand,
            and_assoc, and_comm, and_left_comm]
    _ ↔ (fields w).Legal r.opcode := Fields.legal_iff.symm

theorem exists_row (o : Opcode) : ∃ r ∈ opcodeTable, r.opcode = o := by
  cases o <;> decide

/-- No opcode has two rows. -/
theorem row_eq_of_opcode_eq {q r : TableRow} (hq : q ∈ opcodeTable) (hr : r ∈ opcodeTable)
    (h : q.opcode = r.opcode) : q = r :=
  List.inj_on_of_nodup_map (show (opcodeTable.map TableRow.opcode).Nodup by decide) hq hr h

/-- Settles O4: a row selects the legal words of its opcode, and no word is legal for two opcodes. -/
theorem legalWordMatchesExactlyOneRow : Obligations.LegalWordMatchesExactlyOneRow := by
  intro w
  cases hd : decode w with
  | error e =>
    have hnone := decode_eq_error_iff.mp ⟨e, hd⟩
    exact .inl ⟨⟨e, rfl⟩, fun r hr => Bool.eq_false_iff.mpr fun hs => hnone _ ((selects_iff hr w).mp hs)⟩
  | ok i =>
    obtain ⟨o, ho, rfl⟩ := decode_eq_ok_iff.mp hd
    obtain ⟨r, hr, rfl⟩ := exists_row o
    refine .inr ⟨_, r, rfl, hr, (Opcode.opcode_assemble _ _).symm, (selects_iff hr w).mpr ho, fun q hq hs => ?_⟩
    have hop : q.opcode.number = r.opcode.number := ((selects_iff hq w).mp hs).op.symm.trans ho.op
    exact row_eq_of_opcode_eq hq hr (Opcode.number_injective hop)

/-! ## The listed words -/

/-- Settles O5, by running the decoder on each of the nine words. -/
theorem listedWordsDecodeAsListed : Obligations.ListedWordsDecodeAsListed := by
  unfold Obligations.ListedWordsDecodeAsListed
  decide

end Sys2Proof
end

section
/-! SUPPORT. The LFSR engine (spec/40_lfsr.md R50 to R54): the parity as a count of bits, and the two steps as
arithmetic on the bit that leaves and the bits that stay, which makes one undo the other. -/

namespace Sys2Proof.Machine

/-! ## Parity -/

theorem parityBelow_eq_card (n x : Nat) :
    parityBelow n x = ((Finset.range n).filter fun k => x.testBit k).card % 2 := by
  induction n generalizing x with
  | zero => rfl
  | succ n ih =>
    have hcard : ((Finset.range (n + 1)).filter fun k => x.testBit k).card =
        ((Finset.range n).filter fun k => (x / 2).testBit k).card + x % 2 := by
      simp only [Finset.card_filter, Finset.sum_range_succ', Nat.testBit_succ, Nat.testBit_zero]
      rcases Nat.mod_two_eq_zero_or_one x with h | h <;> simp [h]
    rw [← Nat.mod_eq_of_lt (parityBelow_lt_two (n + 1) x), parityBelow, Nat.xor_mod_two_eq, ih, hcard]
    omega

/-- Settles O11: no bit of `x` is set at or above its size. -/
theorem parityCountsOneBits : Obligations.ParityCountsOneBits := by
  intro x
  rw [← parityBelow_of_lt (Nat.lt_size_self x), parityBelow_eq_card]

theorem parity_eq_xor_half (x : Nat) : parity x = x % 2 ^^^ parity (x / 2) := by
  have hx : x < 2 ^ (x + 1) := Nat.lt_of_lt_of_le Nat.lt_two_pow_self
    (Nat.pow_le_pow_right Nat.two_pos (Nat.le_succ x))
  rw [← parityBelow_of_lt hx, parityBelow,
    parityBelow_of_lt (show x / 2 < 2 ^ x by rw [Nat.pow_succ] at hx; omega)]

theorem parity_of_lt_two {b : Nat} (hb : b < 2) : parity b = b := by
  interval_cases b <;> rfl

theorem parity_two_mul_add {b : Nat} (hb : b < 2) (m : Nat) : parity (2 * m + b) = b ^^^ parity m := by
  rw [parity_eq_xor_half, show (2 * m + b) % 2 = b by omega, show (2 * m + b) / 2 = m by omega]

/-- The parity splits at any bit. -/
theorem parity_two_pow_mul_add {n l : Nat} (hl : l < 2 ^ n) (h : Nat) :
    parity (2 ^ n * h + l) = parity h ^^^ parity l := by
  induction n generalizing l with
  | zero =>
    obtain rfl : l = 0 := by simpa using hl
    simp [parity]
  | succ n ih =>
    have hstep : 2 ^ (n + 1) * h + l = 2 * (2 ^ n * h + l / 2) + l % 2 := by
      rw [Nat.mul_add, ← Nat.mul_assoc, Nat.pow_succ', Nat.add_assoc, Nat.div_add_mod]
    have hhalf : l / 2 < 2 ^ n := by rw [Nat.pow_succ] at hl; omega
    rw [hstep, parity_two_mul_add (Nat.mod_lt l Nat.two_pos), ih hhalf, Nat.xor_left_comm,
      ← parity_eq_xor_half]

theorem and_two_pow_mul_add {n l l' : Nat} (hl : l < 2 ^ n) (hl' : l' < 2 ^ n) (h h' : Nat) :
    (2 ^ n * h + l) &&& (2 ^ n * h' + l') = 2 ^ n * (h &&& h') + (l &&& l') := by
  apply Nat.eq_of_testBit_eq
  intro i
  rw [Nat.testBit_and, Nat.testBit_two_pow_mul_add _ hl, Nat.testBit_two_pow_mul_add _ hl',
    Nat.testBit_two_pow_mul_add _ (Nat.and_lt_two_pow _ hl')]
  split <;> rw [Nat.testBit_and]

/-! ## The two steps -/

/-- What both steps add to the bit that leaves: the parity of the tapped ones among the bits that stay. -/
def tapped (t m : Nat) : Nat := parity (m &&& (t / 2))

theorem xor_tapped_lt_two {b : Nat} (hb : b < 2) (t m : Nat) : b ^^^ tapped t m < 2 :=
  Nat.xor_lt_two_pow (n := 1) hb (parity_lt_two _)

/-- `Fwd` drops bit 0 and puts the new bit at the top (R51). -/
theorem fwd_two_mul_add {n t m b : Nat} (hm : m < 2 ^ n) (hb : b < 2) :
    fwd (2 * m + b) (n + 1) t = 2 ^ n * (b ^^^ tapped t m) + m := by
  have hnew : parity ((2 * m + b) &&& (t ||| 1)) = b ^^^ tapped t m := by
    have htaps : t ||| 1 = 2 * (t / 2) + 1 := by
      rw [← Nat.div_add_mod (t ||| 1) 2, Nat.or_div_two]
      simp
    have hand := and_two_pow_mul_add (n := 1) hb Nat.one_lt_two m (t / 2)
    rw [Nat.pow_one, Nat.and_one_is_mod, Nat.mod_eq_of_lt hb] at hand
    rw [htaps, hand, parity_two_mul_add hb, tapped]
  unfold fwd
  rw [hnew, Nat.add_sub_cancel, Nat.shiftRight_one, show (2 * m + b) / 2 = m by omega,
    Nat.two_pow_add_eq_or_of_lt hm, Nat.or_comm, Nat.shiftLeft_eq, Nat.mul_comm]

/-- `Rev` drops the top bit and puts the new bit at bit 0 (R52); no tap stands above the state. -/
theorem rev_two_pow_mul_add {n t m b : Nat} (hm : m < 2 ^ n) (hb : b < 2) (ht : t < 2 ^ (n + 1)) :
    rev (2 ^ n * b + m) (n + 1) t = 2 * m + (b ^^^ tapped t m) := by
  have ht2 : t / 2 < 2 ^ n := by rw [Nat.pow_succ] at ht; omega
  have hnew : parity ((2 ^ n * b + m) &&& ((t >>> 1) ||| (1 <<< n))) = b ^^^ tapped t m := by
    rw [Nat.shiftRight_one, Nat.shiftLeft_eq, Nat.mul_comm 1, Nat.or_comm, ← Nat.two_pow_add_eq_or_of_lt ht2,
      and_two_pow_mul_add hm ht2, parity_two_pow_mul_add (Nat.and_lt_two_pow _ ht2), Nat.and_one_is_mod,
      Nat.mod_eq_of_lt hb, parity_of_lt_two hb, tapped]
  have hstay : (2 ^ n * b + m) <<< 1 &&& mask (n + 1) = 2 * m := by
    have hsplit : 2 * (2 ^ n * b + m) = 2 * m + 2 ^ (n + 1) * b := by ring
    rw [mask, Nat.and_two_pow_sub_one_eq_mod, Nat.shiftLeft_eq, pow_one, Nat.mul_comm, hsplit,
      Nat.add_mul_mod_self_left, Nat.mod_eq_of_lt (by rw [Nat.pow_succ]; omega)]
  unfold rev
  rw [Nat.add_sub_cancel, hnew, hstay]
  exact (Nat.two_pow_add_eq_or_of_lt (i := 1) (xor_tapped_lt_two hb t m) m).symm

theorem rev_lt {B : Nat} (hB : 1 ≤ B) (c t : Nat) : rev c B t < 2 ^ B := by
  have htwo : 2 ≤ 2 ^ B := Nat.pow_le_pow_right (n := 2) Nat.two_pos hB
  refine Nat.or_lt_two_pow (Nat.and_lt_two_pow _ ?_) (Nat.lt_of_lt_of_le (parity_lt_two _) htwo)
  exact Nat.sub_lt (Nat.two_pow_pos B) Nat.one_pos

/-- Settles O12: the range of each step. -/
theorem lfsrStepsStayInRange : Obligations.LfsrStepsStayInRange :=
  fun _ c t hB _ hc _ => ⟨fwd_lt hB hc, rev_lt hB c t⟩

/-! ## Each step undoes the other -/

theorem rev_fwd {B c t : Nat} (hB : 1 ≤ B) (hc : c < 2 ^ B) (ht : t < 2 ^ B) :
    rev (fwd c B t) B t = c := by
  obtain ⟨n, rfl⟩ := Nat.exists_eq_add_of_le' hB
  have hm : c / 2 < 2 ^ n := by rw [Nat.pow_succ] at hc; omega
  have hb : c % 2 < 2 := Nat.mod_lt c Nat.two_pos
  calc rev (fwd c (n + 1) t) (n + 1) t
      = rev (2 ^ n * (c % 2 ^^^ tapped t (c / 2)) + c / 2) (n + 1) t := by
        rw [← fwd_two_mul_add hm hb, Nat.div_add_mod]
    _ = 2 * (c / 2) + c % 2 := by
        rw [rev_two_pow_mul_add hm (xor_tapped_lt_two hb _ _) ht, Nat.xor_xor_cancel_right]
    _ = c := Nat.div_add_mod c 2

theorem fwd_rev {B c t : Nat} (hB : 1 ≤ B) (hc : c < 2 ^ B) (ht : t < 2 ^ B) :
    fwd (rev c B t) B t = c := by
  obtain ⟨n, rfl⟩ := Nat.exists_eq_add_of_le' hB
  have hm : c % 2 ^ n < 2 ^ n := Nat.mod_lt c (Nat.two_pow_pos n)
  have hb : c / 2 ^ n < 2 := Nat.div_lt_of_lt_mul (by rwa [← Nat.pow_succ])
  calc fwd (rev c (n + 1) t) (n + 1) t
      = fwd (2 * (c % 2 ^ n) + (c / 2 ^ n ^^^ tapped t (c % 2 ^ n))) (n + 1) t := by
        rw [← rev_two_pow_mul_add hm hb ht, Nat.div_add_mod]
    _ = 2 ^ n * (c / 2 ^ n) + c % 2 ^ n := by
        rw [fwd_two_mul_add hm (xor_tapped_lt_two hb _ _), Nat.xor_xor_cancel_right]
    _ = c := Nat.div_add_mod c (2 ^ n)

/-- On a finite set that an injective map keeps, every point comes back to itself. -/
theorem exists_iterate_eq_self {α : Type*} {f : α → α} {s : Set α} (hs : s.Finite) (hmap : s.MapsTo f s)
    (hinj : s.InjOn f) {x : α} (hx : x ∈ s) : ∃ p, 0 < p ∧ f^[p] x = x := by
  have := hs.to_subtype
  obtain ⟨p, hp, hperiod⟩ := (hmap.restrict_inj.mpr hinj).mem_periodicPts ⟨x, hx⟩
  refine ⟨p, hp, ?_⟩
  rw [← hmap.coe_iterate_restrict ⟨x, hx⟩ p, hperiod]

/-- Settles O13: the steps undo each other in range, so `Fwd` permutes the finite set of states. -/
theorem lfsrStepsInvertEachOther : Obligations.LfsrStepsInvertEachOther := by
  intro B t hB _ ht
  have hfwd : Set.MapsTo (fun c => fwd c B t) (Set.Iio (2 ^ B)) (Set.Iio (2 ^ B)) := fun _ hc => fwd_lt hB hc
  have hinv : Set.InvOn (fun c => rev c B t) (fun c => fwd c B t) (Set.Iio (2 ^ B)) (Set.Iio (2 ^ B)) :=
    ⟨fun _ hc => rev_fwd hB hc ht, fun _ hc => fwd_rev hB hc ht⟩
  have hbij := hinv.bijOn hfwd fun c _ => rev_lt hB c t
  exact ⟨fun c hc => ⟨rev_fwd hB hc ht, fwd_rev hB hc ht⟩, hbij,
    fun c hc => exists_iterate_eq_self (Set.finite_Iio _) hfwd hbij.injOn hc⟩

end Sys2Proof.Machine
end

section
/-! SUPPORT. The lookup memory's commands: when the builder wraps, and what BUILD_LOOKUP and FREE_LOOKUP do, check
by check (spec/41_lookup.md R56 to R58, spec/60_exceptions.md R101, R102). -/

namespace Sys2Proof.Machine

/-! ## When the builder wraps -/

theorem minimalPeriod_seed_pos {row : TimecodeDef} (hr : RowInRange row) :
    0 < Function.minimalPeriod (fun c => fwd c row.bits row.taps) row.seed := by
  obtain ⟨-, -, hcycle⟩ := lfsrStepsInvertEachOther row.bits row.taps hr.bits.1 hr.bits.2 hr.taps
  obtain ⟨p, hp, hback⟩ := hcycle row.seed hr.seed
  exact Function.IsPeriodicPt.minimalPeriod_pos hp hback

/-- A table numbers the iterates of the seed apart, so below its length none is the seed again. -/
theorem TableFor.iterate_ne_seed {row : TimecodeDef} {m : Memory} (ht : TableFor row m) (hr : RowInRange row)
    {p : Nat} (hp : 0 < p) (hlt : p < row.length) :
    (fun c => fwd c row.bits row.taps)^[p] row.seed ≠ row.seed := by
  intro hback
  have hentry := ht.read_iterate hr hlt
  rw [hback, ht.first (hp.trans hlt)] at hentry
  omega

/-- Settles O17: a build within the period does not wrap, and one beyond it would be a table that gives the seed
two numbers. -/
theorem buildTableWrapsBeyondThePeriod : Obligations.BuildTableWrapsBeyondThePeriod := by
  intro m row hm hr
  constructor
  · intro hwrap
    refine ⟨_, minimalPeriod_seed_pos hr, ?_, Function.iterate_minimalPeriod⟩
    by_contra hle
    exact buildTable_ne_none hm hr (Nat.not_lt.mp hle) hwrap
  · rintro ⟨p, hp, hlt, hback⟩
    by_contra hok
    obtain ⟨m', hm'⟩ := Option.ne_none_iff_exists'.mp hok
    exact (buildTableHoldsTheCycle m m' row hm hr hm').1.iterate_ne_seed hr hp hlt hback

/-! ## The errors -/

/-- `raise` is what `Raises` says (R101). -/
theorem raises_raise (e : ErrorCode) (s : State) : Raises (.next (raise e s)) s e.bit :=
  ⟨_, rfl, rfl, by rw [raise_responses, e.status_eq], rfl, rfl, rfl, rfl, rfl⟩

theorem raises_orRaise {α : Type} {c : Except ErrorCode α} {e : ErrorCode} {s : State} {k : α → Result}
    (hc : c = .error e) : Raises (orRaise c s k) s e.bit := by
  rw [hc, orRaise_error]
  exact raises_raise e s

/-! ## What stays outside a slot -/

theorem onlySlot_setSlot (s : State) (h : Fin Config.nLut) (x : Slot) : OnlySlot s (s.setSlot h x) h :=
  ⟨fun _ hk => ⟨State.slot_setSlot_of_ne x hk, rfl⟩, rfl, rfl, rfl, rfl⟩

theorem onlySlot_releaseSlot (s : State) (h : Fin Config.nLut) : OnlySlot s (s.releaseSlot h) h :=
  ⟨fun k hk => ⟨by rw [State.slot_releaseSlot, if_neg hk], State.slotDraw_releaseSlot_of_ne hk⟩,
    rfl, rfl, rfl, rfl⟩

theorem OnlySlot.respond {s t : State} {h : Fin Config.nLut} (ht : OnlySlot s t h) (st : Status) (a b : Word) :
    OnlySlot s (Machine.respond st a b t) h := ht

/-! ## The checks -/

section
variable {s : State} (h : Fin Config.nLut)

theorem checkValid_of_le {n : Nat} (hn : Config.nLut ≤ n) : checkValid n s = .error .badUnit := by
  simp [checkValid, slotIndex_of_le hn]

theorem checkValid_of_valid (hv : (s.slot h).valid = true) : checkValid h.val s = .ok h := by
  simp only [checkValid, slotIndex_of_lt h.isLt, hv, if_true]

theorem checkValid_of_not_valid (hv : (s.slot h).valid = false) : checkValid h.val s = .error .noLookup := by
  simp only [checkValid, slotIndex_of_lt h.isLt, hv, Bool.false_eq_true, if_false]

theorem checkVacant_of_le {n : Nat} (hn : Config.nLut ≤ n) : checkVacant n s = .error .badUnit := by
  simp [checkVacant, slotIndex_of_le hn]

theorem checkVacant_of_valid (hv : (s.slot h).valid = true) : checkVacant h.val s = .error .busy := by
  simp only [checkVacant, slotIndex_of_lt h.isLt, hv, if_true]

theorem checkVacant_of_not_valid (hv : (s.slot h).valid = false) : checkVacant h.val s = .ok h := by
  simp only [checkVacant, slotIndex_of_lt h.isLt, hv, Bool.false_eq_true, if_false]

end

section
variable {rows : List TimecodeDef} {depth v : Nat} {row : TimecodeDef}

theorem checkBuildable_of_unlisted (hv : rows[v]? = none) :
    checkBuildable rows depth v = .error .unknownVariant := by
  simp [checkBuildable, variantRow, hv]

theorem checkBuildable_of_too_large (hv : rows[v]? = some row) (hd : depth < 2 ^ (row.bits + 1)) :
    checkBuildable rows depth v = .error .outOfMemory := by
  simp [checkBuildable, variantRow, hv, hd]

theorem checkBuildable_of_fits (hv : rows[v]? = some row) (hd : 2 ^ (row.bits + 1) ≤ depth) :
    checkBuildable rows depth v = .ok row := by
  simp [checkBuildable, variantRow, hv, hd]

end

/-! ## BUILD_LOOKUP -/

section
variable {rows : List TimecodeDef} {depth v : Nat}

/-- On a vacant slot BUILD_LOOKUP goes on to the check of the variant. -/
theorem buildLookupFrom_of_vacant {s : State} {h : Fin Config.nLut} (hs : (s.slot h).valid = false) :
    buildLookupFrom rows depth h.val v s = orRaise (checkBuildable rows depth v) s fun row =>
      .next (finishBuild h v (buildTable (s.slot h).mem row) s) := by
  rw [buildLookupFrom, checkVacant_of_not_valid h hs, orRaise_ok]

/-- BUILD_LOOKUP builds on a vacant slot a listed variant that fits. -/
theorem buildLookupFrom_of_fits {s : State} {h : Fin Config.nLut} {row : TimecodeDef} (hs : (s.slot h).valid = false)
    (hv : rows[v]? = some row) (hd : 2 ^ (row.bits + 1) ≤ depth) :
    buildLookupFrom rows depth h.val v s = .next (finishBuild h v (buildTable (s.slot h).mem row) s) := by
  rw [buildLookupFrom_of_vacant hs, checkBuildable_of_fits hv hd, orRaise_ok]

end

/-- Settles O19: each check fails in its turn (R102). -/
theorem buildLookupRaisesItsErrors : Obligations.BuildLookupRaisesItsErrors := by
  intro s h variant
  refine ⟨fun hle => raises_orRaise (checkVacant_of_le hle), fun hlt => ⟨fun hv => ?_, fun hv hvar => ?_⟩⟩
  · exact raises_orRaise (checkVacant_of_valid ⟨h, hlt⟩ hv)
  · have hnone : registry[variant]? = none := List.getElem?_eq_none (registryRowsAreInRange.1.trans_le hvar)
    rw [exec, execBuildLookup, buildLookupFrom_of_vacant (h := ⟨h, hlt⟩) hv]
    exact raises_orRaise (checkBuildable_of_unlisted hnone)

/-- Settles O20: the second check fails, or the build wraps and only the slot's memory is lost. -/
theorem buildLookupRaisesParameterErrors : Obligations.BuildLookupRaisesParameterErrors := by
  intro rows depth s h variant row hs hrow
  refine ⟨fun hd => ?_, fun hd hwrap => ?_⟩
  · rw [buildLookupFrom_of_vacant hs]
    exact raises_orRaise (checkBuildable_of_too_large hrow hd)
  · refine ⟨raise .lfsrWrapped (s.scrambleMemory h), ?_, ?_, ?_, rfl, rfl, fun k hk => ?_, rfl, rfl⟩
    · rw [buildLookupFrom_of_fits hs hrow hd, hwrap, finishBuild]
    · rw [slot_raise, State.slot_scrambleMemory, if_pos rfl]
    · rw [slot_raise, State.slot_scrambleMemory, if_pos rfl]
    · rw [slot_raise, State.slot_scrambleMemory, if_neg hk]

/-- On this hardware BUILD_LOOKUP builds every listed variant into a vacant slot: each fits and none wraps (R57). -/
theorem execBuildLookup_of_vacant {s : State} {h : Fin Config.nLut} {v : Nat} {row : TimecodeDef}
    (hwf : (s.slot h).mem.wf) (hs : (s.slot h).valid = false) (hrow : registry[v]? = some row) :
    ∃ m, buildTable (s.slot h).mem row = some m ∧
      execBuildLookup h.val v s =
        .next (respond statusOk 0 0 (s.setSlot h { valid := true, variant := BitVec.ofNat 3 v, mem := m })) := by
  have hmem := List.mem_of_getElem? hrow
  obtain ⟨hr, hfits, -, -⟩ := registryRowsAreInRange.2 row hmem
  obtain ⟨m, hm⟩ := Option.ne_none_iff_exists'.mp (registry_buildTable_ne_none hwf hmem hr)
  exact ⟨m, hm, by rw [execBuildLookup, buildLookupFrom_of_fits hs hrow hfits, hm, finishBuild]⟩

/-- Settles O18: the build of a registry row answers, and what it leaves is the table of O16. -/
theorem buildLookupBuildsTheVariant : Obligations.BuildLookupBuildsTheVariant := by
  intro s h variant hcanon hs hvar
  obtain ⟨row, hrow⟩ : ∃ row, registry[variant]? = some row :=
    ⟨_, List.getElem?_eq_getElem (hvar.trans_eq registryRowsAreInRange.1.symm)⟩
  obtain ⟨m, hm, hexec⟩ := execBuildLookup_of_vacant (hcanon h).1 hs hrow
  obtain ⟨htable, habove⟩ := buildTableHoldsTheCycle _ m row (hcanon h).1
    (rowInRange_of_mem_registry (List.mem_of_getElem? hrow)) hm
  refine ⟨_, row, hrow, hexec, ?_⟩
  rw [slot_respond, State.slot_setSlot_self]
  exact ⟨rfl, Nat.mod_eq_of_lt (by omega), htable, habove, rfl, rfl, (onlySlot_setSlot s h _).respond _ _ _⟩

/-! ## FREE_LOOKUP -/

/-- Settles O21: the checks of R58 in order, then the release of the slot. -/
theorem freeLookupInvalidatesTheSlot : Obligations.FreeLookupInvalidatesTheSlot := by
  intro s h
  refine ⟨fun hle => raises_orRaise (checkValid_of_le hle), fun hlt => ⟨fun hv => ?_, fun hv => ?_⟩⟩
  · exact raises_orRaise (checkValid_of_not_valid ⟨h, hlt⟩ hv)
  · rw [exec, execFreeLookup, checkValid_of_valid ⟨h, hlt⟩ hv, orRaise_ok]
    refine ⟨fun hbound => ?_, fun hfree => ?_⟩
    · rw [if_pos (slotInUse_iff.mpr hbound)]
      exact raises_raise .busy s
    · have huse : ¬ slotInUse s h = true := fun hu =>
        let ⟨d, hl, hh⟩ := slotInUse_iff.mp hu
        hfree d hl hh
      rw [if_neg huse]
      refine ⟨_, rfl, ?_, rfl, (onlySlot_releaseSlot s _).respond _ _ _⟩
      rw [slot_respond, State.slot_releaseSlot, if_pos rfl, freeSlot_valid]

end Sys2Proof.Machine
end

section
/-! SUPPORT. The channel tracker, the filter coefficients and RATE (spec/42_tracker_and_rate.md R64 to R67). -/

namespace Sys2Proof.Machine

/-! ## The coefficients -/

theorem zeroCoeff_eq (rate : Nat) : zeroCoeff rate = 65536000 / (rate + 1000) := rfl

theorem signalCoeff_eq (rate : Nat) : signalCoeff rate = 16384000 / (rate + 250) := rfl

/-- The document's coefficient `dt / (RC + dt)`, with `dt = 1 / rate` and `RC = 1 / k`, rounded down to a multiple
of `2^-16` (R66). -/
theorem coefficient_eq_floor {rate k : Nat} (hrate : 0 < rate) (hk : 0 < k) :
    ((65536 * k / (rate + k) : Nat) : ℤ) = ⌊(65536 : ℚ) * ((1 / rate) / (1 / k + 1 / rate))⌋ := by
  have hr : (rate : ℚ) ≠ 0 := Nat.cast_ne_zero.mpr hrate.ne'
  have hk' : (k : ℚ) ≠ 0 := Nat.cast_ne_zero.mpr hk.ne'
  have hclosed : (65536 : ℚ) * ((1 / rate) / (1 / k + 1 / rate)) = (65536 * k : Nat) / (rate + k : Nat) := by
    push_cast
    field_simp
  rw [hclosed, Rat.floor_natCast_div_natCast, Int.natCast_div]

/-- Settles O24: the closed form, and the document's formula it rounds. -/
theorem coefficientsAreTheRoundedFormula : Obligations.CoefficientsAreTheRoundedFormula := by
  intro rate
  refine ⟨zeroCoeff_eq rate, signalCoeff_eq rate, fun hrate => ⟨?_, ?_⟩, zeroCoeff_le rate, signalCoeff_le rate,
    ?_, fun hfrozen => ?_, fun hfrozen => ?_⟩
  · exact_mod_cast coefficient_eq_floor (k := Config.zeroRate) hrate (by decide)
  · exact_mod_cast coefficient_eq_floor (k := Config.signalRate) hrate (by decide)
  · rintro rfl
    exact ⟨rfl, rfl⟩
  · rw [zeroCoeff_eq]
    exact Nat.div_eq_of_lt (by omega)
  · rw [signalCoeff_eq]
    exact Nat.div_eq_of_lt (by omega)

/-! ## What stays outside a bank -/

theorem onlyBank_setBank (s : State) (d : Fin Config.nDec) (x : Decoder) : OnlyBank s (s.setBank d x) d :=
  ⟨fun _ he => ⟨State.bank_setBank_of_ne x he, rfl⟩, rfl, rfl, rfl, rfl⟩

theorem OnlyBank.respond {s t : State} {d : Fin Config.nDec} (ht : OnlyBank s t d) (st : Status) (a b : Word) :
    OnlyBank s (Machine.respond st a b t) d := ht

/-- Writing a bank's own contents back changes nothing. -/
theorem State.setBank_bank_self (s : State) (d : Fin Config.nDec) : s.setBank d (s.bank d) = s :=
  congrArg (fun dec => { s with dec }) (Vector.set_getElem_self d.isLt)

/-! ## RATE -/

theorem Decoder.withRate_rate_toNat (D : Decoder) {r : Nat} (hr : fitsOperand r = true) :
    (D.withRate r).rate.toNat = r := by
  rw [withRate_rate, BitVec.toNat_ofNat, Nat.mod_eq_of_lt (of_decide_eq_true hr)]

/-- RATE with the rate in force finds every register it writes as it would leave it (R67). -/
theorem Decoder.withRate_rate_self {D : Decoder} (hv : D.rateValid = true)
    (hz : D.zeroAlpha.toNat = zeroCoeff D.rate.toNat) (hs : D.signalAlpha.toNat = signalCoeff D.rate.toNat) :
    D.withRate D.rate.toNat = D := by
  calc D.withRate D.rate.toNat = { D with rateValid := true } := by
        simp only [withRate, ← hz, ← hs, BitVec.ofNat_toNat, BitVec.setWidth_eq]
    _ = D := by rw [← hv]

theorem execRate_of_live {s : State} {d : Fin Config.nDec} (r : Nat) (hl : (s.bank d).live = true) :
    execRate d.val r s = .next (respond statusOk 0 0 (s.setBank d ((s.bank d).withRate r))) := by
  rw [execRate, checkLive_of_live d hl, orRaise_ok]

/-- Settles O25: `CheckLive`'s errors in order (R102), then the registers `withRate` writes. -/
theorem rateSetsTheCoefficients : Obligations.RateSetsTheCoefficients := by
  intro s d rate hwf
  refine ⟨fun hle => raises_orRaise (checkLive_of_le s hle), fun hd =>
    ⟨fun hl => raises_orRaise (checkLive_of_not_live ⟨d, hd⟩ hl), fun hl => ?_⟩⟩
  have hrate : fitsOperand rate = true := (Bool.and_eq_true_iff.mp hwf).2
  refine ⟨_, execRate_of_live rate hl, rfl, (onlyBank_setBank s _ _).respond _ _ _, rfl, ?_⟩
  rw [bank_respond, State.bank_setBank_self]
  exact ⟨Decoder.withRate_rate_toNat _ hrate, rfl, Decoder.withRate_zeroAlpha_toNat _ _,
    Decoder.withRate_signalAlpha_toNat _ _, rfl⟩

/-- Settles O26: the bank is written back as it was. -/
theorem rateInForceChangesNothing : Obligations.RateInForceChangesNothing := by
  intro s d hfollow hl hv
  obtain ⟨hz, hs⟩ := hfollow d hl hv
  refine ⟨respond statusOk 0 0 s, ?_, rfl, rfl, rfl, rfl, rfl, rfl, rfl⟩
  rw [exec, execRate_of_live _ hl, Decoder.withRate_rate_self hv hz hs, State.setBank_bank_self]

/-! ## The channel tracker -/

theorem crossesUp_iff {zero vq : Int} {positive : Bool} :
    crossesUp zero vq positive = true ↔ vq ≥ zero + 8388608 ∧ positive = false := by
  simp [crossesUp]

theorem crossesDown_iff {zero vq : Int} {positive : Bool} :
    crossesDown zero vq positive = true ↔ vq < zero - 8388608 ∧ positive = true := by
  simp [crossesDown]

section
variable (ch : ChannelState) (v : Int) (a : BitVec 17)

theorem channelStep_swapped_iff :
    (channelStep ch v a).2 = true ↔
      crossesUp ch.zero.toInt (levelOf v) ch.positive = true ∨
        crossesDown ch.zero.toInt (levelOf v) ch.positive = true :=
  Bool.or_eq_true_iff

theorem channelStep_positive :
    (channelStep ch v a).1.positive =
      if crossesUp ch.zero.toInt (levelOf v) ch.positive = true then true
      else if crossesDown ch.zero.toInt (levelOf v) ch.positive = true then false else ch.positive := rfl

end

/-- The estimate's register is wide enough: whatever it holds, the new estimate of a sample of the mono range is
between two values it can hold (R64 step 3, R65). -/
theorem channelStep_zero_toInt (ch : ChannelState) {v : Int} {a : BitVec 17} (hlo : -65536 ≤ v) (hhi : v ≤ 65534)
    (ha : a.toNat ≤ 65536) :
    (channelStep ch v a).1.zero.toInt = ch.zero.toInt + scaledProduct a (v * 65536 - ch.zero.toInt) := by
  have hregister := And.intro ch.zero.le_toInt (Int.le_sub_one_of_lt ch.zero.toInt_lt)
  have hb := lowPass_bounds ha hregister (y := v * 65536) (by omega)
  exact BitVec.toInt_ofInt_eq_self (by decide) hb.1 (Int.lt_of_le_sub_one hb.2)

/-- Settles O27: the crossing of step 2 reads the estimate as it was, and step 3 fits the register. -/
theorem channelStepIsExact : Obligations.ChannelStepIsExact := by
  intro ch v a hlo hhi ha zero up down after
  have hup : crossesUp ch.zero.toInt (levelOf v) ch.positive = true ↔ up := crossesUp_iff
  have hdown : crossesDown ch.zero.toInt (levelOf v) ch.positive = true ↔ down := crossesDown_iff
  have hswapped : (channelStep ch v a).2 = true ↔ up ∨ down := by
    rw [channelStep_swapped_iff, hup, hdown]
  have hpositive : after.positive = if up then true else if down then false else ch.positive := by
    simp only [after, channelStep_positive, hup, hdown]
  have hticker : after.crossingTicker = if up ∨ down then 0 else ch.crossingTicker + 1 := by
    simp only [after, channelStep_crossingTicker, hswapped]
  refine ⟨hswapped, channelStep_zero_toInt ch hlo hhi ha, fun h => ?_, fun h => ?_, fun h h' => ?_⟩
  · rw [hpositive, hticker, if_pos h, if_pos (.inl h)]
    exact ⟨rfl, rfl⟩
  · have hnot : ¬ up := fun h' => Bool.false_ne_true (h'.2.symm.trans h.2)
    rw [hpositive, hticker, if_neg hnot, if_pos h, if_pos (.inr h)]
    exact ⟨rfl, rfl⟩
  · rw [hpositive, hticker, if_neg h, if_neg h', if_neg (not_or.mpr ⟨h, h'⟩), BitVec.toNat_add]
    exact ⟨rfl, rfl⟩

/-! ## The estimate -/

theorem scaledProduct_neg {a : BitVec 17} {x : Int} (ha : 0 < a.toNat) (hx : x < 0) : scaledProduct a x < 0 :=
  Int.ediv_neg_of_neg_of_pos (mul_neg_of_pos_of_neg (Int.natCast_pos.mpr ha) hx) (by decide)

theorem scaledProduct_of_zero {a : BitVec 17} (ha : a.toNat = 0) (x : Int) : scaledProduct a x = 0 := by
  simp [scaledProduct, ha]

/-- The coefficient 1.0. -/
theorem scaledProduct_of_one {a : BitVec 17} (ha : a.toNat = 65536) (x : Int) : scaledProduct a x = x := by
  simp [scaledProduct, ha]

/-- Settles O28: a low-pass stays between its old value and the sample, and rounding down moves it from above. -/
theorem estimateMovesTowardsTheSample : Obligations.EstimateMovesTowardsTheSample := by
  intro ch v a hlo hhi ha zero after
  have hafter : after = zero + scaledProduct a (v * 65536 - zero) := channelStep_zero_toInt ch hlo hhi ha
  rw [hafter]
  refine ⟨fun hbelow => ?_, fun habove hpos => ?_, fun hzero => ?_, fun hone => ?_⟩
  · exact lowPass_bounds ha ⟨le_rfl, hbelow⟩ ⟨hbelow, le_rfl⟩
  · have hb := lowPass_bounds ha ⟨habove.le, le_rfl⟩ ⟨le_rfl, habove.le⟩
    have hfalls : scaledProduct a (v * 65536 - zero) < 0 := scaledProduct_neg hpos (by omega)
    exact ⟨hb.1, by omega⟩
  · rw [scaledProduct_of_zero hzero, add_zero]
  · rw [scaledProduct_of_one hone, add_sub_cancel]

end Sys2Proof.Machine
end

section
/-! SUPPORT. SAMPLE and SUBMIT (spec/43_sample.md R70 to R79): the ways SAMPLE answers a live bank, the registers it
writes as the exact numbers they hold, and a run of SAMPLEs as a fold over the frames. -/

namespace Sys2Proof.Machine

/-! ## How SAMPLE answers -/

section
variable {s : State} {d : Fin Config.nDec} {l r : Int}

theorem execSample_of_no_rate (hl : (s.bank d).live = true) (hv : (s.bank d).rateValid = false) :
    execSample d.val l r s = .next (raise .noRate s) := by
  rw [execSample, checkLive_of_live d hl, orRaise_ok, if_neg (Bool.eq_false_iff.mp hv)]

theorem execSample_of_no_crossing (hl : (s.bank d).live = true) (hv : (s.bank d).rateValid = true)
    (hs : (s.bank d).swapped l r = false) :
    execSample d.val l r s = .next (respond statusOk 0 0 (s.setBank d ((s.bank d).everySample l r))) := by
  rw [execSample, checkLive_of_live d hl, orRaise_ok, if_pos hv, if_neg (Bool.eq_false_iff.mp hs)]

theorem execSample_of_crossing {row : TimecodeDef} (hl : (s.bank d).live = true)
    (hv : (s.bank d).rateValid = true) (hs : (s.bank d).swapped l r = true)
    (hr : bankRow s (s.bank d) = .ok row) :
    execSample d.val l r s =
      .next (respond statusOk 0 0 (s.setBank d (((s.bank d).everySample l r).crossing row))) := by
  rw [execSample, checkLive_of_live d hl, orRaise_ok, if_pos hv, if_pos hs, hr, orFault_ok]

end

/-- Settles O29: `CheckLive`'s errors in order (R102), then the missing rate. -/
theorem sampleRaisesItsErrors : Obligations.SampleRaisesItsErrors := by
  intro s d l r
  refine ⟨fun hle => raises_orRaise (checkLive_of_le s hle), fun hd =>
    ⟨fun hl => raises_orRaise (checkLive_of_not_live ⟨d, hd⟩ hl), fun hl hv => ?_⟩⟩
  rw [exec, execSample_of_no_rate (d := ⟨d, hd⟩) hl hv]
  exact raises_raise .noRate s

/-! ## The levels of a sample -/

/-- Whatever the estimate's register holds, the amplitude of a sample of the mono range fits the peak's (R71). -/
theorem amplitude_lt {g : Int} {zero : BitVec 33} (hg : -65536 ≤ g ∧ g ≤ 65534) : amplitude g zero < 2 ^ 33 := by
  have hlo := zero.le_toInt
  have hhi := zero.toInt_lt
  rw [amplitude, levelOf_eq]
  omega

/-- The signal level's register is wide enough for the low-pass of R71. -/
theorem toNat_ofInt_smoothed {level : BitVec 33} {w : Nat} {a : BitVec 17} (ha : a.toNat ≤ 65536)
    (hw : w < 2 ^ 33) : ((BitVec.ofInt 33 (smoothed level w a)).toNat : Int) = smoothed level w a := by
  have hlevel := level.isLt
  have hb : (0 : Int) ≤ smoothed level w a ∧ smoothed level w a ≤ 2 ^ 33 - 1 :=
    lowPass_bounds ha (by omega) (by omega)
  rw [BitVec.toNat_ofInt]
  omega

section
variable {D : Decoder} {l r : Int}

theorem Decoder.everySample_wavePeak_toNat (hg : -65536 ≤ l + r ∧ l + r ≤ 65534) :
    (D.everySample l r).wavePeak.toNat = max D.wavePeak.toNat
      (amplitude (l + r) (channelStep D.mono (l + r) D.zeroAlpha).1.zero) := by
  rw [everySample_wavePeak, BitVec.toNat_ofNat,
    Nat.mod_eq_of_lt (Nat.max_lt.mpr ⟨D.wavePeak.isLt, amplitude_lt hg⟩)]

theorem Decoder.everySample_signalLevel_toNat (ha : D.signalAlpha.toNat ≤ 65536)
    (hg : -65536 ≤ l + r ∧ l + r ≤ 65534) :
    ((D.everySample l r).signalLevel.toNat : Int) = smoothed D.signalLevel
      (amplitude (l + r) (channelStep D.mono (l + r) D.zeroAlpha).1.zero) D.signalAlpha := by
  rw [everySample_signalLevel, toNat_ofInt_smoothed ha (amplitude_lt hg)]

end

/-- The mono sample of a frame a command word carries. -/
theorem mono_bounds {n : Nat} {l r : Int} (hwf : (Instr.sample n l r).wellFormed = true) :
    -65536 ≤ l + r ∧ l + r ≤ 65534 := by
  simp only [Instr.wellFormed, Bool.and_eq_true] at hwf
  obtain ⟨⟨-, hl⟩, hr⟩ := hwf
  have hl := fitsPcm_bounds hl
  have hr := fitsPcm_bounds hr
  omega

/-- Settles O30: the parts every sample executes, with no crossing action after them. -/
theorem sampleWithoutCrossing : Obligations.SampleWithoutCrossing := by
  intro s d l r hwf hl hv hcoeff D mono w hs
  have hg := mono_bounds hwf
  refine ⟨_, execSample_of_no_crossing hl hv hs, rfl, (onlyBank_setBank s _ _).respond _ _ _, rfl, ?_⟩
  rw [bank_respond, State.bank_setBank_self]
  exact ⟨Decoder.everySample_wavePeak_toNat hg, Decoder.everySample_signalLevel_toNat hcoeff.2 hg, rfl⟩

/-! ## Silence -/

/-- A silent sample on a tracker at rest: no crossing, and only the ticker moves (R64). -/
theorem channelStep_silent {ch : ChannelState} (h : ch.zero = 0 ∧ ch.positive = false) (a : BitVec 17) :
    channelStep ch 0 a = (⟨0, false, ch.crossingTicker + 1⟩, false) := by
  obtain ⟨hz, hp⟩ := h
  simp [channelStep, hz, hp, crossesUp, crossesDown, trackedZero, scaledProduct, levelOf]

/-- A silent sample on a bank at rest moves only its five tickers (R79). -/
theorem Decoder.everySample_silent {D : Decoder}
    (hch : ∀ ch ∈ [D.ch0, D.ch1, D.mono], ch.zero = 0 ∧ ch.positive = false) (hw : D.wavePeak = 0)
    (hs : D.signalLevel = 0) :
    D.everySample 0 0 =
      { D with
        ch0 := ⟨0, false, D.ch0.crossingTicker + 1⟩
        ch1 := ⟨0, false, D.ch1.crossingTicker + 1⟩
        mono := ⟨0, false, D.mono.crossingTicker + 1⟩
        crossTicker := D.crossTicker + 1
        timecodeTicker := D.timecodeTicker + 1 } := by
  simp only [List.forall_mem_cons] at hch
  obtain ⟨h0, h1, hm, -⟩ := hch
  have hamp : amplitude 0 0#33 = 0 := by decide
  simp [everySample, track, continuousUpdate, tickerIncrement, channelStep_silent, h0, h1, hm, hw, hs, hamp,
    smoothed, scaledProduct]

/-- Settles O34: no tracker crosses, and the amplitude is 0. -/
theorem silenceMovesOnlyTheTickers : Obligations.SilenceMovesOnlyTheTickers := by
  intro s d hl hv hch hw hlevel
  have hs : (s.bank d).swapped 0 0 = false := by
    rw [Decoder.swapped, add_zero, channelStep_silent (hch _ (by simp))]
  refine ⟨_, execSample_of_no_crossing hl hv hs, rfl, (onlyBank_setBank s _ _).respond _ _ _, rfl, ?_⟩
  rw [bank_respond, State.bank_setBank_self, Decoder.everySample_silent hch hw hlevel]

/-! ## The crossing actions -/

section
variable {D : Decoder} {row : TimecodeDef}

theorem Decoder.crossing_of_halfCycle (h : D.mono.positive = (row.polarity ^^ D.forwards)) :
    D.crossing row = D.saveHalfPeak.directionAndPitch := by
  rw [crossing, isHalfCycle, if_pos (beq_iff_eq.mpr h)]

theorem Decoder.crossing_of_fullCycle (h : D.mono.positive ≠ (row.polarity ^^ D.forwards)) :
    D.crossing row = (D.emitBit row).directionAndPitch := by
  rw [crossing, isHalfCycle, if_neg (mt beq_iff_eq.mp h)]

theorem Decoder.crossing_pitchTicker : (D.crossing row).pitchTicker = D.pitchTicker + D.crossTicker := by
  rcases D.crossing_cases row with h | h
  · rw [h]; rfl
  · rw [h]; rfl

/-- `pitch_ticker` takes the samples since the last crossing, this one included (R72, R77). -/
theorem Decoder.crossing_everySample_pitchTicker_toNat (l r : Int) :
    ((D.everySample l r).crossing row).pitchTicker.toNat =
      (D.pitchTicker.toNat + (D.crossTicker.toNat + 1) % 2 ^ 32) % 2 ^ 32 := by
  rw [crossing_pitchTicker, everySample_pitchTicker, everySample_crossTicker, BitVec.toNat_add, BitVec.toNat_add]
  rfl

end

/-- Settles O31: the peak of every sample is saved, then direction and pitch are updated. -/
theorem sampleAtHalfCycle : Obligations.SampleAtHalfCycle := by
  intro s d l r row hwf hl hv hcoeff hr D ch0 ch1 mono w forwards hs hhalf
  have hg := mono_bounds hwf
  refine ⟨_, execSample_of_crossing hl hv hs hr, rfl, (onlyBank_setBank s _ _).respond _ _ _, rfl, ?_⟩
  rw [bank_respond, State.bank_setBank_self]
  have hcross : (D.everySample l r).crossing row = (D.everySample l r).saveHalfPeak.directionAndPitch :=
    Decoder.crossing_of_halfCycle hhalf
  refine ⟨?_, ?_, Decoder.crossing_everySample_pitchTicker_toNat l r, ?_⟩
  · rw [hcross]
    exact Decoder.everySample_wavePeak_toNat hg
  · rw [Decoder.crossing_signalLevel]
    exact Decoder.everySample_signalLevel_toNat hcoeff.2 hg
  · rw [hcross]
    simp [Decoder.directionAndPitch, Decoder.saveHalfPeak, directionForwards, D, ch0, ch1, mono, forwards]

/-! ## The emitted bit -/

/-- The bit of R74, with the peaks as one sum. -/
theorem toNat_bitDecision (wave half : BitVec 33) (ref : BitVec 35) :
    (bitDecision wave half ref).toNat =
      if ref.toInt ≠ -1 ∧ (wave.toNat : Int) + half.toNat > ref.toInt then 1 else 0 := by
  unfold bitDecision
  by_cases hunset : ref.toInt = -1
  · simp [hunset]
  · simp [hunset, Bool.toNat]

/-- A register of `n` bits shifted down, with a bit set in at the top of `B`, keeps its width. -/
theorem shiftRight_or_bit_lt {x b B n : Nat} (hx : x < 2 ^ n) (hb : b < 2) (hB : 1 ≤ B) (hn : B ≤ n) :
    x >>> 1 ||| b <<< (B - 1) < 2 ^ n := by
  refine Nat.or_lt_two_pow (Nat.lt_of_le_of_lt (Nat.shiftRight_le _ _) hx) ?_
  rw [Nat.shiftLeft_eq]
  calc b * 2 ^ (B - 1) ≤ 1 * 2 ^ (B - 1) := Nat.mul_le_mul_right _ (Nat.le_of_lt_succ hb)
    _ < 2 ^ n := by rw [Nat.one_mul]; exact Nat.pow_lt_pow_right (by decide) (by omega)

theorem shiftBackward_eq (x B : Nat) (b : Bool) : shiftBackward x B b = (x <<< 1) % 2 ^ B ||| b.toNat := by
  rw [shiftBackward, mask, Nat.and_two_pow_sub_one_eq_mod]

section
variable {D : Decoder} {row : TimecodeDef} (hB : 1 ≤ row.bits ∧ row.bits ≤ 23)
include hB

/-- The bitstream's register is wide enough for the shift of every row (R75). -/
theorem Decoder.shiftAndPredict_bitstream_toNat (b : Bool) :
    (D.shiftAndPredict row b).bitstream.toNat =
      if D.forwards then (D.bitstream.toNat >>> 1) ||| (b.toNat <<< (row.bits - 1))
      else ((D.bitstream.toNat <<< 1) % 2 ^ row.bits) ||| b.toNat := by
  rw [shiftAndPredict_bitstream, ← shiftBackward_eq, BitVec.toNat_ofNat]
  refine Nat.mod_eq_of_lt ?_
  split
  · exact shiftRight_or_bit_lt D.bitstream.isLt (Bool.toNat_lt b) hB.1 hB.2
  · exact (shiftBackward_lt hB.1).trans_le (Nat.pow_le_pow_right (by decide) hB.2)

/-- The prediction's register is wide enough for the LFSR step of every row (R75). -/
theorem Decoder.shiftAndPredict_timecode_toNat (b : Bool) :
    (D.shiftAndPredict row b).timecode.toNat =
      if D.forwards then fwd D.timecode.toNat row.bits row.taps
      else rev D.timecode.toNat row.bits row.taps := by
  rw [shiftAndPredict_timecode, BitVec.toNat_ofNat]
  refine Nat.mod_eq_of_lt ?_
  split
  · exact shiftRight_or_bit_lt D.timecode.isLt (parity_lt_two _) hB.1 hB.2
  · exact (rev_lt hB.1 _ _).trans_le (Nat.pow_le_pow_right (by decide) hB.2)

end

theorem adaptedRef_eq (ref sum : Int) :
    adaptedRef ref sum = if ref = -1 then sum else (ref * 47 + sum) / 48 := rfl

section
variable (D : Decoder) (row : TimecodeDef)

/-- The bit a full-cycle crossing emits (R74). -/
def Decoder.emittedBit : Bool := bitDecision D.wavePeak D.halfPeak D.refLevel

theorem Decoder.emitBit_bitstream :
    (D.emitBit row).bitstream = (D.shiftAndPredict row D.emittedBit).bitstream := rfl

/-- Prediction and observation are compared as numbers, and the counter saturates (R76). -/
theorem Decoder.emitBit_validCounter_toNat :
    (D.emitBit row).validCounter.toNat =
      if (D.shiftAndPredict row D.emittedBit).timecode.toNat = (D.shiftAndPredict row D.emittedBit).bitstream.toNat
      then min (D.validCounter.toNat + 1) (2 ^ 32 - 1) else 0 := by
  rw [emitBit, refAdapt_validCounter, validate_validCounter, apply_ite BitVec.toNat, toNat_saturatingSucc,
    shiftAndPredict_validCounter]
  simp only [BitVec.toNat_inj]
  rfl

/-- The reference's register is wide enough for its adaptation, whatever it holds (R78). -/
theorem Decoder.emitBit_refLevel_toInt :
    (D.emitBit row).refLevel.toInt =
      adaptedRef D.refLevel.toInt ((D.wavePeak.toNat : Int) + D.halfPeak.toNat) := by
  have hlo := D.refLevel.le_toInt
  have hhi := D.refLevel.toInt_lt
  have hwave := D.wavePeak.isLt
  have hhalf := D.halfPeak.isLt
  have hfits : -2 ^ 34 ≤ adaptedRef D.refLevel.toInt ((D.wavePeak.toNat : Int) + D.halfPeak.toNat) ∧
      adaptedRef D.refLevel.toInt ((D.wavePeak.toNat : Int) + D.halfPeak.toNat) < 2 ^ 34 := by
    rw [adaptedRef_eq]
    split <;> omega
  rw [← BitVec.toInt_ofInt_eq_self (w := 35) (by decide) hfits.1 hfits.2, add_comm (D.wavePeak.toNat : Int)]
  rfl

end

/-- Settles O32: the bit is decided on the peaks of this sample and the reference before it adapts. -/
theorem sampleAtFullCycle : Obligations.SampleAtFullCycle := by
  intro s d l r row hwf hl hv hcoeff hr D ch0 ch1 mono w peaks bit predicted observed forwards hs hfull
  have hg := mono_bounds hwf
  obtain ⟨k, -, hrow⟩ := bankRow_ok hr
  have hB := (rowInRange_of_slotRow hrow).bits
  refine ⟨_, execSample_of_crossing hl hv hs hr, rfl, (onlyBank_setBank s _ _).respond _ _ _, rfl, ?_⟩
  rw [bank_respond, State.bank_setBank_self]
  let E := D.everySample l r
  have hcross : E.crossing row = (E.emitBit row).directionAndPitch := Decoder.crossing_of_fullCycle hfull
  have hpeaks : (E.wavePeak.toNat : Int) + E.halfPeak.toNat = peaks := by
    rw [Decoder.everySample_wavePeak_toNat hg, Decoder.everySample_halfPeak]
    rfl
  have hbit : E.emittedBit.toNat = bit := by
    rw [Decoder.emittedBit, toNat_bitDecision, hpeaks]
    rfl
  have hobserved : (E.shiftAndPredict row E.emittedBit).bitstream.toNat = observed := by
    rw [Decoder.shiftAndPredict_bitstream_toNat hB, hbit]
    rfl
  have hpredicted : (E.shiftAndPredict row E.emittedBit).timecode.toNat = predicted :=
    Decoder.shiftAndPredict_timecode_toNat hB _
  have hcounter : E.validCounter = D.validCounter := D.everySample_validCounter l r
  have href : E.refLevel = D.refLevel := D.everySample_refLevel l r
  refine ⟨?_, ?_, ?_, ?_, Decoder.crossing_everySample_pitchTicker_toNat l r, ?_⟩
  · rw [Decoder.crossing_signalLevel]
    exact Decoder.everySample_signalLevel_toNat hcoeff.2 hg
  · rw [hcross, Decoder.directionAndPitch_bitstream, Decoder.emitBit_bitstream, hobserved]
  · rw [hcross, Decoder.directionAndPitch_validCounter, Decoder.emitBit_validCounter_toNat, hobserved, hpredicted,
      hcounter]
  · rw [hcross, Decoder.directionAndPitch_refLevel, Decoder.emitBit_refLevel_toInt, hpeaks, href,
      adaptedRef_eq]
  · rw [hcross]
    simp [Decoder.directionAndPitch, Decoder.emitBit, directionForwards, E, D, ch0, ch1, mono, forwards]

/-! ## Runs of SAMPLEs -/

/-- One frame on a bank whose variant is `row` (R70). -/
def Decoder.sampled (row : TimecodeDef) (D : Decoder) (frame : Int × Int) : Decoder :=
  if D.swapped frame.1 frame.2 = true then (D.everySample frame.1 frame.2).crossing row
  else D.everySample frame.1 frame.2

/-- A register that the two parts of a SAMPLE keep is kept. -/
theorem Decoder.sampled_keeps {α : Type} {f : Decoder → α} {row : TimecodeDef} {D : Decoder} {frame : Int × Int}
    (hevery : f (D.everySample frame.1 frame.2) = f D)
    (hcross : f ((D.everySample frame.1 frame.2).crossing row) = f D) : f (D.sampled row frame) = f D := by
  unfold sampled
  split
  · exact hcross
  · exact hevery

section
variable (row : TimecodeDef) (D : Decoder) (frame : Int × Int)

@[simp] theorem Decoder.sampled_live : (D.sampled row frame).live = D.live :=
  sampled_keeps (f := live) (by simp) (by simp)
@[simp] theorem Decoder.sampled_handle : (D.sampled row frame).handle = D.handle :=
  sampled_keeps (f := handle) (by simp) (by simp)
@[simp] theorem Decoder.sampled_rateValid : (D.sampled row frame).rateValid = D.rateValid :=
  sampled_keeps (f := rateValid) (by simp) (by simp)
@[simp] theorem Decoder.sampled_rate : (D.sampled row frame).rate = D.rate :=
  sampled_keeps (f := rate) (by simp) (by simp)
@[simp] theorem Decoder.sampled_zeroAlpha : (D.sampled row frame).zeroAlpha = D.zeroAlpha :=
  sampled_keeps (f := zeroAlpha) (by simp) (by simp)
@[simp] theorem Decoder.sampled_signalAlpha : (D.sampled row frame).signalAlpha = D.signalAlpha :=
  sampled_keeps (f := signalAlpha) (by simp) (by simp)

end

/-- What every frame keeps, a run of frames keeps. -/
theorem Decoder.foldl_sampled_keeps {α : Type} {f : Decoder → α} {row : TimecodeDef}
    (hf : ∀ D frame, f (Decoder.sampled row D frame) = f D) (frames : List (Int × Int)) (D : Decoder) :
    f (frames.foldl (sampled row) D) = f D :=
  List.foldlRecOn (motive := fun E => f E = f D) frames _ rfl fun E hE frame _ => (hf E frame).trans hE

/-- RATE finds its rate in force. -/
theorem Decoder.withRate_eq_self_iff {D : Decoder} {rate : Nat} :
    D.withRate rate = D ↔ D.rate = BitVec.ofNat 32 rate ∧ D.zeroAlpha = BitVec.ofNat 17 (zeroCoeff rate) ∧
      D.signalAlpha = BitVec.ofNat 17 (signalCoeff rate) ∧ D.rateValid = true := by
  constructor
  · intro h
    rw [← h]
    exact ⟨rfl, rfl, rfl, rfl⟩
  · rintro ⟨hrate, hzero, hsignal, hvalid⟩
    rw [withRate, ← hrate, ← hzero, ← hsignal, ← hvalid]

/-- A run of SAMPLEs leaves the rate in force (R67, R79). -/
theorem Decoder.withRate_foldl_sampled (row : TimecodeDef) (rate : Nat) (frames : List (Int × Int)) (D : Decoder) :
    (frames.foldl (sampled row) (D.withRate rate)).withRate rate =
      frames.foldl (sampled row) (D.withRate rate) := by
  rw [withRate_eq_self_iff, foldl_sampled_keeps (sampled_rate row), foldl_sampled_keeps (sampled_zeroAlpha row),
    foldl_sampled_keeps (sampled_signalAlpha row), foldl_sampled_keeps (sampled_rateValid row)]
  exact ⟨rfl, rfl, rfl, rfl⟩

/-! ## One bank written, and responses added -/

/-- `t` is `s` with `x` in bank `d`, whatever has been answered. -/
def BankSet (s : State) (d : Fin Config.nDec) (x : Decoder) (t : State) : Prop :=
  ∃ rs, t = { s.setBank d x with responses := rs }

section
variable {s t u : State} {d : Fin Config.nDec} {x y : Decoder} {row : TimecodeDef}

theorem BankSet.refl (s : State) (d : Fin Config.nDec) : BankSet s d (s.bank d) s :=
  ⟨s.responses, by rw [State.setBank_bank_self]⟩

theorem BankSet.bank (h : BankSet s d x t) : t.bank d = x := by
  obtain ⟨rs, rfl⟩ := h
  exact State.bank_setBank_self s d x

theorem BankSet.bankRow (h : BankSet s d x t) : bankRow t y = bankRow s y := by
  obtain ⟨rs, rfl⟩ := h
  rfl

/-- The next answer overwrites the bank. -/
theorem BankSet.respond (h : BankSet s d x t) (st : Status) (a b : Word) (y : Decoder) :
    BankSet s d y (Machine.respond st a b (t.setBank d y)) := by
  obtain ⟨rs, rfl⟩ := h
  refine ⟨responseWord st a b :: rs, ?_⟩
  simp [Machine.respond, State.setBank, Vector.set_set]

theorem BankSet.eq_but_responses (ht : BankSet s d x t) (hu : BankSet s d x u) :
    { t with responses := [] } = { u with responses := [] } := by
  obtain ⟨rs, rfl⟩ := ht
  obtain ⟨rs', rfl⟩ := hu
  rfl

/-! ## SUBMIT -/

/-- SAMPLE on a live bank with a rate and a variant always answers (R70). -/
theorem execSample_of_bound (hl : (s.bank d).live = true) (hv : (s.bank d).rateValid = true)
    (hr : bankRow s (s.bank d) = .ok row) (frame : Int × Int) :
    execSample d.val frame.1 frame.2 s =
      .next (respond statusOk 0 0 (s.setBank d ((s.bank d).sampled row frame))) := by
  unfold Decoder.sampled
  split
  · next hs => exact execSample_of_crossing hl hv hs hr
  · next hs => exact execSample_of_no_crossing hl hv (Bool.eq_false_iff.mpr hs)

theorem execAll_cons_of_next {i : Instr} {is : List Instr} (h : exec i s = .next t) :
    execAll (i :: is) s = execAll is t := by
  rw [execAll, h]

/-- A run of SAMPLEs folds the frames into the bank. -/
theorem execAll_samples (ht : BankSet s d x t) (hl : x.live = true) (hv : x.rateValid = true)
    (hr : bankRow s x = .ok row) (frames : List (Int × Int)) :
    ∃ u, execAll (frames.map fun f => .sample d.val f.1 f.2) t = .next u ∧
      BankSet s d (frames.foldl (Decoder.sampled row) x) u := by
  induction frames generalizing t x with
  | nil => exact ⟨t, rfl, ht⟩
  | cons frame frames ih =>
    obtain rfl := ht.bank
    have hstep : exec (.sample d.val frame.1 frame.2) t = _ := execSample_of_bound hl hv (ht.bankRow.trans hr) frame
    rw [List.map_cons, execAll_cons_of_next hstep]
    exact ih (ht.respond _ _ _ _) (by simpa using hl) (by simpa using hv)
      ((bankRow_congr (Decoder.sampled_handle row _ frame)).trans hr)

/-- SUBMIT folds the frames into the bank at its rate (R47, R79). -/
theorem execAll_submit (ht : BankSet s d x t) (hl : x.live = true) (hr : bankRow s x = .ok row) (rate : Nat)
    (frames : List (Int × Int)) :
    ∃ u, execAll (submitCommands d.val rate frames) t = .next u ∧
      BankSet s d (frames.foldl (Decoder.sampled row) (x.withRate rate)) u := by
  obtain rfl := ht.bank
  have hrate : exec (.rate d.val rate) t = _ := execRate_of_live rate hl
  rw [submitCommands, execAll_cons_of_next hrate]
  exact execAll_samples (x := (t.bank d).withRate rate) (ht.respond _ _ _ _) hl rfl hr frames

end

/-- Settles O35: each SUBMIT is a fold over its frames, and the second RATE finds its rate in force. -/
theorem splitSubmitEqualsWholeSubmit : Obligations.SplitSubmitEqualsWholeSubmit := by
  intro s d rate xs ys hbound hl
  obtain ⟨h, hb, hvalid⟩ := hbound.2 d hl
  obtain ⟨row, hrow⟩ := hbound.1 h hvalid
  have hr : bankRow s (s.bank d) = .ok row := (bankRow_of_boundSlot hb).trans hrow
  obtain ⟨w, hw, hwhole⟩ := execAll_submit (.refl s d) hl hr rate (xs ++ ys)
  obtain ⟨a, ha, hfirst⟩ := execAll_submit (.refl s d) hl hr rate xs
  have hlive := Decoder.foldl_sampled_keeps (Decoder.sampled_live row) xs ((s.bank d).withRate rate)
  have hhandle := Decoder.foldl_sampled_keeps (Decoder.sampled_handle row) xs ((s.bank d).withRate rate)
  obtain ⟨b, hb, hsecond⟩ := execAll_submit hfirst (hlive.trans hl) ((bankRow_congr hhandle).trans hr) rate ys
  rw [Decoder.withRate_foldl_sampled, ← List.foldl_append] at hsecond
  exact ⟨a, b, w, ha, hb, hw, hsecond.eq_but_responses hwhole⟩

end Sys2Proof.Machine
end

section
/-! SUPPORT. The queries and the host's quotients (spec/44_queries.md R80 to R87): the ways each query answers a
live bank, and what the host reads in the answer. -/

namespace Sys2Proof.Machine

/-! ## The errors every decoder query shares -/

/-- A command that begins with `CheckLive` raises its two errors in order (R102); what it does on a live bank is
left to `P`. -/
theorem checkLive_errors_and {s : State} {d : Nat} {k : Fin Config.nDec → Result} {P : d < Config.nDec → Prop}
    (h : ∀ hd, P hd) :
    (Config.nDec ≤ d → Raises (orRaise (checkLive d s) s k) s 4) ∧
      ∀ hd : d < Config.nDec,
        ((s.bank ⟨d, hd⟩).live = false → Raises (orRaise (checkLive d s) s k) s 5) ∧ P hd :=
  ⟨fun hle => raises_orRaise (checkLive_of_le s hle), fun hd =>
    ⟨fun hl => raises_orRaise (checkLive_of_not_live ⟨d, hd⟩ hl), h hd⟩⟩

section
variable {s : State} {d : Fin Config.nDec} {row : TimecodeDef}

/-! ## GET_POSITION -/

theorem execGetPosition_of_not_validated (hl : (s.bank d).live = true)
    (hv : (s.bank d).validCounter.toNat ≤ 24) : execGetPosition d.val s = .next (respond statusNone 0 0 s) := by
  rw [execGetPosition, checkLive_of_live d hl, orRaise_ok, if_pos hv]

theorem positionAnswer_of_sentinel {D : Decoder} {m : Memory} (h : m.read D.bitstream.toNat = Memory.sentinel) :
    positionAnswer D m s = respond statusNone 0 0 s := by
  simp only [positionAnswer, lookup, if_pos h]

/-! ## GET_PITCH -/

theorem execGetPitch_of_no_crossings (hl : (s.bank d).live = true) (hc : (s.bank d).crossings = 0) :
    execGetPitch d.val s = .next (respond statusNone 0 0 s) := by
  rw [execGetPitch, checkLive_of_live d hl, orRaise_ok, if_pos hc]

theorem execGetPitch_of_crossings (hl : (s.bank d).live = true) (hc : (s.bank d).crossings ≠ 0) :
    execGetPitch d.val s = .next (respond statusOk (s.bank d).crossings (s.bank d).pitchTicker
      (s.setBank d (s.bank d).pitchRead)) := by
  rw [execGetPitch, checkLive_of_live d hl, orRaise_ok, if_neg hc]

/-! ## GET_ALIVE -/

theorem signalPresent_iff {D : Decoder} : signalPresent D = true ↔ 256 * 65536 ≤ D.signalLevel.toNat :=
  decide_eq_true_iff

theorem execGetAlive_of_live (hl : (s.bank d).live = true) :
    execGetAlive d.val s = .next (respond statusOk (if signalPresent (s.bank d) then 1 else 0) 0 s) := by
  rw [execGetAlive, checkLive_of_live d hl, orRaise_ok]

/-! ## GET_SAFE and GET_RESOLUTION -/

/-- `def(d)` read through the bank's handle and its slot's variant (R11). -/
theorem bankRow_of_handle {h : Fin Config.nLut} (hh : (s.bank d).handle.toNat = h.val)
    (hr : registry[(s.slot h).variant.toNat]? = some row) : bankRow s (s.bank d) = .ok row :=
  (bankRow_of_boundSlot (boundSlot_of_handle hh)).trans (slotRow_of_variant hr)

theorem execGetSafe_of_row (hl : (s.bank d).live = true) (hr : bankRow s (s.bank d) = .ok row) :
    execGetSafe d.val s = .next (respond statusOk (BitVec.ofNat 32 row.safe) 0 s) := by
  rw [execGetSafe, checkLive_of_live d hl, orRaise_ok, hr, orFault_ok]

theorem execGetResolution_of_row (hl : (s.bank d).live = true) (hr : bankRow s (s.bank d) = .ok row) :
    execGetResolution d.val s = .next (respond statusOk (BitVec.ofNat 32 row.resolution) 0 s) := by
  rw [execGetResolution, checkLive_of_live d hl, orRaise_ok, hr, orFault_ok]

end

theorem safe_lt_of_mem_registry {row : TimecodeDef} (h : row ∈ registry) : row.safe < 2 ^ 32 := by
  obtain ⟨hrange, -, -, hsafe⟩ := registryRowsAreInRange.2 row h
  have := hrange.length
  omega

theorem resolution_lt_of_mem_registry : ∀ row ∈ registry, row.resolution < 2 ^ 32 := by decide

/-! ## What the queries answer -/

/-- Settles O36: `CheckLive`'s errors, then the two tests of R80 in order. -/
theorem getPositionAnswersTheEntry : Obligations.GetPositionAnswersTheEntry := by
  intro s d
  refine checkLive_errors_and fun hd hl => ⟨fun hv => ?_, fun h hb hv => ?_⟩
  · rw [exec, execGetPosition_of_not_validated (d := ⟨d, hd⟩) hl hv]
    exact answers_respond _ _ _ _
  · rw [exec, execGetPosition_of_bound (d := ⟨d, hd⟩) hl hv hb, read_toInt_eq_neg_one_iff]
    refine ⟨fun hsentinel => ?_, fun hentry => ?_⟩
    · rw [positionAnswer_of_sentinel hsentinel]
      exact answers_respond _ _ _ _
    · rw [positionAnswer_of_entry (mt read_toInt_eq_neg_one_iff.mpr hentry)]
      exact answers_respond _ _ _ _

/-- Settles O38: `CheckLive`'s errors, then `NONE`, or the read that clears the accumulators (R82). -/
theorem getPitchReadsAndClears : Obligations.GetPitchReadsAndClears := by
  intro s d
  refine checkLive_errors_and fun hd hl => ⟨fun hc => ?_, fun hc => ?_⟩
  · rw [exec, execGetPitch_of_no_crossings (d := ⟨d, hd⟩) hl hc]
    exact answers_respond _ _ _ _
  · exact ⟨_, execGetPitch_of_crossings hl hc, rfl, (onlyBank_setBank s _ _).respond _ _ _, rfl,
      State.bank_setBank_self s _ _⟩

/-- Settles O39: `CheckLive`'s errors, then the comparison of R84. -/
theorem getAliveComparesTheLevel : Obligations.GetAliveComparesTheLevel := by
  intro s d
  refine checkLive_errors_and fun hd hl => ?_
  rw [exec, execGetAlive_of_live (d := ⟨d, hd⟩) hl]
  refine ⟨fun hge => ?_, fun hlt => ?_⟩
  · rw [if_pos (signalPresent_iff.mpr hge)]
    exact answers_respond _ _ _ _
  · rw [if_neg (mt signalPresent_iff.mp (Nat.not_le.mpr hlt))]
    exact answers_respond _ _ _ _

/-- Settles O40: `CheckLive`'s errors, then `safe` of `def(d)`, which fits the response's word. -/
theorem getSafeAnswersTheVariant : Obligations.GetSafeAnswersTheVariant := by
  intro s d
  refine checkLive_errors_and fun hd h row hl hh hr => ?_
  refine ⟨BitVec.ofNat 32 row.safe, Nat.mod_eq_of_lt (safe_lt_of_mem_registry (List.mem_of_getElem? hr)), ?_⟩
  rw [exec, execGetSafe_of_row (d := ⟨d, hd⟩) hl (bankRow_of_handle hh hr)]
  exact answers_respond _ _ _ _

/-- Settles O41: `CheckLive`'s errors, then `resolution` of `def(d)`, which fits the response's word. -/
theorem getResolutionAnswersTheVariant : Obligations.GetResolutionAnswersTheVariant := by
  intro s d
  refine checkLive_errors_and fun hd h row hl hh hr => ?_
  refine ⟨BitVec.ofNat 32 row.resolution,
    Nat.mod_eq_of_lt (resolution_lt_of_mem_registry row (List.mem_of_getElem? hr)), ?_⟩
  rw [exec, execGetResolution_of_row (d := ⟨d, hd⟩) hl (bankRow_of_handle hh hr)]
  exact answers_respond _ _ _ _

/-- Settles O42: the nine flags fit the word they are answered in (R87). -/
theorem getStatusAnswersTheFlags : Obligations.GetStatusAnswersTheFlags := fun s =>
  ⟨s.errFlags.setWidth 32, BitVec.toNat_setWidth_of_le (by decide), answers_respond _ _ _ _⟩

/-! ## The host's quotients -/

theorem elapsedOfResponse_ok (rate : Nat) (data0 data1 : Word) :
    elapsedOfResponse rate (responseWord statusOk data0 data1) = elapsedSeconds data1.toNat rate := by
  simp only [elapsedOfResponse, responseStatus_responseWord, responseData1_responseWord, if_true]

theorem pitchOfResponse_ok (rate resolution : Nat) (data0 data1 : Word) :
    pitchOfResponse rate resolution (responseWord statusOk data0 data1) =
      pitchValue rate data0.toInt data1.toNat resolution := by
  simp only [pitchOfResponse, responseStatus_responseWord, responseData0_responseWord,
    responseData1_responseWord, if_true]

theorem pitchOfResponse_of_not_ok {rate resolution : Nat} {r : ResponseWord} (h : responseStatus r ≠ statusOk) :
    pitchOfResponse rate resolution r = none := if_neg h

/-- Settles O43: the host divides the words of an OK response unless the divisor is 0 (R81, R83). -/
theorem hostQuotientsAreExact : Obligations.HostQuotientsAreExact := by
  intro rate p resolution c ticker
  refine ⟨fun data1 hrate => ?_, ?_, fun hp hlt => ?_, ?_, ?_⟩
  · exact (elapsedOfResponse_ok rate c data1).trans (if_neg hrate.ne')
  · exact elapsedOfResponse_ok 0 c ticker
  · have hword : (BitVec.ofNat 32 p).toNat = p := Nat.mod_eq_of_lt hlt
    exact (pitchOfResponse_ok rate resolution c _).trans (by rw [hword, pitchValue, if_neg hp.ne'])
  · exact pitchOfResponse_ok rate resolution c 0
  · exact pitchOfResponse_of_not_ok (by rw [responseStatus_responseWord]; decide)

end Sys2Proof.Machine
end

section
/-! SUPPORT. The lifecycle of a decoder (spec/45_lifecycle.md R88, R89): what INIT and CLEAR do once their operands
pass the checks. -/

namespace Sys2Proof.Machine

/-! ## What a release leaves unchanged -/

theorem onlyBank_releaseBank (s : State) (d : Fin Config.nDec) : OnlyBank s (s.releaseBank d) d :=
  ⟨fun _ he => ⟨(State.bank_releaseBank s d _).trans (if_neg he), State.bankDraw_releaseBank_of_ne he⟩,
    rfl, rfl, rfl, rfl⟩

theorem State.live_bank_releaseBank_self (s : State) (d : Fin Config.nDec) :
    ((s.releaseBank d).bank d).live = false := by
  rw [State.bank_releaseBank, if_pos rfl, freeDecoder_live]

/-! ## INIT -/

theorem execInit_of_lt {s : State} {h : Nat} (d : Fin Config.nDec) :
    execInit d.val h s = orRaise (checkValid h s) s fun _ =>
      .next (respond statusOk 0 0 (s.setBank d (Decoder.initial h))) := by
  rw [execInit, bankIndex_of_lt d.isLt, orRaise_ok]

theorem execInit_of_valid {s : State} (d : Fin Config.nDec) (h : Fin Config.nLut) (hv : (s.slot h).valid = true) :
    execInit d.val h.val s = .next (respond statusOk 0 0 (s.setBank d (Decoder.initial h.val))) := by
  rw [execInit_of_lt, checkValid_of_valid h hv, orRaise_ok]

/-- Settles O22: the tests of R88 in order; then bank `d` becomes `Decoder.initial h`, which does not mention what
it held. -/
theorem initSetsTheStartState : Obligations.InitSetsTheStartState := by
  intro s d h
  refine ⟨fun hle => raises_orRaise (bankIndex_of_le hle), fun hd hle => ?_, fun hd hh =>
    ⟨fun hv => ?_, fun hv => ?_⟩⟩
  · rw [exec, execInit_of_lt ⟨d, hd⟩]
    exact raises_orRaise (checkValid_of_le hle)
  · rw [exec, execInit_of_lt ⟨d, hd⟩]
    exact raises_orRaise (checkValid_of_not_valid ⟨h, hh⟩ hv)
  · exact ⟨_, execInit_of_valid ⟨d, hd⟩ ⟨h, hh⟩ hv, rfl, (onlyBank_setBank s _ _).respond _ _ _, rfl,
      State.bank_setBank_self s _ _⟩

/-! ## CLEAR -/

theorem execClear_of_live {s : State} {d : Fin Config.nDec} (hl : (s.bank d).live = true) :
    execClear d.val s = .next (respond statusOk 0 0 (s.releaseBank d)) := by
  rw [execClear, checkLive_of_live d hl, orRaise_ok]

/-- Settles O23: `CheckLive`'s errors, then the release of the bank (R89). -/
theorem clearReleasesTheBank : Obligations.ClearReleasesTheBank := by
  intro s d
  refine checkLive_errors_and fun hd hl => ?_
  exact ⟨_, execClear_of_live (d := ⟨d, hd⟩) hl, State.live_bank_releaseBank_self s _, rfl,
    (onlyBank_releaseBank s _).respond _ _ _⟩

end Sys2Proof.Machine
end

section
/-! SUPPORT. Errors, and the independence of the decoders (spec/60_exceptions.md R101 to R112): a command to a decoder
reads nothing but the slots and its own bank, and edits nothing but its own bank. -/

namespace Sys2Proof.Machine

/-! ## An edit of at most one bank -/

/-- What a command to a decoder does to its bank, once that is decided. -/
inductive Edit where
  | keep
  | set (d : Fin Config.nDec) (x : Decoder)
  | release (d : Fin Config.nDec)

def Edit.run : Edit → State → State
  | keep, s => s
  | set d x, s => s.setBank d x
  | release d, s => s.releaseBank d

/-- The edit is of no bank but `n`. -/
def Edit.on (n : Nat) : Edit → Prop
  | keep => True
  | set d _ => d.val = n
  | release d => d.val = n

theorem Edit.run_lut (e : Edit) (s : State) : (e.run s).lut = s.lut := by
  cases e <;> rfl

theorem Edit.run_slotDraws (e : Edit) (s : State) : (e.run s).slotDraws = s.slotDraws := by
  cases e <;> rfl

/-- An edit neither reads nor writes the error bits and the responses. -/
theorem Edit.run_answered (e : Edit) (s : State) (errFlags : BitVec 9) (responses : List ResponseWord) :
    e.run { s with errFlags, responses } = { e.run s with errFlags, responses } := by
  cases e <;> rfl

/-- An edit of bank `n` leaves every other bank. -/
theorem Edit.run_bank_of_ne {e : Edit} {n : Nat} (he : e.on n) (s : State) {d : Fin Config.nDec} (hd : d.val ≠ n) :
    (e.run s).bank d = s.bank d ∧ (e.run s).bankDraw d = s.bankDraw d := by
  cases e with
  | keep => exact ⟨rfl, rfl⟩
  | set i x =>
    obtain rfl : i.val = n := he
    exact (onlyBank_setBank s i x).1 d (Fin.ne_of_val_ne hd)
  | release i =>
    obtain rfl : i.val = n := he
    exact (onlyBank_releaseBank s i).1 d (Fin.ne_of_val_ne hd)

/-! ## Edits of different banks commute -/

theorem State.releaseBank_of_bankDraw {s : State} {d : Fin Config.nDec} {k : Nat} (hk : s.bankDraw d = k) :
    s.releaseBank d =
      { s with dec := s.dec.set d.val (freeDecoder d.val k), bankDraws := s.bankDraws.set d.val (k + 1) } := by
  rw [← hk, State.releaseBank]

section
variable {d e : Fin Config.nDec} (h : d ≠ e) (s : State)
include h

theorem State.setBank_setBank_comm (x y : Decoder) :
    (s.setBank d x).setBank e y = (s.setBank e y).setBank d x :=
  congrArg (fun dec => { s with dec }) (Vector.set_comm x y (Fin.val_ne_of_ne h))

theorem State.releaseBank_setBank_comm (y : Decoder) :
    (s.releaseBank d).setBank e y = (s.setBank e y).releaseBank d :=
  congrArg (fun dec => { s.releaseBank d with dec }) (Vector.set_comm _ y (Fin.val_ne_of_ne h))

/-- Each release takes its own bank's next draw. -/
theorem State.releaseBank_releaseBank_comm : (s.releaseBank d).releaseBank e = (s.releaseBank e).releaseBank d := by
  rw [State.releaseBank_of_bankDraw (State.bankDraw_releaseBank_of_ne h.symm),
    State.releaseBank_of_bankDraw (State.bankDraw_releaseBank_of_ne h)]
  simp only [State.releaseBank, Vector.set_comm _ _ (Fin.val_ne_of_ne h)]

end

theorem Edit.run_comm {e f : Edit} {m n : Nat} (he : e.on m) (hf : f.on n) (hne : m ≠ n) (s : State) :
    f.run (e.run s) = e.run (f.run s) := by
  have apart : ∀ {i j : Fin Config.nDec}, i.val = m → j.val = n → i ≠ j := fun hi hj hij =>
    hne (hi.symm.trans ((congrArg Fin.val hij).trans hj))
  cases e with
  | keep => rfl
  | set i x =>
    cases f with
    | keep => rfl
    | set j y => exact State.setBank_setBank_comm (apart he hf) s x y
    | release j => exact (State.releaseBank_setBank_comm (apart he hf).symm s x).symm
  | release i =>
    cases f with
    | keep => rfl
    | set j y => exact State.releaseBank_setBank_comm (apart he hf) s y
    | release j => exact State.releaseBank_releaseBank_comm (apart he hf) s

/-! ## A reply: an edit and an answer -/

/-- All that a command to a decoder does: its edit, the error bits it sets and its response. -/
structure Reply where
  edit : Edit
  flags : BitVec 9
  response : ResponseWord

def Reply.run (p : Reply) (s : State) : State :=
  { p.edit.run s with errFlags := s.errFlags ||| p.flags, responses := p.response :: s.responses }

def Reply.raised (e : ErrorCode) : Reply := ⟨.keep, 1#9 <<< e.bit, responseWord e.status 0 0⟩

def Reply.answered (e : Edit) (st : Status) (a b : Word) : Reply := ⟨e, 0, responseWord st a b⟩

theorem Reply.run_raised (e : ErrorCode) (s : State) : (Reply.raised e).run s = raise e s := rfl

theorem Reply.run_answered (e : Edit) (st : Status) (a b : Word) (s : State) :
    (Reply.answered e st a b).run s = respond st a b (e.run s) := by
  cases e <;> simp [Reply.run, Reply.answered, respond, Edit.run, State.setBank, State.releaseBank]

/-- Replies to different decoders commute but for the order of the responses: the error bits are an OR (R111). -/
theorem Reply.run_comm {p q : Reply} {m n : Nat} (hp : p.edit.on m) (hq : q.edit.on n) (hne : m ≠ n) (s : State) :
    { q.run (p.run s) with responses := [] } = { p.run (q.run s) with responses := [] } := by
  simp only [Reply.run, Edit.run_answered, Edit.run_comm hp hq hne s, BitVec.or_assoc, BitVec.or_comm p.flags]

/-! ## What a command to a decoder reads -/

/-- `u` has the slots of `s`, and its bank `n` if there is one. -/
structure ReadsAlike (n : Nat) (s u : State) : Prop where
  lut : u.lut = s.lut
  bank : ∀ {d : Fin Config.nDec}, d.val = n → u.bank d = s.bank d

theorem ReadsAlike.refl (n : Nat) (s : State) : ReadsAlike n s s := ⟨rfl, fun _ => rfl⟩

/-- A reply to another decoder changes nothing that a command to decoder `n` reads. -/
theorem ReadsAlike.run {p : Reply} {m n : Nat} (hp : p.edit.on m) (hne : n ≠ m) (s : State) :
    ReadsAlike n s (p.run s) :=
  ⟨Edit.run_lut p.edit s, fun hd => (Edit.run_bank_of_ne hp s (hd ▸ hne)).1⟩

section
variable {n : Nat} {s u : State}

theorem ReadsAlike.slot_eq (hu : ReadsAlike n s u) (h : Fin Config.nLut) : u.slot h = s.slot h := by
  simp only [State.slot, hu.lut]

theorem ReadsAlike.checkLive_eq (hu : ReadsAlike n s u) : checkLive n u = checkLive n s := by
  unfold checkLive
  cases hd : bankIndex n with
  | error e => rfl
  | ok i => simp only [hu.bank (bankIndex_ok hd)]

theorem ReadsAlike.checkValid_eq (hu : ReadsAlike n s u) (h : Nat) : checkValid h u = checkValid h s := by
  simp only [checkValid, hu.slot_eq]

theorem ReadsAlike.bankRow_eq (hu : ReadsAlike n s u) {d : Fin Config.nDec} (hd : d.val = n) :
    bankRow u (u.bank d) = bankRow s (s.bank d) := by
  simp only [bankRow, hu.bank hd, hu.slot_eq]

end

/-! ## Meanings that reply alike -/

/-- If `f` ends from `s`, it makes one and the same reply, to decoder `n`, from every state that reads like `s`. -/
def RepliesAlike (n : Nat) (s : State) (f : State → Result) : Prop :=
  ∀ t, f s = .next t → ∃ p : Reply, p.edit.on n ∧ ∀ u, ReadsAlike n s u → f u = .next (p.run u)

section
variable {n : Nat} {s : State} {f g : State → Result}

theorem RepliesAlike.raise (e : ErrorCode) (hf : ∀ u, ReadsAlike n s u → f u = .next (Machine.raise e u)) :
    RepliesAlike n s f :=
  fun _ _ => ⟨.raised e, trivial, fun u hu => by rw [hf u hu, Reply.run_raised]⟩

theorem RepliesAlike.respond (e : Edit) (he : e.on n) {st : Status} {a b : Word}
    (hf : ∀ u, ReadsAlike n s u → f u = .next (Machine.respond st a b (e.run u))) : RepliesAlike n s f :=
  fun _ _ => ⟨.answered e st a b, he, fun u hu => by rw [hf u hu, Reply.run_answered]⟩

theorem RepliesAlike.congr (hfg : ∀ u, ReadsAlike n s u → f u = g u) (hg : RepliesAlike n s g) :
    RepliesAlike n s f := fun t ht => by
  obtain ⟨p, hp, hrun⟩ := hg t ((hfg s (.refl n s)).symm.trans ht)
  exact ⟨p, hp, fun u hu => (hfg u hu).trans (hrun u hu)⟩

theorem RepliesAlike.ite {c : State → Prop} [∀ u, Decidable (c u)] (hc : ∀ u, ReadsAlike n s u → (c u ↔ c s))
    (hf : RepliesAlike n s f) (hg : RepliesAlike n s g) : RepliesAlike n s fun u => if c u then f u else g u := by
  by_cases h : c s
  · exact hf.congr fun u hu => if_pos ((hc u hu).mpr h)
  · exact hg.congr fun u hu => if_neg (mt (hc u hu).mp h)

theorem RepliesAlike.orRaise {α : Type} {c : State → Except ErrorCode α} {k : State → α → Result}
    (hc : ∀ u, ReadsAlike n s u → c u = c s) (hk : ∀ x, c s = .ok x → RepliesAlike n s (k · x)) :
    RepliesAlike n s fun u => Machine.orRaise (c u) u (k u) := by
  cases h : c s with
  | error e => exact .raise e fun u hu => by rw [hc u hu, h, orRaise_error]
  | ok x => exact (hk x h).congr fun u hu => by rw [hc u hu, h, orRaise_ok]

theorem RepliesAlike.orFault {α : Type} {r : State → Except Fault α} {k : State → α → Result}
    (hr : ∀ u, ReadsAlike n s u → r u = r s) (hk : ∀ x, RepliesAlike n s (k · x)) :
    RepliesAlike n s fun u => Machine.orFault (r u) (k u) := fun t ht => by
  obtain ⟨x, hx, -⟩ := orFault_next ht
  exact (hk x).congr (fun u hu => by rw [hr u hu, hx, orFault_ok]) t ht

/-- After `CheckLive` the meaning goes on with the addressed bank. -/
theorem RepliesAlike.onLive {k : State → Fin Config.nDec → Result}
    (hk : ∀ i : Fin Config.nDec, i.val = n → RepliesAlike n s (k · i)) :
    RepliesAlike n s fun u => Machine.orRaise (checkLive n u) u (k u) :=
  .orRaise (fun _ hu => hu.checkLive_eq) fun i hi => hk i (checkLive_ok hi).1

/-! ## Every command to a decoder replies alike -/

theorem execInit_repliesAlike (h : Nat) : RepliesAlike n s (execInit n h) :=
  .orRaise (fun _ _ => rfl) fun i hi => .orRaise (fun _ hu => hu.checkValid_eq h) fun _ _ =>
    .respond (.set i (Decoder.initial h)) (bankIndex_ok hi) fun _ _ => rfl

theorem execClear_repliesAlike : RepliesAlike n s (execClear n) :=
  .onLive fun i hi => .respond (.release i) hi fun _ _ => rfl

theorem execRate_repliesAlike (r : Nat) : RepliesAlike n s (execRate n r) :=
  .onLive fun i hi => .respond (.set i ((s.bank i).withRate r)) hi fun u hu => by rw [hu.bank hi, Edit.run]

theorem execSample_repliesAlike (l r : Int) : RepliesAlike n s (execSample n l r) :=
  .onLive fun i hi =>
    .ite (fun u hu => by rw [hu.bank hi])
      (.ite (fun u hu => by rw [hu.bank hi])
        (.orFault (fun u hu => hu.bankRow_eq hi) fun row =>
          .respond (.set i (((s.bank i).everySample l r).crossing row)) hi fun u hu => by rw [hu.bank hi, Edit.run])
        (.respond (.set i ((s.bank i).everySample l r)) hi fun u hu => by rw [hu.bank hi, Edit.run]))
      (.raise .noRate fun _ _ => rfl)

theorem execGetPitch_repliesAlike : RepliesAlike n s (execGetPitch n) :=
  .onLive fun i hi =>
    .ite (fun u hu => by rw [hu.bank hi])
      (.respond .keep trivial fun _ _ => rfl)
      (.respond (.set i (s.bank i).pitchRead) hi fun u hu => by rw [hu.bank hi, Edit.run])

theorem positionAnswer_repliesAlike {i : Fin Config.nDec} (hi : i.val = n) (h : Fin Config.nLut) :
    RepliesAlike n s fun u => .next (positionAnswer (u.bank i) (u.slot h).mem u) := by
  by_cases hm : (s.slot h).mem.read (s.bank i).bitstream.toNat = Memory.sentinel
  · exact .respond .keep trivial fun u hu => by rw [hu.bank hi, hu.slot_eq, positionAnswer_of_sentinel hm, Edit.run]
  · exact .respond .keep trivial fun u hu => by rw [hu.bank hi, hu.slot_eq, positionAnswer_of_entry hm, Edit.run]

theorem execGetPosition_repliesAlike : RepliesAlike n s (execGetPosition n) :=
  .onLive fun i hi =>
    .ite (fun u hu => by rw [hu.bank hi])
      (.respond .keep trivial fun _ _ => rfl)
      (.orFault (fun u hu => by rw [hu.bank hi]) fun h => positionAnswer_repliesAlike hi h)

theorem execGetAlive_repliesAlike : RepliesAlike n s (execGetAlive n) :=
  .onLive fun _ hi => .respond .keep trivial fun u hu => by rw [hu.bank hi, Edit.run]

theorem execGetSafe_repliesAlike : RepliesAlike n s (execGetSafe n) :=
  .onLive fun _ hi => .orFault (fun _ hu => hu.bankRow_eq hi) fun _ => .respond .keep trivial fun _ _ => rfl

theorem execGetResolution_repliesAlike : RepliesAlike n s (execGetResolution n) :=
  .onLive fun _ hi => .orFault (fun _ hu => hu.bankRow_eq hi) fun _ => .respond .keep trivial fun _ _ => rfl

theorem exec_repliesAlike {i : Instr} (hd : decoderOf i = some n) : RepliesAlike n s (exec i) := by
  cases i with
  | buildLookup | freeLookup | getStatus => cases hd
  | init d h => cases hd; exact execInit_repliesAlike h
  | clear d => cases hd; exact execClear_repliesAlike
  | rate d r => cases hd; exact execRate_repliesAlike r
  | sample d l r => cases hd; exact execSample_repliesAlike l r
  | getPitch d => cases hd; exact execGetPitch_repliesAlike
  | getPosition d => cases hd; exact execGetPosition_repliesAlike
  | getAlive d => cases hd; exact execGetAlive_repliesAlike
  | getSafe d => cases hd; exact execGetSafe_repliesAlike
  | getResolution d => cases hd; exact execGetResolution_repliesAlike

end

/-! ## Where every live bank is bound, every command answers -/

section
variable {s : State}

theorem exists_next_orRaise {α : Type} {c : Except ErrorCode α} {k : α → Result}
    (hk : ∀ x, c = .ok x → ∃ t, k x = .next t) : ∃ t, orRaise c s k = .next t := by
  cases c with
  | error e => exact ⟨_, rfl⟩
  | ok x => exact hk x rfl

theorem BanksBound.exists_bankRow (hs : BanksBound s) {d : Fin Config.nDec} (hl : (s.bank d).live = true) :
    ∃ row, bankRow s (s.bank d) = .ok row := by
  obtain ⟨h, hb, hv⟩ := hs.2 d hl
  obtain ⟨row, hr⟩ := hs.1 h hv
  exact ⟨row, (bankRow_of_boundSlot hb).trans hr⟩

/-- The two reads that can fault, `boundSlot` and `bankRow`, do not (R105). -/
theorem exec_next_of_banksBound (hs : BanksBound s) (i : Instr) : ∃ t, exec i s = .next t := by
  cases i with
  | buildLookup | init => exact exists_next_orRaise fun _ _ => exists_next_orRaise fun _ _ => ⟨_, rfl⟩
  | clear | rate | getAlive => exact exists_next_orRaise fun _ _ => ⟨_, rfl⟩
  | freeLookup | getPitch =>
    refine exists_next_orRaise fun _ _ => ?_
    split <;> exact ⟨_, rfl⟩
  | sample d l r =>
    refine exists_next_orRaise fun i hi => ?_
    obtain ⟨row, hr⟩ := hs.exists_bankRow (checkLive_ok hi).2
    rw [hr, orFault_ok]
    split
    · split <;> exact ⟨_, rfl⟩
    · exact ⟨_, rfl⟩
  | getPosition d =>
    refine exists_next_orRaise fun i hi => ?_
    obtain ⟨h, hb, -⟩ := hs.2 i (checkLive_ok hi).2
    rw [hb, orFault_ok]
    split <;> exact ⟨_, rfl⟩
  | getSafe | getResolution =>
    refine exists_next_orRaise fun i hi => ?_
    obtain ⟨row, hr⟩ := hs.exists_bankRow (checkLive_ok hi).2
    exact ⟨_, by rw [hr, orFault_ok]⟩
  | getStatus => exact ⟨_, rfl⟩

end

/-- Settles O49: each command makes the same reply after the other, and the two replies commute. -/
theorem commandsToDifferentBanksCommute : Obligations.CommandsToDifferentBanksCommute := by
  intro s i j m n hs hi hj hne
  obtain ⟨a, ha⟩ := exec_next_of_banksBound hs i
  obtain ⟨b, hb⟩ := exec_next_of_banksBound hs j
  obtain ⟨p, hp, hprun⟩ := exec_repliesAlike hi a ha
  obtain ⟨q, hq, hqrun⟩ := exec_repliesAlike hj b hb
  exact ⟨p.run s, q.run (p.run s), q.run s, p.run (q.run s), p.response, q.response,
    hprun s (.refl m s), hqrun _ (.run hp hne.symm s), hqrun s (.refl n s), hprun _ (.run hq hne s),
    rfl, rfl, Reply.run_comm hp hq hne s⟩

/-! ## What a command writes -/

theorem finishBuild_frame (i : Fin Config.nLut) (v : Nat) (built : Option Memory) (s : State) :
    (finishBuild i v built s).dec = s.dec ∧ (finishBuild i v built s).bankDraws = s.bankDraws := by
  cases built <;> exact ⟨rfl, rfl⟩

/-- A command to no decoder writes no bank. -/
theorem exec_frame_of_no_decoder {s t : State} {i : Instr} (hd : decoderOf i = none) (hx : exec i s = .next t) :
    t.dec = s.dec ∧ t.bankDraws = s.bankDraws := by
  cases i with
  | buildLookup h v =>
    obtain ⟨e, -, rfl⟩ | ⟨k, -, ⟨e, -, rfl⟩ | ⟨row, -, rfl⟩⟩ := execBuildLookup_next hx
    · exact ⟨rfl, rfl⟩
    · exact ⟨rfl, rfl⟩
    · exact finishBuild_frame k v _ s
  | freeLookup h =>
    obtain ⟨e, -, rfl⟩ | ⟨k, -, ⟨-, rfl⟩ | ⟨-, rfl⟩⟩ := execFreeLookup_next hx <;> exact ⟨rfl, rfl⟩
  | getStatus => obtain rfl := execGetStatus_next hx; exact ⟨rfl, rfl⟩
  | init | clear | rate | sample | getPitch | getPosition | getAlive | getSafe | getResolution => cases hd

/-- Settles O48: what a command to a decoder does is its reply, whose edit is of that decoder's bank. -/
theorem commandWritesOnlyItsUnit : Obligations.CommandWritesOnlyItsUnit := by
  intro s t i hx
  refine ⟨fun n hd => ?_, fun hd => exec_frame_of_no_decoder hd hx, (exec_answered hx).port⟩
  obtain ⟨p, hp, hrun⟩ := exec_repliesAlike hd t hx
  obtain rfl : t = p.run s := by simpa [hx] using hrun s (.refl n s)
  exact ⟨Edit.run_lut p.edit s, Edit.run_slotDraws p.edit s, fun _ => Edit.run_bank_of_ne hp s⟩

/-! ## The step -/

/-- Settles O7: the decoder rejects the word (O3), and the step raises `ERR_ILLEGAL`. -/
theorem illegalWordRaisesIllegal : Obligations.IllegalWordRaisesIllegal := by
  intro s w rest hp hw
  obtain ⟨e, he⟩ := (illegalWordsAreTheReservedOnes w).mpr hw
  rw [step_of_decode_error hp he]
  exact raises_raise .illegal _

/-- Settles O8: the step's arm for an empty list of inputs. -/
theorem stepWithoutInputKeepsTheState : Obligations.StepWithoutInputKeepsTheState := fun s hp => by
  rw [step, hp]

/-- Settles O56: the step's arms by the next input; only a command could stop, and it answers. -/
theorem boundStatesAreSafe : Obligations.BoundStatesAreSafe := by
  intro s hs
  cases hp : s.port with
  | nil => exact ⟨s, stepWithoutInputKeepsTheState s hp⟩
  | cons x rest =>
    cases x with
    | reset => exact ⟨hardwareReset { s with port := rest }, by rw [step, hp]⟩
    | command w =>
      cases hd : decode w with
      | ok i =>
        rw [Safe, step_of_decode_ok hp hd]
        exact exec_next_of_banksBound (s := { s with port := rest }) hs i
      | error e => exact ⟨_, step_of_decode_error hp hd⟩

end Sys2Proof.Machine
end

section
/-! SUPPORT. Hardware reset (spec/70_reset_and_hazards.md R120): the step that takes it, and the state it leaves, in
which no slot is valid and no bank is live, so that the invariants of valid slots and live banks hold. -/

namespace Sys2Proof.Machine

/-! ## The step that takes hardware reset -/

theorem step_of_reset {s : State} {rest : List HostInput} (hp : s.port = .reset :: rest) :
    step s = .next (hardwareReset { s with port := rest }) := by
  rw [step, hp]

/-- Settles O9: the step answers `hardwareReset`, each field of which has its lemma. -/
theorem hardwareResetClearsTheFlags : Obligations.HardwareResetClearsTheFlags := fun _ _ hp =>
  ⟨_, step_of_reset hp, fun _ => Bool.eq_false_iff.mpr not_valid_hardwareReset,
    fun d => ⟨Bool.eq_false_iff.mpr not_live_hardwareReset, by rw [bank_hardwareReset _ d]⟩,
    hardwareReset_errFlags _, hardwareReset_port _, hardwareReset_responses _⟩

/-! ## States with no valid slot and no live bank -/

section
variable {s : State}

theorem slotsBuilt_of_none_valid (hv : ∀ h, (s.slot h).valid = false) : SlotsBuilt s :=
  fun h hvalid => absurd hvalid (Bool.eq_false_iff.mp (hv h))

theorem banksBound_of_none (hv : ∀ h, (s.slot h).valid = false) (hl : ∀ d, (s.bank d).live = false) :
    BanksBound s :=
  ⟨fun h hvalid => absurd hvalid (Bool.eq_false_iff.mp (hv h)),
    fun d hlive => absurd hlive (Bool.eq_false_iff.mp (hl d))⟩

/-- The invariants of 10_state.md R12, R16, R17, R20 and R21 speak of live banks only. -/
theorem liveInvariants_of_none_live (hl : ∀ d, (s.bank d).live = false) :
    StreamsInRange s ∧ LevelsInRange s ∧ CoefficientsFollowRate s ∧ CountersAgree s :=
  have hnot (d) : ¬ (s.bank d).live = true := Bool.eq_false_iff.mp (hl d)
  ⟨fun d _ h => absurd h (hnot d), fun d h => absurd h (hnot d), fun d h => absurd h (hnot d),
    fun d h => absurd h (hnot d)⟩

end

/-! ## The state after reset -/

@[simp] theorem slot_reset (h : Fin Config.nLut) : State.reset.slot h = Slot.reset :=
  Vector.getElem_replicate h.isLt

@[simp] theorem bank_reset (d : Fin Config.nDec) : State.reset.bank d = Decoder.reset :=
  Vector.getElem_replicate d.isLt

theorem memoriesCanonical_reset : MemoriesCanonical State.reset := fun h =>
  ⟨reset_slot_wf h, by simp [Slot.reset]⟩

/-- Settles O10: with every `valid` and `live` at 0, only the memories are left to look at, and they are empty. -/
theorem resetMeetsTheInvariants : Obligations.ResetMeetsTheInvariants :=
  have hv (h) : (State.reset.slot h).valid = false := by rw [slot_reset, Slot.reset]
  have hl (d) : (State.reset.bank d).live = false := by rw [bank_reset, Decoder.reset]
  have hr (d) : (State.reset.bank d).rateValid = false := by rw [bank_reset, Decoder.reset]
  ⟨hv, fun d => ⟨hl d, hr d⟩, rfl, memoriesCanonical_reset, slotsBuilt_of_none_valid hv, banksBound_of_none hv hl,
    liveInvariants_of_none_live hl⟩

end Sys2Proof.Machine
end
